-- ==== Sys2Proof/Word.lean ====
section
/-! DEFINITION. The word types of CORE (spec 00_scope.md rules R8, R12, R13). -/

namespace Sys2Proof

/-- One byte of a buffer. -/
abbrev Byte := BitVec 8

/-- A 32-bit bus word, and a command word (20_memory.md R54, 30_encoding.md R80). -/
abbrev Word := BitVec 32

/-- The content of one field register: 9 limbs of 64 bits (00_scope.md R8, `FW`). -/
abbrev FieldWord := BitVec 576

/-- A Keccak lane, a BLAKE2b or SipHash word. -/
abbrev Lane := BitVec 64

end Sys2Proof
end

