-- ==== Sys2Proof/Syntax.lean ====
section
/-! DEFINITION. The commands of CORE, one constructor per row of spec/opcode_table.json
(30_encoding.md R85), with the fields each row leaves free (R81). -/

namespace Sys2Proof

/-- A field register number, `F[0]` to `F[15]`. -/
abbrev FReg := Fin 16

/-- A point register number, `P[0]` to `P[7]`. -/
abbrev PReg := Fin 8

/-- The `CRV` field: 0 to 7 name curves, 8 to 15 are reserved values that a command reports with
`InvalidParameter` when it runs (30_encoding.md R81, R86). -/
abbrev CrvField := Fin 16

/-- The `RC` field: a small constant selector (30_encoding.md R81). -/
abbrev RcField := Fin 16

/-- One command of CORE. `ms` selects the group order as modulus, `rk` asks for the private-key
range check, `final` is `MODE[0]` of B2COMP. -/
inductive Instr where
  | nop
  | zeroize
  | fadd (crv : CrvField) (ms : Bool) (rd ra rb : FReg)
  | fsub (crv : CrvField) (ms : Bool) (rd ra rb : FReg)
  | fneg (crv : CrvField) (ms : Bool) (rd ra : FReg)
  | fmul (crv : CrvField) (ms : Bool) (rd ra rb : FReg)
  | fsqr (crv : CrvField) (ms : Bool) (rd ra : FReg)
  | montmul (crv : CrvField) (ms : Bool) (rd ra rb : FReg)
  | tomont (crv : CrvField) (ms : Bool) (rd ra : FReg)
  | frommont (crv : CrvField) (ms : Bool) (rd ra : FReg)
  | finv (crv : CrvField) (ms : Bool) (rd ra : FReg)
  | fpow (crv : CrvField) (ms : Bool) (rd ra rb : FReg)
  | fred (crv : CrvField) (ms : Bool) (rd ra : FReg)
  | fmov (rd ra : FReg)
  | fldc (crv : CrvField) (ms : Bool) (rd : FReg) (rc : RcField)
  | pchk (crv : CrvField) (ra : PReg)
  | padd (crv : CrvField) (rd ra rb : PReg)
  | pdbl (crv : CrvField) (rd ra : PReg)
  | pldc (crv : CrvField) (rd : PReg) (rc : RcField)
  | smul (crv : CrvField) (rk : Bool) (rd ra : PReg) (rb : FReg)
  | smulG (crv : CrvField) (rk : Bool) (rd : PReg) (rb : FReg)
  | smulx (crv : CrvField) (rk : Bool) (rd ra rb : FReg)
  | smulxG (crv : CrvField) (rk : Bool) (rd rb : FReg)
  | keccakp (mode : BitVec 8)
  | spinit (mode : BitVec 8) (len : BitVec 16)
  | spabs (len : BitVec 16)
  | spfin
  | spsqz (len : BitVec 16)
  | spdig
  | b2init (mode : BitVec 8)
  | b2comp (final : Bool) (len : BitVec 16)
  | ghmul (len : BitVec 16)
  | sipinit (mode : BitVec 8)
  | sipblk (len : BitVec 16)
  | sipfin (len : BitVec 16)
  deriving DecidableEq, Repr

end Sys2Proof
end

