-- ==== Sys2Proof/WellFormed.lean ====
section
/-! DEFINITION. Which terms of `Instr` are commands of CORE. The field widths are carried by the
types; the one constraint the types do not carry is the one that no mask of the opcode map
expresses (30_encoding.md R85). -/

namespace Sys2Proof

/-- SPINIT with a preset (`MODE` 0 to 9) requires `LEN = 0` (30_encoding.md R85, last paragraph;
44_keccak.md R221). Every other combination of fields spells a command. -/
def Instr.wellFormed : Instr → Bool
  | .spinit mode len => decide (mode.toNat ≤ 9 → len = 0)
  | .nop | .zeroize | .fadd .. | .fsub .. | .fneg .. | .fmul .. | .fsqr .. | .montmul .. | .tomont ..
  | .frommont .. | .finv .. | .fpow .. | .fred .. | .fmov .. | .fldc .. | .pchk .. | .padd .. | .pdbl ..
  | .pldc .. | .smul .. | .smulG .. | .smulx .. | .smulxG .. | .keccakp .. | .spabs .. | .spfin
  | .spsqz .. | .spdig | .b2init .. | .b2comp .. | .ghmul .. | .sipinit .. | .sipblk .. | .sipfin .. => true

end Sys2Proof
end

