-- ==== Sys2Proof/Decode.lean ====
section
/-! DEFINITION. The decoder, total on every 32-bit word, and the encoder (30_encoding.md R80 to R85).
A word spells a command exactly when `w &&& mask = match` for a row of the opcode map (R83); the
one further test is that of SPINIT presets (R85). -/

namespace Sys2Proof

/-- Why a word spells no command. All three end the command with `IllegalCommand`
(30_encoding.md R83, 60_exceptions.md R315). -/
inductive Illegal where
  /-- The value of `OPC` is unassigned (30_encoding.md R87). -/
  | unassignedOpcode
  /-- A bit that the row's mask covers differs from the row's match (30_encoding.md R83). -/
  | reservedBits
  /-- SPINIT with a preset and `LEN` other than 0 (30_encoding.md R85). -/
  | presetLength
  deriving DecidableEq, Repr

/-! ### The fields of a word (30_encoding.md R81, R82) -/

/-- `OPC`, bits 31:24. -/
def opcField (w : Word) : BitVec 8 := w.extractLsb' 24 8
/-- `CRV`, bits 23:20. -/
def crvField (w : Word) : CrvField := (w.extractLsb' 20 4).toFin
/-- `MS`, bit 19. -/
def msField (w : Word) : Bool := w.getLsbD 19
/-- `RK`, bit 17. -/
def rkField (w : Word) : Bool := w.getLsbD 17
/-- `RD` as a field register, bits 15:12. -/
def rdField (w : Word) : FReg := (w.extractLsb' 12 4).toFin
/-- `RA` as a field register, bits 11:8. -/
def raField (w : Word) : FReg := (w.extractLsb' 8 4).toFin
/-- `RB` as a field register, bits 7:4. -/
def rbField (w : Word) : FReg := (w.extractLsb' 4 4).toFin
/-- `RC`, bits 3:0. -/
def rcField (w : Word) : RcField := (w.extractLsb' 0 4).toFin
/-- `RD` as a point register: bit 15 must be 0, the number is bits 14:12. -/
def pdField (w : Word) : PReg := (w.extractLsb' 12 3).toFin
/-- `RA` as a point register: bit 11 must be 0, the number is bits 10:8. -/
def paField (w : Word) : PReg := (w.extractLsb' 8 3).toFin
/-- `RB` as a point register: bit 7 must be 0, the number is bits 6:4. -/
def pbField (w : Word) : PReg := (w.extractLsb' 4 3).toFin
/-- `MODE`, bits 23:16. -/
def modeField (w : Word) : BitVec 8 := w.extractLsb' 16 8
/-- `LEN`, bits 15:0. -/
def lenField (w : Word) : BitVec 16 := w.extractLsb' 0 16

/-- One row of the opcode map: the word spells `i` when its bits under `mask` are `bits`. -/
def decodeRow (w mask bits : Word) (i : Instr) : Except Illegal Instr :=
  if w &&& mask = bits then .ok i else .error .reservedBits

/-- SPINIT's row has no must-be-zero bit; a preset with `LEN` other than 0 is refused after the row
has matched (30_encoding.md R85). -/
def decodeSpinit (mode : BitVec 8) (len : BitVec 16) : Except Illegal Instr :=
  if mode.toNat ≤ 9 ∧ len ≠ 0 then .error .presetLength else .ok (.spinit mode len)

/-- The decoder: masks and matches are those of the opcode map, row by row (30_encoding.md R85). -/
def decode (w : Word) : Except Illegal Instr :=
  match (opcField w).toNat with
  | 0x00 => decodeRow w 0xFFFFFFFF 0x00000000 .nop
  | 0x01 => decodeRow w 0xFFFFFFFF 0x01000000 .zeroize
  | 0x10 => decodeRow w 0xFF07000F 0x10000000 (.fadd (crvField w) (msField w) (rdField w) (raField w) (rbField w))
  | 0x11 => decodeRow w 0xFF07000F 0x11000000 (.fsub (crvField w) (msField w) (rdField w) (raField w) (rbField w))
  | 0x12 => decodeRow w 0xFF0700FF 0x12000000 (.fneg (crvField w) (msField w) (rdField w) (raField w))
  | 0x13 => decodeRow w 0xFF07000F 0x13000000 (.fmul (crvField w) (msField w) (rdField w) (raField w) (rbField w))
  | 0x14 => decodeRow w 0xFF0700FF 0x14000000 (.fsqr (crvField w) (msField w) (rdField w) (raField w))
  | 0x15 => decodeRow w 0xFF07000F 0x15000000 (.montmul (crvField w) (msField w) (rdField w) (raField w) (rbField w))
  | 0x16 => decodeRow w 0xFF0700FF 0x16000000 (.tomont (crvField w) (msField w) (rdField w) (raField w))
  | 0x17 => decodeRow w 0xFF0700FF 0x17000000 (.frommont (crvField w) (msField w) (rdField w) (raField w))
  | 0x18 => decodeRow w 0xFF0700FF 0x18000000 (.finv (crvField w) (msField w) (rdField w) (raField w))
  | 0x19 => decodeRow w 0xFF07000F 0x19000000 (.fpow (crvField w) (msField w) (rdField w) (raField w) (rbField w))
  | 0x1A => decodeRow w 0xFF0700FF 0x1A000000 (.fred (crvField w) (msField w) (rdField w) (raField w))
  | 0x1B => decodeRow w 0xFFFF00FF 0x1B000000 (.fmov (rdField w) (raField w))
  | 0x1C => decodeRow w 0xFF070FF0 0x1C000000 (.fldc (crvField w) (msField w) (rdField w) (rcField w))
  | 0x20 => decodeRow w 0xFF0FF8FF 0x20000000 (.pchk (crvField w) (paField w))
  | 0x21 => decodeRow w 0xFF0F888F 0x21000000 (.padd (crvField w) (pdField w) (paField w) (pbField w))
  | 0x22 => decodeRow w 0xFF0F88FF 0x22000000 (.pdbl (crvField w) (pdField w) (paField w))
  | 0x23 => decodeRow w 0xFF0F8FF0 0x23000000 (.pldc (crvField w) (pdField w) (rcField w))
  | 0x28 =>
    if w &&& 0xFF0D880F = 0x28000000 then .ok (.smul (crvField w) (rkField w) (pdField w) (paField w) (rbField w))
    else decodeRow w 0xFF0D8F0F 0x28040000 (.smulG (crvField w) (rkField w) (pdField w) (rbField w))
  | 0x29 =>
    if w &&& 0xFF0D000F = 0x29000000 then .ok (.smulx (crvField w) (rkField w) (rdField w) (raField w) (rbField w))
    else decodeRow w 0xFF0D0F0F 0x29040000 (.smulxG (crvField w) (rkField w) (rdField w) (rbField w))
  | 0x40 => decodeRow w 0xFF00FFFF 0x40000000 (.keccakp (modeField w))
  | 0x41 => decodeSpinit (modeField w) (lenField w)
  | 0x42 => decodeRow w 0xFFFF0000 0x42000000 (.spabs (lenField w))
  | 0x43 => decodeRow w 0xFFFFFFFF 0x43000000 .spfin
  | 0x44 => decodeRow w 0xFFFF0000 0x44000000 (.spsqz (lenField w))
  | 0x45 => decodeRow w 0xFFFFFFFF 0x45000000 .spdig
  | 0x50 => decodeRow w 0xFF00FFFF 0x50000000 (.b2init (modeField w))
  | 0x51 => decodeRow w 0xFFFE0000 0x51000000 (.b2comp (w.getLsbD 16) (lenField w))
  | 0x58 => decodeRow w 0xFFFF0000 0x58000000 (.ghmul (lenField w))
  | 0x60 => decodeRow w 0xFF00FFFF 0x60000000 (.sipinit (modeField w))
  | 0x61 => decodeRow w 0xFFFF0000 0x61000000 (.sipblk (lenField w))
  | 0x62 => decodeRow w 0xFFFF0000 0x62000000 (.sipfin (lenField w))
  | _ => .error .unassignedOpcode

/-- The instruction that the decoder reads from the `nbits` bits `w`, numbered as the opcode table
numbers them; bits above `nbits` are 0. Every command is one 32-bit bus word (30_encoding.md R80),
so nothing has to be laid out in bytes. -/
def decodeTableWord (nbits w : Nat) : Option Instr :=
  (decode (BitVec.ofNat 32 (w % 2 ^ nbits))).toOption

/-! ### The encoder (30_encoding.md R81, formats P and H) -/

/-- A four-bit field. -/
def nibble (r : Fin 16) : BitVec 4 := BitVec.ofFin r

/-- A point register number in a four-bit field: bit 3 is 0 (30_encoding.md R83). -/
def pointNibble (j : PReg) : BitVec 4 := 0#1 ++ (BitVec.ofFin j : BitVec 3)

/-- Format P: `OPC CRV MS G RK Z16 RD RA RB RC` (30_encoding.md R81). -/
def formatP (opc : BitVec 8) (crv : BitVec 4) (ms g rk : Bool) (rd ra rb rc : BitVec 4) : Word :=
  opc ++ crv ++ BitVec.ofBool ms ++ BitVec.ofBool g ++ BitVec.ofBool rk ++ 0#1 ++ rd ++ ra ++ rb ++ rc

/-- Format H: `OPC MODE LEN` (30_encoding.md R81). -/
def formatH (opc mode : BitVec 8) (len : BitVec 16) : Word := opc ++ mode ++ len

/-- The command word of an instruction: unused fields are 0 (30_encoding.md R83, R85). -/
def encode : Instr → Word
  | .nop => formatP 0x00 0 false false false 0 0 0 0
  | .zeroize => formatP 0x01 0 false false false 0 0 0 0
  | .fadd crv ms rd ra rb => formatP 0x10 (nibble crv) ms false false (nibble rd) (nibble ra) (nibble rb) 0
  | .fsub crv ms rd ra rb => formatP 0x11 (nibble crv) ms false false (nibble rd) (nibble ra) (nibble rb) 0
  | .fneg crv ms rd ra => formatP 0x12 (nibble crv) ms false false (nibble rd) (nibble ra) 0 0
  | .fmul crv ms rd ra rb => formatP 0x13 (nibble crv) ms false false (nibble rd) (nibble ra) (nibble rb) 0
  | .fsqr crv ms rd ra => formatP 0x14 (nibble crv) ms false false (nibble rd) (nibble ra) 0 0
  | .montmul crv ms rd ra rb => formatP 0x15 (nibble crv) ms false false (nibble rd) (nibble ra) (nibble rb) 0
  | .tomont crv ms rd ra => formatP 0x16 (nibble crv) ms false false (nibble rd) (nibble ra) 0 0
  | .frommont crv ms rd ra => formatP 0x17 (nibble crv) ms false false (nibble rd) (nibble ra) 0 0
  | .finv crv ms rd ra => formatP 0x18 (nibble crv) ms false false (nibble rd) (nibble ra) 0 0
  | .fpow crv ms rd ra rb => formatP 0x19 (nibble crv) ms false false (nibble rd) (nibble ra) (nibble rb) 0
  | .fred crv ms rd ra => formatP 0x1A (nibble crv) ms false false (nibble rd) (nibble ra) 0 0
  | .fmov rd ra => formatP 0x1B 0 false false false (nibble rd) (nibble ra) 0 0
  | .fldc crv ms rd rc => formatP 0x1C (nibble crv) ms false false (nibble rd) 0 0 (nibble rc)
  | .pchk crv ra => formatP 0x20 (nibble crv) false false false 0 (pointNibble ra) 0 0
  | .padd crv rd ra rb =>
    formatP 0x21 (nibble crv) false false false (pointNibble rd) (pointNibble ra) (pointNibble rb) 0
  | .pdbl crv rd ra => formatP 0x22 (nibble crv) false false false (pointNibble rd) (pointNibble ra) 0 0
  | .pldc crv rd rc => formatP 0x23 (nibble crv) false false false (pointNibble rd) 0 0 (nibble rc)
  | .smul crv rk rd ra rb =>
    formatP 0x28 (nibble crv) false false rk (pointNibble rd) (pointNibble ra) (nibble rb) 0
  | .smulG crv rk rd rb => formatP 0x28 (nibble crv) false true rk (pointNibble rd) 0 (nibble rb) 0
  | .smulx crv rk rd ra rb => formatP 0x29 (nibble crv) false false rk (nibble rd) (nibble ra) (nibble rb) 0
  | .smulxG crv rk rd rb => formatP 0x29 (nibble crv) false true rk (nibble rd) 0 (nibble rb) 0
  | .keccakp mode => formatH 0x40 mode 0
  | .spinit mode len => formatH 0x41 mode len
  | .spabs len => formatH 0x42 0 len
  | .spfin => formatH 0x43 0 0
  | .spsqz len => formatH 0x44 0 len
  | .spdig => formatH 0x45 0 0
  | .b2init mode => formatH 0x50 mode 0
  | .b2comp final len => formatH 0x51 (0#7 ++ BitVec.ofBool final) len
  | .ghmul len => formatH 0x58 0 len
  | .sipinit mode => formatH 0x60 mode 0
  | .sipblk len => formatH 0x61 0 len
  | .sipfin len => formatH 0x62 0 len

end Sys2Proof
end

