-- ==== Sys2Proof/Machine/Bytes.lean ====
section
/-! DEFINITION. Byte strings and their integers (00_scope.md R13). -/

namespace Sys2Proof.Machine

/-- `LE(b)`: the little-endian integer of a byte string (00_scope.md R13). -/
def leNat : List Byte → Nat
  | [] => 0
  | b :: bs => b.toNat + 256 * leNat bs

/-- `le_bytes(v, k)`: the `k`-byte string whose `LE` is `v mod 256^k` (00_scope.md R13). -/
def leBytes (v : Nat) : Nat → List Byte
  | 0 => []
  | k + 1 => BitVec.ofNat 8 v :: leBytes (v / 256) k

/-- `BE(b)`: the big-endian integer of a byte string (00_scope.md R13). -/
def beNat (bs : List Byte) : Nat := leNat bs.reverse

/-- `be_bytes(v, k)` (00_scope.md R13). -/
def beBytes (v k : Nat) : List Byte := (leBytes v k).reverse

/-- The `w`-bit word `LE(bs[off .. off + k - 1])` of a byte string. -/
def leWordAt (w : Nat) (bs : List Byte) (off k : Nat) : BitVec w :=
  BitVec.ofNat w (leNat ((bs.drop off).take k))

end Sys2Proof.Machine
end

