-- ==== Sys2Proof/Machine/State.lean ====
section
/-! DEFINITION. The state of CORE (10_state.md R21), the reasons a command can fail, and the state
after reset (10_state.md R42). -/

namespace Sys2Proof.Machine

/-- The error kinds that `ERRCODE` reports (60_exceptions.md R311). -/
inductive ErrorKind where
  | invalidLength
  | invalidPoint
  | invalidScalar
  | invalidOperand
  | invalidParameter
  /-- Kept for host software; no command raises it (60_exceptions.md R313). -/
  | verificationFailed
  | invalidState
  | illegalCommand
  deriving DecidableEq, Repr

/-- The check that ended a command, in the order of the checks (60_exceptions.md R318). Software sees
only the kind it maps to; which check it was decides nothing but the latency (log 9). -/
inductive Failure where
  /-- Step 1: the word spells no command. -/
  | illegalCommand
  /-- Step 2: a reserved value of a field of the word. -/
  | reservedValue
  /-- Step 3: `KIND` or `PHASE` of the context. -/
  | wrongState
  /-- Step 4: the context header or the BLAKE2 parameter block. -/
  | badHeader
  /-- Step 5: SPSQZ of length 0, SPDIG on a context without a digest length. -/
  | zeroLength
  /-- Step 6: `LEN` too large, or not a multiple of 8 for SIPBLK. -/
  | badLength
  /-- Step 7: `F[RA]` is not below the modulus. -/
  | operandA
  /-- Step 7: `P[RA]`, or the u-coordinate of SMULX, is not valid. -/
  | pointA
  /-- Step 8: `F[RB]` is not below the modulus. -/
  | operandB
  /-- Step 8: `P[RB]` is not valid. -/
  | pointB
  /-- Step 8: the scalar is `2^(64 L)` or more. -/
  | scalarWidth
  /-- Step 8: the scalar is outside `[1, n-1]` and `RK = 1`. -/
  | scalarRange
  /-- Step 9: FINV of 0. -/
  | inverseOfZero
  deriving DecidableEq, Repr

/-- Reasons the machine stops. There is none: an error of a command is a completion
(60_exceptions.md R316) and a bus error is a reply (20_memory.md R58), so nothing in the spec stops
CORE (log 8). A closed type without constructors says exactly that. -/
inductive Fault where
  deriving DecidableEq, Repr

/-- Reasons an instruction gets no meaning. -/
inductive Refusal where
  /-- Raised by an arm of `exec` whose instruction has no meaning yet; safe. No arm does. -/
  | notModelled (mnemonic : String)
  deriving DecidableEq, Repr

/-- The two byte buffers of the window in one list of cells, keyed by window offset: `CTX` at
0x100 to 0x1FF, `DAT` at 0x200 to 0x2FF (20_memory.md R51; log 3). Addresses rise strictly and no
cell holds 0, the value every byte has after reset (10_state.md R42). -/
abbrev Memory := List Host.Cell

/-- The data state `(F, PINF, CTX, DAT)`, all that a command reads or writes (20_memory.md R63). -/
structure Data where
  /-- `F[0..15]` (10_state.md R22). -/
  f    : Vector FieldWord 16
  /-- `PINF` (10_state.md R27). -/
  pinf : BitVec 8
  /-- `CTX` and `DAT` (10_state.md R33, R38). -/
  mem  : Memory
  deriving DecidableEq, Repr

/-- What the environment does between two steps of CORE (20_memory.md R64; log 1). -/
inductive Event where
  /-- A host read of `n` bytes at a window offset (20_memory.md R56). -/
  | read (offset : Int) (n : Nat)
  /-- A host write of `n` bytes at a window offset (20_memory.md R57). -/
  | write (offset : Int) (n : Nat) (v : Word)
  /-- The moment at which a command in flight completes (20_memory.md R63). -/
  | complete
  /-- The reset input (70_reset_and_hazards.md R351). -/
  | hardReset
  deriving DecidableEq, Repr

/-- The bus response to one host access (20_memory.md R56 to R58). -/
inductive Reply where
  /-- A read answered with this word. -/
  | value (v : Word)
  /-- A write answered `OK`. -/
  | ok
  /-- The access was refused and changed nothing. -/
  | busError
  deriving DecidableEq, Repr

/-- The complete architectural state (10_state.md R21), and the model's own view of the environment in
its last two fields (log 1). -/
structure State where
  /-- `F`, `PINF`, `CTX`, `DAT`. -/
  data    : Data
  /-- `CMDR` (10_state.md R26). -/
  cmdr    : Word
  /-- `STATUS.BUSY` (10_state.md R29). -/
  busy    : Bool
  /-- `STATUS.DONE` (10_state.md R29). -/
  done    : Bool
  /-- `STATUS.ERR` (10_state.md R29). -/
  err     : Bool
  /-- `STATUS.DROP` (10_state.md R29). -/
  drop    : Bool
  /-- `STATUS.HZD` (10_state.md R29). -/
  hzd     : Bool
  /-- `ERRCODE` (10_state.md R30). -/
  errcode : BitVec 4
  /-- `CTRL.IE` (10_state.md R31). -/
  ie      : Bool
  /-- The model's own: the environment's actions still to come, the next one first (log 1). -/
  inputs  : List Event
  /-- The model's own: the bus responses given so far, the newest first (log 1). -/
  replies : List Reply
  deriving DecidableEq, Repr

/-- The data state after reset and after ZEROIZE: all zero (10_state.md R42, 48_system.md R301). -/
def Data.zero : Data where
  f    := Vector.replicate 16 0
  pinf := 0
  mem  := []

/-- The state after reset (10_state.md R42), with an environment that does nothing (log 1). -/
def State.reset : State where
  data    := Data.zero
  cmdr    := 0
  busy    := false
  done    := false
  err     := false
  drop    := false
  hzd     := false
  errcode := 0
  ie      := false
  inputs  := []
  replies := []

end Sys2Proof.Machine
end

