-- ==== Sys2Proof/Machine/Ops.lean ====
section
/-! DEFINITION. The shared operations: the byte buffers, the register file, the completion of a
command, the taking of an error and the return from it, and reset. -/

namespace Sys2Proof.Machine

/-! ### The byte buffers (10_state.md R33, R38) -/

/-- What an unlisted byte reads as: 0, the reset value of `CTX` and `DAT` (10_state.md R42). -/
def unlistedByte : Byte := 0

/-- Read one byte at a window offset. -/
def Memory.read : Memory → Nat → Byte
  | [], _ => unlistedByte
  | (k, b) :: m, a => if k = a then b else Memory.read m a

/-- Write one byte at a window offset, keeping the canonical form: writing the byte an unlisted offset
reads as removes the cell. -/
def Memory.write : Memory → Nat → Byte → Memory
  | [], a, b => if b = unlistedByte then [] else [(a, b)]
  | (k, c) :: m, a, b =>
    if a < k then (if b = unlistedByte then (k, c) :: m else (a, b) :: (k, c) :: m)
    else if a = k then (if b = unlistedByte then m else (a, b) :: m)
    else (k, c) :: Memory.write m a b

/-- The first offset of `CTX` (20_memory.md R51). -/
def ctxBase : Nat := 0x100

/-- The first offset of `DAT` (20_memory.md R51). -/
def datBase : Nat := 0x200

/-- The first offset after `DAT` (20_memory.md R51). -/
def bufferEnd : Nat := 0x300

/-- The cells rise strictly from `lo`, lie in the buffers and hold no unlisted byte. -/
def Memory.canonicalFrom (lo : Nat) : Memory → Bool
  | [] => true
  | (a, b) :: m =>
    decide (lo ≤ a) && decide (a < bufferEnd) && decide (b ≠ unlistedByte) && Memory.canonicalFrom (a + 1) m

/-- The canonical form: equal buffers are equal lists (log 3). -/
def Memory.wf (m : Memory) : Bool := Memory.canonicalFrom ctxBase m

/-- The `n` bytes from a window offset on. -/
def Memory.readBytes (m : Memory) (a n : Nat) : List Byte :=
  (List.range n).map fun i => Memory.read m (a + i)

/-- Write a byte string from a window offset on. -/
def Memory.writeBytes : Memory → Nat → List Byte → Memory
  | m, _, [] => m
  | m, a, b :: bs => Memory.writeBytes (Memory.write m a b) (a + 1) bs

/-- `CTX[off .. off + n - 1]` (00_scope.md R14). -/
def readCtx (d : Data) (off n : Nat) : List Byte := Memory.readBytes d.mem (ctxBase + off) n

/-- `DAT[off .. off + n - 1]` (00_scope.md R14). -/
def readDat (d : Data) (off n : Nat) : List Byte := Memory.readBytes d.mem (datBase + off) n

/-- `CTX[i]` (00_scope.md R14). -/
def ctxByte (d : Data) (i : Nat) : Byte := Memory.read d.mem (ctxBase + i)

/-- `DAT[i]` (00_scope.md R14). -/
def datByte (d : Data) (i : Nat) : Byte := Memory.read d.mem (datBase + i)

/-- `CTX[off ..] <- bs` (00_scope.md R14). -/
def writeCtx (off : Nat) (bs : List Byte) (d : Data) : Data :=
  { d with mem := Memory.writeBytes d.mem (ctxBase + off) bs }

/-- `DAT[off ..] <- bs` (00_scope.md R14). -/
def writeDat (off : Nat) (bs : List Byte) (d : Data) : Data :=
  { d with mem := Memory.writeBytes d.mem (datBase + off) bs }

/-- `CTX[0..255] <- 0`. -/
def clearCtx (d : Data) : Data := writeCtx 0 (List.replicate 256 0) d

/-- `KIND` (10_state.md R33). -/
def ctxKind (d : Data) : Nat := (ctxByte d 254).toNat

/-- `PHASE` (10_state.md R33). -/
def ctxPhase (d : Data) : Nat := (ctxByte d 255).toNat

/-- `PHASE <- phase`. -/
def writePhase (phase : Byte) (d : Data) : Data := writeCtx 255 [phase] d

/-- `KIND <- kind ; PHASE <- phase`. -/
def writeKindPhase (kind phase : Byte) (d : Data) : Data := writeCtx 254 [kind, phase] d

/-! ### The register file (10_state.md R22, R24) -/

/-- `F[r]` as an unsigned integer (00_scope.md R14). -/
def readField (d : Data) (r : Fin 16) : Nat := d.f[r].toNat

/-- `F[r] <- v`, all 576 bits (00_scope.md R14, 40_field.md R131). -/
def writeField (r : Fin 16) (v : Nat) (d : Data) : Data :=
  { d with f := d.f.set r (BitVec.ofNat 576 v) }

/-- The register that holds the first coordinate of `P[j]`, `F[2j]` (10_state.md R24). -/
def xReg (j : Fin 8) : Fin 16 := ⟨2 * j.val, by omega⟩

/-- The register that holds the second coordinate of `P[j]`, `F[2j+1]` (10_state.md R24). -/
def yReg (j : Fin 8) : Fin 16 := ⟨2 * j.val + 1, by omega⟩

/-- `PINF[j]` (10_state.md R27). -/
def readPinf (d : Data) (j : Fin 8) : Bool := d.pinf.getLsbD j.val

/-- `PINF[j] <- v`. -/
def writePinf (j : Fin 8) (v : Bool) (d : Data) : Data :=
  { d with pinf := if v then d.pinf ||| (1#8 <<< j.val) else d.pinf &&& ~~~(1#8 <<< j.val) }

/-! ### Errors (60_exceptions.md R311, R316, R317) -/

/-- The code of an error kind in `ERRCODE` (60_exceptions.md R311). -/
def errorCode : ErrorKind → BitVec 4
  | .invalidLength => 1
  | .invalidPoint => 2
  | .invalidScalar => 3
  | .invalidOperand => 4
  | .invalidParameter => 5
  | .verificationFailed => 6
  | .invalidState => 7
  | .illegalCommand => 8

/-- The kind that each check reports (60_exceptions.md R311, R318). -/
def failureKind : Failure → ErrorKind
  | .illegalCommand => .illegalCommand
  | .reservedValue => .invalidParameter
  | .wrongState => .invalidState
  | .badHeader => .invalidParameter
  | .zeroLength => .invalidParameter
  | .badLength => .invalidLength
  | .operandA => .invalidOperand
  | .pointA => .invalidPoint
  | .operandB => .invalidOperand
  | .pointB => .invalidPoint
  | .scalarWidth => .invalidScalar
  | .scalarRange => .invalidScalar
  | .inverseOfZero => .invalidOperand

/-- A command ends with an error: these four pieces of state change and nothing else does
(60_exceptions.md R316). This is CORE's analogue of taking an exception. -/
def raiseError (k : ErrorKind) (s : State) : State :=
  { s with err := true, errcode := errorCode k, busy := false, done := true }

/-- The return from an error: `ERR` and `ERRCODE` are cleared together (60_exceptions.md R317,
10_state.md R29). -/
def clearError (s : State) : State := { s with err := false, errcode := 0 }

/-- `if not ok then raise f`. -/
def require (ok : Prop) [Decidable ok] (f : Failure) : Except Failure Unit :=
  if ok then .ok () else .error f

/-- The completion step of a command whose rule, evaluated on the frozen data state, gave `r`: all
writes together, or an error (20_memory.md R63). -/
def completeCommand (s : State) (r : Except Failure Data) : Host.Outcome State Fault Refusal :=
  match r with
  | .ok d => .next { s with data := d, busy := false, done := true }
  | .error f => .next (raiseError (failureKind f) s)

/-! ### Reset (70_reset_and_hazards.md R350 to R352) -/

/-- Hard and soft reset set the whole architectural state to its reset value; a command in flight is
discarded. The environment is not CORE's and stays (log 1, log 10). -/
def resetCore (s : State) : State :=
  { State.reset with inputs := s.inputs, replies := s.replies }

end Sys2Proof.Machine
end

