-- ==== Sys2Proof/Machine/Flags.lean ====
section
/-! DEFINITION. The flags. CORE has no arithmetic condition codes (10_state.md R28); its flags are the
five bits of `STATUS` (R29), `CTRL.IE` (R31), and the interrupt line computed from them
(60_exceptions.md R320). -/

namespace Sys2Proof.Machine

/-- What a read of `STATUS` returns (20_memory.md R56). -/
def statusWord (s : State) : Word :=
  0#27 ++ BitVec.ofBool s.hzd ++ BitVec.ofBool s.drop ++ BitVec.ofBool s.err ++ BitVec.ofBool s.done ++
    BitVec.ofBool s.busy

/-- A host write of `v` to `STATUS`: write-1-to-clear of bits 4 to 1; bit 0 and bits 31:5 are ignored
(10_state.md R29). -/
def writeStatus (v : Word) (s : State) : State :=
  let s := if v.getLsbD 1 then { s with done := false } else s
  let s := if v.getLsbD 2 then clearError s else s
  let s := if v.getLsbD 3 then { s with drop := false } else s
  if v.getLsbD 4 then { s with hzd := false } else s

/-- A host write of `v` to `CTRL`: bit 1 performs a soft reset and then bit 0 is ignored; otherwise
bit 0 is stored in `IE` (10_state.md R31, 70_reset_and_hazards.md R352). -/
def writeCtrl (v : Word) (s : State) : State :=
  if v.getLsbD 1 then resetCore s else { s with ie := v.getLsbD 0 }

/-- The interrupt line, a level (60_exceptions.md R320). -/
def State.irq (s : State) : Bool := s.ie && s.done

end Sys2Proof.Machine
end

