-- ==== Sys2Proof/Machine/Bus.lean ====
section
/-! DEFINITION. The host window: its map, reads, writes, and the submission of a command
(20_memory.md R50 to R62). -/

namespace Sys2Proof.Machine

/-- The value of the read-only register `ID` (10_state.md R32). -/
def idValue : Word := 0x4C430007

/-- A location of the window that answers an access (20_memory.md R51). -/
inductive Location where
  | id
  | cmd
  | status
  | errcode
  | ctrl
  | pinf
  /-- The word `CTX[i .. i+3]`. -/
  | ctx (i : Nat)
  /-- The word `DAT[i .. i+3]`. -/
  | dat (i : Nat)
  /-- Word `w` of field register `i` (20_memory.md R60). -/
  | field (i : Fin 16) (w : Fin 18)
  deriving DecidableEq, Repr

/-- The location of an aligned word offset inside the window; none for the reserved ones
(20_memory.md R51). -/
def locateWord (a : Nat) : Option Location :=
  if a = 0x000 then some .id
  else if a = 0x004 then some .cmd
  else if a = 0x008 then some .status
  else if a = 0x00C then some .errcode
  else if a = 0x010 then some .ctrl
  else if a = 0x014 then some .pinf
  else if 0x100 ≤ a ∧ a ≤ 0x1FC then some (.ctx (a - 0x100))
  else if 0x200 ≤ a ∧ a ≤ 0x2FC then some (.dat (a - 0x200))
  else if h : 0x400 ≤ a ∧ a < 0xC00 ∧ (a - 0x400) % 0x80 < 0x48 then
    some (.field ⟨(a - 0x400) / 0x80, by omega⟩ ⟨(a - 0x400) % 0x80 / 4, by omega⟩)
  else none

/-- The location an access reaches: only aligned 32-bit accesses inside the window reach one
(20_memory.md R54, R56, R57). `none` is `BusError`. -/
def locate (offset : Int) (n : Nat) : Option Location :=
  if n ≠ 4 ∨ offset % 4 ≠ 0 ∨ offset < 0 ∨ offset > 0xFFC then none
  else locateWord offset.toNat

/-- The locations that are frozen for the host while `BUSY = 1` (20_memory.md R51, R59). -/
def blockedWhileBusy : Location → Bool
  | .pinf | .ctx _ | .dat _ | .field _ _ => true
  | .id | .cmd | .status | .errcode | .ctrl => false

/-- Word `w` of a field register: bits `32w+31 : 32w` (20_memory.md R60). -/
def fieldWordAt (v : FieldWord) (w : Fin 18) : Word := v.extractLsb' (32 * w.val) 32

/-- A field register with its word `w` replaced; the other bits stay (20_memory.md R60). -/
def setFieldWordAt (v : FieldWord) (w : Fin 18) (x : Word) : FieldWord :=
  (v &&& ~~~((BitVec.allOnes 32).setWidth 576 <<< (32 * w.val))) ||| (x.setWidth 576 <<< (32 * w.val))

/-- The word a location holds (20_memory.md R56). -/
def readLocation (s : State) : Location → Word
  | .id => idValue
  | .cmd => s.cmdr
  | .status => statusWord s
  | .errcode => s.errcode.setWidth 32
  | .ctrl => (BitVec.ofBool s.ie).setWidth 32
  | .pinf => s.data.pinf.setWidth 32
  | .ctx i => leWordAt 32 (readCtx s.data i 4) 0 4
  | .dat i => leWordAt 32 (readDat s.data i 4) 0 4
  | .field i w => fieldWordAt s.data.f[i] w

/-- `MemRead(offset, n)`: the state after it and the bus response (20_memory.md R56, R58, R59). -/
def memRead (offset : Int) (n : Nat) (s : State) : State × Reply :=
  match locate offset n with
  | none => (s, .busError)
  | some l =>
    if blockedWhileBusy l && s.busy then ({ s with hzd := true }, .value 0)
    else (s, .value (readLocation s l))

/-- `submit(v)`: a command word is accepted, or dropped while a command runs or an error is pending
(20_memory.md R61, R62). Nothing is decoded here. -/
def submit (v : Word) (s : State) : State :=
  if s.busy || s.err then { s with drop := true }
  else { s with cmdr := v, busy := true, done := false }

/-- A write to a data location that is not blocked (20_memory.md R57). -/
def writeData (v : Word) (d : Data) : Location → Data
  | .pinf => { d with pinf := v.setWidth 8 }
  | .ctx i => writeCtx i (leBytes v.toNat 4) d
  | .dat i => writeDat i (leBytes v.toNat 4) d
  | .field i w => { d with f := d.f.set i (setFieldWordAt d.f[i] w v) }
  | .id | .cmd | .status | .errcode | .ctrl => d

/-- `MemWrite(offset, n, v)`: the state after it and the bus response (20_memory.md R57 to R59). -/
def memWrite (offset : Int) (n : Nat) (v : Word) (s : State) : State × Reply :=
  match locate offset n with
  | none => (s, .busError)
  | some .id => (s, .busError)
  | some .errcode => (s, .busError)
  | some .cmd => (submit v s, .ok)
  | some .status => (writeStatus v s, .ok)
  | some .ctrl => (writeCtrl v s, .ok)
  | some l => if s.busy then ({ s with hzd := true }, .ok) else ({ s with data := writeData v s.data l }, .ok)

/-- Record a bus response (log 1). -/
def recordReply (r : State × Reply) : State := { r.1 with replies := r.2 :: r.1.replies }

end Sys2Proof.Machine
end

