-- ==== Sys2Proof/Machine/Blake2.lean ====
section
/-! DEFINITION. The BLAKE2 compression function and the commands B2INIT, B2COMP (45_blake2.md R250 to
R257). BLAKE2b and BLAKE2s share one structure over the word width `w` (R250). -/

namespace Sys2Proof.Machine

/-- What distinguishes the two variants (45_blake2.md R250, R251). -/
structure Blake2 (w : Nat) where
  /-- Bytes of a word. -/
  wb     : Nat
  /-- Bytes of a message block. -/
  bs     : Nat
  rounds : Nat
  r1     : Nat
  r2     : Nat
  r3     : Nat
  r4     : Nat
  /-- The longest digest, and the longest key. -/
  dmax   : Nat
  iv     : List (BitVec w)

/-- BLAKE2b, `VAR = 0`. -/
def blake2b : Blake2 64 where
  wb     := 8
  bs     := 128
  rounds := 12
  r1     := 32
  r2     := 24
  r3     := 16
  r4     := 63
  dmax   := 64
  iv     :=
    [0x6A09E667F3BCC908, 0xBB67AE8584CAA73B, 0x3C6EF372FE94F82B, 0xA54FF53A5F1D36F1,
     0x510E527FADE682D1, 0x9B05688C2B3E6C1F, 0x1F83D9ABFB41BD6B, 0x5BE0CD19137E2179]

/-- BLAKE2s, `VAR = 1`. -/
def blake2s : Blake2 32 where
  wb     := 4
  bs     := 64
  rounds := 10
  r1     := 16
  r2     := 12
  r3     := 8
  r4     := 7
  dmax   := 32
  iv     :=
    [0x6A09E667, 0xBB67AE85, 0x3C6EF372, 0xA54FF53A, 0x510E527F, 0x9B05688C, 0x1F83D9AB, 0x5BE0CD19]

/-- The message schedule (45_blake2.md R252). -/
def sigmaTable : List (List Nat) :=
  [[0, 1, 2, 3, 4, 5, 6, 7, 8, 9, 10, 11, 12, 13, 14, 15],
   [14, 10, 4, 8, 9, 15, 13, 6, 1, 12, 0, 2, 11, 7, 5, 3],
   [11, 8, 12, 0, 5, 2, 15, 13, 10, 14, 3, 6, 7, 1, 9, 4],
   [7, 9, 3, 1, 13, 12, 11, 14, 2, 6, 5, 10, 4, 0, 15, 8],
   [9, 0, 5, 7, 2, 4, 10, 15, 14, 1, 11, 12, 6, 8, 3, 13],
   [2, 12, 6, 10, 0, 11, 8, 3, 4, 13, 7, 5, 15, 14, 1, 9],
   [12, 5, 1, 15, 14, 13, 4, 10, 0, 7, 6, 3, 9, 2, 8, 11],
   [13, 11, 7, 14, 12, 1, 3, 9, 5, 0, 15, 4, 8, 6, 2, 10],
   [6, 15, 14, 9, 11, 3, 0, 8, 12, 2, 13, 7, 1, 4, 10, 5],
   [10, 2, 8, 4, 7, 6, 1, 5, 15, 11, 9, 14, 3, 12, 13, 0]]

/-- Word `i` of a list of words. -/
def wordAt {w : Nat} (v : List (BitVec w)) (i : Nat) : BitVec w := v.getD i 0

/-- The mixing function `G` on the working vector (45_blake2.md R253). -/
def blake2G {w : Nat} (B : Blake2 w) (a b c d : Nat) (x y : BitVec w) (v : List (BitVec w)) :
    List (BitVec w) :=
  let va := wordAt v a + wordAt v b + x
  let vd := (wordAt v d ^^^ va).rotateRight B.r1
  let vc := wordAt v c + vd
  let vb := (wordAt v b ^^^ vc).rotateRight B.r2
  let va := va + vb + y
  let vd := (vd ^^^ va).rotateRight B.r3
  let vc := vc + vd
  let vb := (vb ^^^ vc).rotateRight B.r4
  (((v.set a va).set b vb).set c vc).set d vd

/-- One round: four columns, then four diagonals, in the order written (45_blake2.md R254). -/
def blake2Round {w : Nat} (B : Blake2 w) (m : List (BitVec w)) (v : List (BitVec w)) (r : Nat) :
    List (BitVec w) :=
  let s := sigmaTable.getD (r % 10) []
  let word := fun i => wordAt m (s.getD i 0)
  let v := blake2G B 0 4 8 12 (word 0) (word 1) v
  let v := blake2G B 1 5 9 13 (word 2) (word 3) v
  let v := blake2G B 2 6 10 14 (word 4) (word 5) v
  let v := blake2G B 3 7 11 15 (word 6) (word 7) v
  let v := blake2G B 0 5 10 15 (word 8) (word 9) v
  let v := blake2G B 1 6 11 12 (word 10) (word 11) v
  let v := blake2G B 2 7 8 13 (word 12) (word 13) v
  blake2G B 3 4 9 14 (word 14) (word 15) v

/-- The working vector before the rounds: `v[0..7] = h`, `v[8..15] = IV` with the counter and the
finalisation flag mixed in; the last-node flag is never set (45_blake2.md R254). -/
def blake2Start {w : Nat} (B : Blake2 w) (h : List (BitVec w)) (t : Nat) (final : Bool) : List (BitVec w) :=
  h ++
    [wordAt B.iv 0, wordAt B.iv 1, wordAt B.iv 2, wordAt B.iv 3,
     wordAt B.iv 4 ^^^ BitVec.ofNat w t,
     wordAt B.iv 5 ^^^ BitVec.ofNat w (t / 2 ^ w),
     if final then wordAt B.iv 6 ^^^ BitVec.allOnes w else wordAt B.iv 6,
     wordAt B.iv 7]

/-- `B2F(VAR, h, M, t, final)` (45_blake2.md R254). -/
def blake2F {w : Nat} (B : Blake2 w) (h : List (BitVec w)) (block : List Byte) (t : Nat) (final : Bool) :
    List (BitVec w) :=
  let m := (List.range 16).map fun i => leWordAt w block (B.wb * i) B.wb
  let v := (List.range B.rounds).foldl (blake2Round B m) (blake2Start B h t final)
  (List.range 8).map fun i => wordAt h i ^^^ wordAt v i ^^^ wordAt v (i + 8)

/-- The bytes of the chaining value (10_state.md R35). -/
def blake2Bytes {w : Nat} (B : Blake2 w) (h : List (BitVec w)) : List Byte :=
  h.flatMap fun v => leBytes v.toNat B.wb

/-- B2INIT for one variant: the parameter block of `DAT` becomes a fresh context (45_blake2.md R255,
R256). A parameter block has as many bytes as the longest digest (R250). -/
def blake2Init {w : Nat} (B : Blake2 w) (var : Byte) (d : Data) : Except Failure Data := do
  require (1 ≤ (datByte d 0).toNat ∧ (datByte d 0).toNat ≤ B.dmax) .badHeader
  require ((datByte d 1).toNat ≤ B.dmax) .badHeader
  let block := readDat d 0 B.dmax
  let h := (List.range 8).map fun i => wordAt B.iv i ^^^ leWordAt w block (B.wb * i) B.wb
  return writeKindPhase 2 1 (writeCtx 80 [var, datByte d 0] (writeCtx 0 (blake2Bytes B h) (clearCtx d)))

/-- B2INIT (45_blake2.md R256). -/
def execB2init (mode : BitVec 8) (s : State) : Host.Outcome State Fault Refusal :=
  completeCommand s do
    require (mode.toNat ≤ 1) .reservedValue
    if mode = 0 then blake2Init blake2b 0 s.data else blake2Init blake2s 1 s.data

/-- B2COMP for one variant, from the check of `DLEN` on (45_blake2.md R257). -/
def blake2Compress {w : Nat} (B : Blake2 w) (final : Bool) (len : BitVec 16) (d : Data) :
    Except Failure Data := do
  require (1 ≤ (ctxByte d 81).toNat ∧ (ctxByte d 81).toNat ≤ B.dmax) .badHeader
  require (len.toNat ≤ B.bs) .badLength
  let block := readDat d 0 len.toNat ++ List.replicate (B.bs - len.toNat) 0
  let t := (leNat (readCtx d 64 (2 * B.wb)) + len.toNat) % 2 ^ (2 * w)
  let h := (List.range 8).map fun i => leWordAt w (readCtx d (B.wb * i) B.wb) 0 B.wb
  let d := writeCtx 64 (leBytes t (2 * B.wb)) (writeCtx 0 (blake2Bytes B (blake2F B h block t final)) d)
  return if final then writePhase 3 d else d

/-- B2COMP and B2COMP.FINAL (45_blake2.md R257). -/
def execB2comp (final : Bool) (len : BitVec 16) (s : State) : Host.Outcome State Fault Refusal :=
  completeCommand s do
    require (ctxKind s.data = 2 ∧ ctxPhase s.data = 1) .wrongState
    require ((ctxByte s.data 80).toNat ≤ 1) .badHeader
    if ctxByte s.data 80 = 0 then blake2Compress blake2b final len s.data
    else blake2Compress blake2s final len s.data

end Sys2Proof.Machine
end

