-- ==== Sys2Proof/Machine/Curves.lean ====
section
/-! DEFINITION. The curve parameter ROM (41_curves.md R140 to R148, 00_scope.md R9). -/

namespace Sys2Proof.Machine

/-- The family of a curve decides its equation, identity and addition law (41_curves.md R149). The
Montgomery curves carry the ladder constant `a24 = (A - 2) / 4` (R140). -/
inductive Family where
  | weierstrass
  | montgomery (a24 : Nat)
  | edwards
  deriving DecidableEq, Repr

/-- One entry of the ROM (41_curves.md R140): `limbs` is `L` of 00_scope.md R9. -/
structure CurveParams where
  fam   : Family
  limbs : Nat
  p     : Nat
  ca    : Nat
  cb    : Nat
  gx    : Nat
  gy    : Nat
  n     : Nat
  h     : Nat
  deriving DecidableEq, Repr

/-- secp256k1 (41_curves.md R141). -/
def secp256k1Params : CurveParams where
  fam := .weierstrass
  limbs := 4
  p := 0xFFFFFFFFFFFFFFFFFFFFFFFFFFFFFFFFFFFFFFFFFFFFFFFFFFFFFFFEFFFFFC2F
  ca := 0x0
  cb := 0x7
  gx := 0x79BE667EF9DCBBAC55A06295CE870B07029BFCDB2DCE28D959F2815B16F81798
  gy := 0x483ADA7726A3C4655DA4FBFC0E1108A8FD17B448A68554199C47D08FFB10D4B8
  n := 0xFFFFFFFFFFFFFFFFFFFFFFFFFFFFFFFEBAAEDCE6AF48A03BBFD25E8CD0364141
  h := 1

/-- P-256 (41_curves.md R142). -/
def p256Params : CurveParams where
  fam := .weierstrass
  limbs := 4
  p := 0xFFFFFFFF00000001000000000000000000000000FFFFFFFFFFFFFFFFFFFFFFFF
  ca := 0xFFFFFFFF00000001000000000000000000000000FFFFFFFFFFFFFFFFFFFFFFFC
  cb := 0x5AC635D8AA3A93E7B3EBBD55769886BC651D06B0CC53B0F63BCE3C3E27D2604B
  gx := 0x6B17D1F2E12C4247F8BCE6E563A440F277037D812DEB33A0F4A13945D898C296
  gy := 0x4FE342E2FE1A7F9B8EE7EB4A7C0F9E162BCE33576B315ECECBB6406837BF51F5
  n := 0xFFFFFFFF00000000FFFFFFFFFFFFFFFFBCE6FAADA7179E84F3B9CAC2FC632551
  h := 1

/-- P-384 (41_curves.md R143). -/
def p384Params : CurveParams where
  fam := .weierstrass
  limbs := 6
  p := 0xFFFFFFFFFFFFFFFFFFFFFFFFFFFFFFFFFFFFFFFFFFFFFFFFFFFFFFFFFFFFFFFEFFFFFFFF0000000000000000FFFFFFFF
  ca := 0xFFFFFFFFFFFFFFFFFFFFFFFFFFFFFFFFFFFFFFFFFFFFFFFFFFFFFFFFFFFFFFFEFFFFFFFF0000000000000000FFFFFFFC
  cb := 0xB3312FA7E23EE7E4988E056BE3F82D19181D9C6EFE8141120314088F5013875AC656398D8A2ED19D2A85C8EDD3EC2AEF
  gx := 0xAA87CA22BE8B05378EB1C71EF320AD746E1D3B628BA79B9859F741E082542A385502F25DBF55296C3A545E3872760AB7
  gy := 0x3617DE4A96262C6F5D9E98BF9292DC29F8F41DBD289A147CE9DA3113B5F0B8C00A60B1CE1D7E819D7A431D7C90EA0E5F
  n := 0xFFFFFFFFFFFFFFFFFFFFFFFFFFFFFFFFFFFFFFFFFFFFFFFFC7634D81F4372DDF581A0DB248B0A77AECEC196ACCC52973
  h := 1

/-- P-521 (41_curves.md R144). -/
def p521Params : CurveParams where
  fam := .weierstrass
  limbs := 9
  p := 0x1FFFFFFFFFFFFFFFFFFFFFFFFFFFFFFFFFFFFFFFFFFFFFFFFFFFFFFFFFFFFFFFFFFFFFFFFFFFFFFFFFFFFFFFFFFFFFFFFFFFFFFFFFFFFFFFFFFFFFFFFFFFFFFFFFF
  ca := 0x1FFFFFFFFFFFFFFFFFFFFFFFFFFFFFFFFFFFFFFFFFFFFFFFFFFFFFFFFFFFFFFFFFFFFFFFFFFFFFFFFFFFFFFFFFFFFFFFFFFFFFFFFFFFFFFFFFFFFFFFFFFFFFFFFFC
  cb := 0x51953EB9618E1C9A1F929A21A0B68540EEA2DA725B99B315F3B8B489918EF109E156193951EC7E937B1652C0BD3BB1BF073573DF883D2C34F1EF451FD46B503F00
  gx := 0xC6858E06B70404E9CD9E3ECB662395B4429C648139053FB521F828AF606B4D3DBAA14B5E77EFE75928FE1DC127A2FFA8DE3348B3C1856A429BF97E7E31C2E5BD66
  gy := 0x11839296A789A3BC0045C8A5FB42C7D1BD998F54449579B446817AFBD17273E662C97EE72995EF42640C550B9013FAD0761353C7086A272C24088BE94769FD16650
  n := 0x1FFFFFFFFFFFFFFFFFFFFFFFFFFFFFFFFFFFFFFFFFFFFFFFFFFFFFFFFFFFFFFFFFA51868783BF2F966B7FCC0148F709A5D03BB5C9B8899C47AEBB6FB71E91386409
  h := 1

/-- Curve25519 (41_curves.md R145). -/
def curve25519Params : CurveParams where
  fam := .montgomery 121665
  limbs := 4
  p := 0x7FFFFFFFFFFFFFFFFFFFFFFFFFFFFFFFFFFFFFFFFFFFFFFFFFFFFFFFFFFFFFED
  ca := 0x76D06
  cb := 0x1
  gx := 0x9
  gy := 0x20AE19A1B8A086B4E01EDD2C7748D14C923D4D7E6D7C61B229E9C5A27ECED3D9
  n := 0x1000000000000000000000000000000014DEF9DEA2F79CD65812631A5CF5D3ED
  h := 8

/-- Curve448 (41_curves.md R146). -/
def curve448Params : CurveParams where
  fam := .montgomery 39081
  limbs := 7
  p := 0xFFFFFFFFFFFFFFFFFFFFFFFFFFFFFFFFFFFFFFFFFFFFFFFFFFFFFFFEFFFFFFFFFFFFFFFFFFFFFFFFFFFFFFFFFFFFFFFFFFFFFFFFFFFFFFFF
  ca := 0x262A6
  cb := 0x1
  gx := 0x5
  gy := 0x7D235D1295F5B1F66C98AB6E58326FCECBAE5D34F55545D060F75DC28DF3F6EDB8027E2346430D211312C4B150677AF76FD7223D457B5B1A
  n := 0x3FFFFFFFFFFFFFFFFFFFFFFFFFFFFFFFFFFFFFFFFFFFFFFFFFFFFFFF7CCA23E9C44EDB49AED63690216CC2728DC58F552378C292AB5844F3
  h := 4

/-- Ed25519 (41_curves.md R147). -/
def ed25519Params : CurveParams where
  fam := .edwards
  limbs := 4
  p := 0x7FFFFFFFFFFFFFFFFFFFFFFFFFFFFFFFFFFFFFFFFFFFFFFFFFFFFFFFFFFFFFED
  ca := 0x7FFFFFFFFFFFFFFFFFFFFFFFFFFFFFFFFFFFFFFFFFFFFFFFFFFFFFFFFFFFFFEC
  cb := 0x52036CEE2B6FFE738CC740797779E89800700A4D4141D8AB75EB4DCA135978A3
  gx := 0x216936D3CD6E53FEC0A4E231FDD6DC5C692CC7609525A7B2C9562D608F25D51A
  gy := 0x6666666666666666666666666666666666666666666666666666666666666658
  n := 0x1000000000000000000000000000000014DEF9DEA2F79CD65812631A5CF5D3ED
  h := 8

/-- Ed448 (41_curves.md R148). -/
def ed448Params : CurveParams where
  fam := .edwards
  limbs := 7
  p := 0xFFFFFFFFFFFFFFFFFFFFFFFFFFFFFFFFFFFFFFFFFFFFFFFFFFFFFFFEFFFFFFFFFFFFFFFFFFFFFFFFFFFFFFFFFFFFFFFFFFFFFFFFFFFFFFFF
  ca := 0x1
  cb := 0xFFFFFFFFFFFFFFFFFFFFFFFFFFFFFFFFFFFFFFFFFFFFFFFFFFFFFFFEFFFFFFFFFFFFFFFFFFFFFFFFFFFFFFFFFFFFFFFFFFFFFFFFFFFF6756
  gx := 0x4F1970C66BED0DED221D15A622BF36DA9E146570470F1767EA6DE324A3D3A46412AE1AF72AB66511433B80E18B00938E2626A82BC70CC05E
  gy := 0x693F46716EB6BC248876203756C9C7624BEA73736CA3984087789C1E05A0C2D73AD3FF1CE67C39C4FDBD132C4ED7C8AD9808795BF230FA14
  n := 0x3FFFFFFFFFFFFFFFFFFFFFFFFFFFFFFFFFFFFFFFFFFFFFFFFFFFFFFF7CCA23E9C44EDB49AED63690216CC2728DC58F552378C292AB5844F3
  h := 4

/-- The entry that the `CRV` field selects; 8 to 15 select nothing (41_curves.md R140, 00_scope.md R9). -/
def curveAt (crv : Fin 16) : Option CurveParams :=
  match crv.val with
  | 0 => some secp256k1Params
  | 1 => some p256Params
  | 2 => some p384Params
  | 3 => some p521Params
  | 4 => some curve25519Params
  | 5 => some curve448Params
  | 6 => some ed25519Params
  | 7 => some ed448Params
  | _ => none

end Sys2Proof.Machine
end

