-- ==== Sys2Proof/Machine/Modular.lean ====
section
/-! DEFINITION. Modular arithmetic on unbounded integers (00_scope.md R11). -/

namespace Sys2Proof.Machine

/-- `a mod m` for an integer `a`, also a negative one: the `r` with `0 <= r < m` (00_scope.md R11). -/
def imod (a : Int) (m : Nat) : Nat := (a % (m : Int)).toNat

/-- `a ^ e mod m` for an exponent below `2 ^ bits`, one square and at most one product per exponent bit
(40_field.md R124; that the value is `a ^ e % m` is `powBits_eq`). -/
def powBits (m a : Nat) : Nat → Nat → Nat
  | 0, _ => 1 % m
  | bits + 1, e =>
    let r := powBits m a bits (e / 2)
    if e % 2 = 1 then r * r % m * a % m else r * r % m

/-- `a ^ e mod m`, all 576 bits of the exponent (40_field.md R124). -/
def powMod (m a e : Nat) : Nat := powBits m a 576 e

/-- The loop of the extended Euclidean algorithm: `t0` and `t1` are the residues whose product with the
first argument of `invMod` is `r0` and `r1` modulo `m`. -/
def euclid (m : Nat) : Nat → Nat → Nat → Nat → Nat → Nat
  | 0, _, _, t0, _ => t0
  | fuel + 1, r0, r1, t0, t1 =>
    if r1 = 0 then t0 else euclid m fuel r1 (r0 % r1) t1 (imod ((t0 : Int) - (r0 / r1 * t1 : Nat)) m)

/-- `inv(a, m)`: the `b` with `b < m` and `a * b mod m = 1`, for `a` coprime to `m` (00_scope.md R11). The
algorithm is not visible (40_field.md R129); this is LC's first choice, the extended Euclidean one.
A value below `2^576` needs fewer than 1200 of its steps (log 4). -/
def invMod (a m : Nat) : Nat := euclid m 1200 m (a % m) 0 1

/-- `MontMul(a, b) = a * b * inv(R mod m, m) mod m` (40_field.md R128). -/
def montMul (m radix a b : Nat) : Nat := a * b * invMod (radix % m) m % m

end Sys2Proof.Machine
end

