-- ==== Sys2Proof/Machine/GroupLaw.lean ====
section
/-! DEFINITION. Points, validity, the three group laws, scalar multiples and the x-only ladder
(41_curves.md R149 to R157, 43_scalar.md R196). Intermediate values are integers; each coordinate is
reduced modulo `p` once, where it is written. -/

namespace Sys2Proof.Machine

/-- A mathematical point (41_curves.md R156). -/
inductive Point where
  /-- The point at infinity, the identity of the Weierstrass and Montgomery families. -/
  | inf
  | affine (x y : Nat)
  deriving DecidableEq, Repr

/-- `identity(c)` (41_curves.md R156). -/
def identity (c : CurveParams) : Point :=
  match c.fam with
  | .weierstrass => .inf
  | .montgomery _ => .inf
  | .edwards => .affine 0 1

/-- The curve equation modulo `p` (41_curves.md R149). -/
def onCurve (c : CurveParams) (x y : Nat) : Bool :=
  match c.fam with
  | .weierstrass => decide (y ^ 2 % c.p = (x ^ 3 + c.ca * x + c.cb) % c.p)
  | .montgomery _ => decide (y ^ 2 % c.p = (x ^ 3 + c.ca * x ^ 2 + x) % c.p)
  | .edwards => decide ((c.ca * x ^ 2 + y ^ 2) % c.p = (1 + c.cb * x ^ 2 * y ^ 2) % c.p)

/-- `valid(c, P)` (41_curves.md R150). There is no subgroup check. -/
def validPoint (c : CurveParams) (P : Point) : Bool :=
  match P with
  | .inf => decide (c.fam ≠ .edwards)
  | .affine x y => decide (x < c.p) && decide (y < c.p) && onCurve c x y

/-- The chord through two points, or the tangent at one, with slope `num / den`: the third point of
`x3 = lam^2 - shift - x1 - x2`, `y3 = lam*(x1 - x3) - y1` (41_curves.md R153, R154; `shift` is 0 or `A`). -/
def chord (p : Nat) (shift : Nat) (x1 y1 x2 : Nat) (num : Int) (den : Int) : Point :=
  let lam : Nat := imod (num * (invMod (imod den p) p : Int)) p
  let x3 : Nat := imod ((lam : Int) ^ 2 - shift - x1 - x2) p
  .affine x3 (imod ((lam : Int) * ((x1 : Int) - x3) - y1) p)

/-- `add_W`, the short-Weierstrass law (41_curves.md R153). -/
def addW (c : CurveParams) (P Q : Point) : Point :=
  match P, Q with
  | .inf, Q => Q
  | P, .inf => P
  | .affine x1 y1, .affine x2 y2 =>
    if x1 = x2 then
      if (y1 + y2) % c.p = 0 then .inf
      else chord c.p 0 x1 y1 x2 (3 * (x1 : Int) ^ 2 + c.ca) (2 * y1)
    else chord c.p 0 x1 y1 x2 ((y2 : Int) - y1) ((x2 : Int) - x1)

/-- `add_M`, the Montgomery-curve law on full points (41_curves.md R154). -/
def addM (c : CurveParams) (P Q : Point) : Point :=
  match P, Q with
  | .inf, Q => Q
  | P, .inf => P
  | .affine x1 y1, .affine x2 y2 =>
    if x1 = x2 then
      if (y1 + y2) % c.p = 0 then .inf
      else chord c.p c.ca x1 y1 x2 (3 * (x1 : Int) ^ 2 + 2 * c.ca * x1 + 1) (2 * y1)
    else chord c.p c.ca x1 y1 x2 ((y2 : Int) - y1) ((x2 : Int) - x1)

/-- `num / den` modulo `p`. -/
def divMod (num den : Int) (p : Nat) : Nat := imod (num * (invMod (imod den p) p : Int)) p

/-- `add_E`, the twisted-Edwards law, complete on both Edwards curves (41_curves.md R155). The token `INF`
is no point of this family (R156) and no operand of it is ever read as `INF` (R151). -/
def addE (c : CurveParams) (P Q : Point) : Point :=
  match P, Q with
  | .inf, Q => Q
  | P, .inf => P
  | .affine x1 y1, .affine x2 y2 =>
    let t : Nat := c.cb * x1 * x2 * y1 * y2 % c.p
    .affine (divMod ((x1 : Int) * y2 + y1 * x2) (1 + t) c.p)
      (divMod ((y1 : Int) * y2 - c.ca * x1 * x2) (1 - (t : Int)) c.p)

/-- `add(c, P, Q)` (41_curves.md R157). -/
def addPoint (c : CurveParams) (P Q : Point) : Point :=
  match c.fam with
  | .weierstrass => addW c P Q
  | .montgomery _ => addM c P Q
  | .edwards => addE c P Q

/-- `dbl(c, P) = add(c, P, P)` (41_curves.md R157). -/
def dblPoint (c : CurveParams) (P : Point) : Point := addPoint c P P

/-- `neg(c, P)`, mathematics only: no command computes it (41_curves.md R157). -/
def negPoint (c : CurveParams) (P : Point) : Point :=
  match P with
  | .inf => .inf
  | .affine x y =>
    match c.fam with
    | .weierstrass => .affine x ((c.p - y) % c.p)
    | .montgomery _ => .affine x ((c.p - y) % c.p)
    | .edwards => .affine ((c.p - x) % c.p) y

/-- `mul(c, k, P)` as 41_curves.md R157 defines it: `k` additions. It is the reference for `mulBits`. -/
def mulSpec (c : CurveParams) (P : Point) : Nat → Point
  | 0 => identity c
  | k + 1 => addPoint c (mulSpec c P k) P

/-- `mul(c, k, P)` for `k` below `2 ^ bits`, by doubling and adding from the top bit down. The value, not
the algorithm, is architectural (43_scalar.md R193); it is the value of `mulSpec` because the law is
associative (41_curves.md R158; log 5). -/
def mulBits (c : CurveParams) (P : Point) : Nat → Nat → Point
  | 0, _ => identity c
  | bits + 1, k =>
    let D := dblPoint c (mulBits c P bits (k / 2))
    if k % 2 = 1 then addPoint c D P else D

/-- `mul(c, k, P)` for a scalar the command accepts: all `64 L` bits (43_scalar.md R192, R199). -/
def mulPoint (c : CurveParams) (k : Nat) (P : Point) : Point := mulBits c P (64 * c.limbs) k

/-! ### The x-only ladder (43_scalar.md R196) -/

/-- The variables of the ladder's loop. -/
structure Ladder where
  x2   : Nat
  z2   : Nat
  x3   : Nat
  z3   : Nat
  swap : Bool
  deriving DecidableEq, Repr

/-- `cswap(s, x2, x3) ; cswap(s, z2, z3)`. -/
def ladderSwap (s : Bool) (v : Ladder) : Ladder :=
  if s then { v with x2 := v.x3, z2 := v.z3, x3 := v.x2, z3 := v.z2 } else v

/-- One pass of the loop for scalar bit `kt`. -/
def ladderStep (p a24 x1 : Nat) (kt : Bool) (v : Ladder) : Ladder :=
  let w := ladderSwap (v.swap ^^ kt) v
  let a : Nat := (w.x2 + w.z2) % p
  let aa : Nat := a ^ 2 % p
  let b : Nat := imod ((w.x2 : Int) - w.z2) p
  let bb : Nat := b ^ 2 % p
  let e : Nat := imod ((aa : Int) - bb) p
  let c : Nat := (w.x3 + w.z3) % p
  let d : Nat := imod ((w.x3 : Int) - w.z3) p
  let da : Nat := d * a % p
  let cb : Nat := c * b % p
  { x3 := (da + cb) ^ 2 % p
    z3 := x1 * (imod ((da : Int) - cb) p) ^ 2 % p
    x2 := aa * bb % p
    z2 := e * (aa + a24 * e) % p
    swap := kt }

/-- The loop for bits `t - 1` down to 0 of `k`. -/
def ladderLoop (p a24 x1 k : Nat) : Nat → Ladder → Ladder
  | 0, v => v
  | t + 1, v => ladderLoop p a24 x1 k t (ladderStep p a24 x1 (k.testBit t) v)

/-- `ladder(c, k, u)`: all `64 L` bits, then `x2 * z2^(p-2)`, which is 0 when `z2 = 0`. -/
def ladder (p a24 limbs k u : Nat) : Nat :=
  let v := ladderLoop p a24 u k (64 * limbs) { x2 := 1, z2 := 0, x3 := u, z3 := 1, swap := false }
  let w := ladderSwap v.swap v
  w.x2 * powMod p w.z2 (p - 2) % p

end Sys2Proof.Machine
end

