-- ==== Sys2Proof/Machine/Operands.lean ====
section
/-! DEFINITION. How commands read their operands, with the check each form makes, and how they write
their results: modulus selection, field elements, points, scalars. -/

namespace Sys2Proof.Machine

/-- The curve that `CRV` selects; a reserved value is refused (30_encoding.md R86, 41_curves.md R140). -/
def curveOf (crv : Fin 16) : Except Failure CurveParams :=
  match curveAt crv with
  | some c => .ok c
  | none => .error .reservedValue

/-- The modulus of curve `c`: the field prime, or the group order when `MS = 1` (40_field.md R111). -/
def modulusOf (c : CurveParams) (ms : Bool) : Nat := if ms then c.n else c.p

/-- The Montgomery radix `R = 2^(64 L)` of curve `c`, the same for both moduli (40_field.md R111). -/
def radixOf (c : CurveParams) : Nat := 2 ^ (64 * c.limbs)

/-- `felt(r)`: a register read as a field element must be below the modulus (40_field.md R113). -/
def felt (d : Data) (m : Nat) (r : Fin 16) (f : Failure) : Except Failure Nat :=
  if readField d r < m then .ok (readField d r) else .error f

/-- The template of a field command with one source: curve, operand, then its own rule
(40_field.md R112). -/
def fieldUnary (crv : Fin 16) (rd ra : Fin 16) (s : State)
    (ms : Bool) (rule : CurveParams → Nat → Except Failure Nat) : Host.Outcome State Fault Refusal :=
  completeCommand s do
    let c ← curveOf crv
    let a ← felt s.data (modulusOf c ms) ra .operandA
    let v ← rule c a
    return writeField rd v s.data

/-- The template of a field command with two sources, checked in the order `RA`, `RB` (40_field.md R112). -/
def fieldBinary (crv : Fin 16) (rd ra rb : Fin 16) (s : State)
    (ms : Bool) (rule : CurveParams → Nat → Nat → Nat) : Host.Outcome State Fault Refusal :=
  completeCommand s do
    let c ← curveOf crv
    let a ← felt s.data (modulusOf c ms) ra .operandA
    let b ← felt s.data (modulusOf c ms) rb .operandB
    return writeField rd (rule c a b) s.data

/-- The point register `P[j]` as it stands: the identity of a Weierstrass or Montgomery curve when
`PINF[j]` is set (the coordinates are then not looked at), otherwise the pair of coordinates. On an
Edwards curve a set flag is no point (41_curves.md R151). -/
def readPoint (c : CurveParams) (d : Data) (j : Fin 8) : Option Point :=
  if readPinf d j then
    match c.fam with
    | .edwards => none
    | .weierstrass => some .inf
    | .montgomery _ => some .inf
  else some (.affine (readField d (xReg j)) (readField d (yReg j)))

/-- `pt(c, j)`: a point operand, validated (41_curves.md R151). -/
def pt (c : CurveParams) (d : Data) (j : Fin 8) (f : Failure) : Except Failure Point :=
  match readPoint c d j with
  | none => .error f
  | some P => if validPoint c P then .ok P else .error f

/-- `setpt(j, P)`: both coordinate registers in full, and the flag (41_curves.md R152). -/
def setpt (j : Fin 8) (P : Point) (d : Data) : Data :=
  match P with
  | .inf => writePinf j true (writeField (yReg j) 0 (writeField (xReg j) 0 d))
  | .affine x y => writePinf j false (writeField (yReg j) y (writeField (xReg j) x d))

/-- The base point of a curve (41_curves.md R140). -/
def basePoint (c : CurveParams) : Point := .affine c.gx c.gy

/-- `scalar(RB)`: the full 576-bit value, below `2^(64 L)`, and inside `[1, n-1]` when `RK = 1`
(43_scalar.md R192). -/
def scalarOf (c : CurveParams) (d : Data) (rk : Bool) (rb : Fin 16) : Except Failure Nat := do
  let k := readField d rb
  require (k < 2 ^ (64 * c.limbs)) .scalarWidth
  require (rk = true → 1 ≤ k ∧ k < c.n) .scalarRange
  return k

/-- The ladder constant of a Montgomery curve; SMULX is refused on every other family
(30_encoding.md R86, 43_scalar.md R195). -/
def ladderConstant (c : CurveParams) : Except Failure Nat :=
  match c.fam with
  | .montgomery a24 => .ok a24
  | .weierstrass => .error .reservedValue
  | .edwards => .error .reservedValue

end Sys2Proof.Machine
end

