-- ==== Sys2Proof/Machine/Field.lean ====
section
/-! DEFINITION. The field commands (40_field.md R110 to R132). -/

namespace Sys2Proof.Machine

/-- FADD (40_field.md R115). -/
def execFadd (crv : Fin 16) (ms : Bool) (rd ra rb : Fin 16) (s : State) : Host.Outcome State Fault Refusal :=
  fieldBinary crv rd ra rb s ms fun c a b => (a + b) % modulusOf c ms

/-- FSUB (40_field.md R116). -/
def execFsub (crv : Fin 16) (ms : Bool) (rd ra rb : Fin 16) (s : State) : Host.Outcome State Fault Refusal :=
  fieldBinary crv rd ra rb s ms fun c a b => imod ((a : Int) - b) (modulusOf c ms)

/-- FNEG (40_field.md R117). -/
def execFneg (crv : Fin 16) (ms : Bool) (rd ra : Fin 16) (s : State) : Host.Outcome State Fault Refusal :=
  fieldUnary crv rd ra s ms fun c a => .ok (imod (0 - (a : Int)) (modulusOf c ms))

/-- FMUL: the product of canonical values (40_field.md R118). -/
def execFmul (crv : Fin 16) (ms : Bool) (rd ra rb : Fin 16) (s : State) : Host.Outcome State Fault Refusal :=
  fieldBinary crv rd ra rb s ms fun c a b => a * b % modulusOf c ms

/-- FSQR (40_field.md R119). -/
def execFsqr (crv : Fin 16) (ms : Bool) (rd ra : Fin 16) (s : State) : Host.Outcome State Fault Refusal :=
  fieldUnary crv rd ra s ms fun c a => .ok (a * a % modulusOf c ms)

/-- MONTMUL: the raw Montgomery product (40_field.md R120, R128). -/
def execMontmul (crv : Fin 16) (ms : Bool) (rd ra rb : Fin 16) (s : State) : Host.Outcome State Fault Refusal :=
  fieldBinary crv rd ra rb s ms fun c a b => montMul (modulusOf c ms) (radixOf c) a b

/-- TOMONT (40_field.md R121). -/
def execTomont (crv : Fin 16) (ms : Bool) (rd ra : Fin 16) (s : State) : Host.Outcome State Fault Refusal :=
  fieldUnary crv rd ra s ms fun c a => .ok (a * radixOf c % modulusOf c ms)

/-- FROMMONT (40_field.md R122). -/
def execFrommont (crv : Fin 16) (ms : Bool) (rd ra : Fin 16) (s : State) : Host.Outcome State Fault Refusal :=
  fieldUnary crv rd ra s ms fun c a =>
    .ok (a * invMod (radixOf c % modulusOf c ms) (modulusOf c ms) % modulusOf c ms)

/-- FINV: the inverse; zero has none and is refused (40_field.md R123). -/
def execFinv (crv : Fin 16) (ms : Bool) (rd ra : Fin 16) (s : State) : Host.Outcome State Fault Refusal :=
  fieldUnary crv rd ra s ms fun c a => do
    require (a ≠ 0) .inverseOfZero
    return invMod a (modulusOf c ms)

/-- FPOW: the exponent is the full register value, unchecked (40_field.md R124). -/
def execFpow (crv : Fin 16) (ms : Bool) (rd ra rb : Fin 16) (s : State) : Host.Outcome State Fault Refusal :=
  fieldUnary crv rd ra s ms fun c a => .ok (powMod (modulusOf c ms) a (readField s.data rb))

/-- FRED: any register value reduced, no operand check (40_field.md R125). -/
def execFred (crv : Fin 16) (ms : Bool) (rd ra : Fin 16) (s : State) : Host.Outcome State Fault Refusal :=
  completeCommand s do
    let c ← curveOf crv
    return writeField rd (readField s.data ra % modulusOf c ms) s.data

/-- FMOV: a copy of all 576 bits, no check (40_field.md R127). -/
def execFmov (rd ra : Fin 16) (s : State) : Host.Outcome State Fault Refusal :=
  completeCommand s (.ok (writeField rd (readField s.data ra) s.data))

/-- The constant that FLDC's selector names (40_field.md R126). -/
def fieldConstant (c : CurveParams) (ms : Bool) (rc : Fin 16) : Option Nat :=
  match rc.val with
  | 0 => some 0
  | 1 => some 1
  | 2 => some (modulusOf c ms)
  | 3 => some (radixOf c % modulusOf c ms)
  | 4 => some (radixOf c ^ 2 % modulusOf c ms)
  | 5 => some c.ca
  | 6 => some c.cb
  | 7 => some c.gx
  | 8 => some c.gy
  | 9 => some c.n
  | 10 => some c.p
  | 11 => some c.h
  | _ => none

/-- FLDC: load a constant of the selected curve and modulus (40_field.md R126). -/
def execFldc (crv : Fin 16) (ms : Bool) (rd rc : Fin 16) (s : State) : Host.Outcome State Fault Refusal :=
  completeCommand s do
    let c ← curveOf crv
    match fieldConstant c ms rc with
    | some v => return writeField rd v s.data
    | none => throw .reservedValue

end Sys2Proof.Machine
end

