-- ==== Sys2Proof/Machine/Ghash.lean ====
section
/-! DEFINITION. Multiplication in GF(2^128) and the command GHMUL (46_ghash.md R270 to R273). -/

namespace Sys2Proof.Machine

/-- The reduction constant `R = 0xE1 << 120` (46_ghash.md R271). -/
def gfReduction : BitVec 128 := 0xE1000000000000000000000000000000

/-- The loop of `gfmul` for `i = 128 - n .. 127`: bit `127 - i` of `x` selects `v` (46_ghash.md R271). -/
def gfLoop (x : BitVec 128) : Nat → BitVec 128 → BitVec 128 → BitVec 128
  | 0, z, _ => z
  | n + 1, z, v =>
    gfLoop x n (if x.getLsbD n then z ^^^ v else z)
      (if v.getLsbD 0 then (v >>> 1) ^^^ gfReduction else v >>> 1)

/-- `gfmul(X, Y)` on blocks read as big-endian integers (46_ghash.md R271). -/
def gfMul (x y : BitVec 128) : BitVec 128 := gfLoop x 128 0 y

/-- The block of 16 bytes as a big-endian integer (46_ghash.md R270). -/
def blockOfBytes (bs : List Byte) : BitVec 128 := BitVec.ofNat 128 (beNat bs)

/-- `Y <- gfmul(Y xor X, H)` for the `n` blocks of `DAT` from block `i` on (46_ghash.md R273). -/
def ghashFold (h : BitVec 128) (d : Data) : Nat → Nat → BitVec 128 → BitVec 128
  | 0, _, y => y
  | n + 1, i, y => ghashFold h d n (i + 1) (gfMul (y ^^^ blockOfBytes (readDat d (16 * i) 16)) h)

/-- GHMUL: fold `LEN` blocks into the accumulator; there is no context header (46_ghash.md R273). -/
def execGhmul (len : BitVec 16) (s : State) : Host.Outcome State Fault Refusal :=
  completeCommand s do
    require (len.toNat ≤ 16) .badLength
    let y := blockOfBytes (readCtx s.data 0 16)
    let h := blockOfBytes (readCtx s.data 16 16)
    return writeCtx 0 (beBytes (ghashFold h s.data len.toNat 0 y).toNat 16) s.data

end Sys2Proof.Machine
end

