-- ==== Sys2Proof/Machine/Point.lean ====
section
/-! DEFINITION. The point commands (42_point.md R170 to R174). -/

namespace Sys2Proof.Machine

/-- PCHK: validate a point register, write nothing (42_point.md R171). -/
def execPchk (crv : Fin 16) (ra : Fin 8) (s : State) : Host.Outcome State Fault Refusal :=
  completeCommand s do
    let c ← curveOf crv
    let _ ← pt c s.data ra .pointA
    return s.data

/-- PADD: point addition (42_point.md R172). -/
def execPadd (crv : Fin 16) (rd ra rb : Fin 8) (s : State) : Host.Outcome State Fault Refusal :=
  completeCommand s do
    let c ← curveOf crv
    let P ← pt c s.data ra .pointA
    let Q ← pt c s.data rb .pointB
    return setpt rd (addPoint c P Q) s.data

/-- PDBL: point doubling (42_point.md R173). -/
def execPdbl (crv : Fin 16) (rd ra : Fin 8) (s : State) : Host.Outcome State Fault Refusal :=
  completeCommand s do
    let c ← curveOf crv
    let P ← pt c s.data ra .pointA
    return setpt rd (dblPoint c P) s.data

/-- The point that PLDC's selector names (42_point.md R174). -/
def constantPoint (c : CurveParams) (rc : Fin 16) : Option Point :=
  match rc.val with
  | 0 => some (identity c)
  | 1 => some (basePoint c)
  | _ => none

/-- PLDC: load the identity or the base point (42_point.md R174). -/
def execPldc (crv : Fin 16) (rd : Fin 8) (rc : Fin 16) (s : State) : Host.Outcome State Fault Refusal :=
  completeCommand s do
    let c ← curveOf crv
    match constantPoint c rc with
    | some P => return setpt rd P s.data
    | none => throw .reservedValue

end Sys2Proof.Machine
end

