-- ==== Sys2Proof/Machine/Scalar.lean ====
section
/-! DEFINITION. The scalar multiplication commands (43_scalar.md R190 to R196). -/

namespace Sys2Proof.Machine

/-- SMUL: the point operand first, then the scalar (43_scalar.md R190, R191). -/
def execSmul (crv : Fin 16) (rk : Bool) (rd ra : Fin 8) (rb : Fin 16) (s : State) :
    Host.Outcome State Fault Refusal :=
  completeCommand s do
    let c ← curveOf crv
    let P ← pt c s.data ra .pointA
    let k ← scalarOf c s.data rk rb
    return setpt rd (mulPoint c k P) s.data

/-- SMUL.G: the base point; no register is read for the point (43_scalar.md R191). -/
def execSmulG (crv : Fin 16) (rk : Bool) (rd : Fin 8) (rb : Fin 16) (s : State) :
    Host.Outcome State Fault Refusal :=
  completeCommand s do
    let c ← curveOf crv
    let k ← scalarOf c s.data rk rb
    return setpt rd (mulPoint c k (basePoint c)) s.data

/-- SMULX: the x-only ladder on a Montgomery curve; any `u` below `p` is accepted (43_scalar.md R195). -/
def execSmulx (crv : Fin 16) (rk : Bool) (rd ra rb : Fin 16) (s : State) : Host.Outcome State Fault Refusal :=
  completeCommand s do
    let c ← curveOf crv
    let a24 ← ladderConstant c
    let u ← felt s.data c.p ra .pointA
    let k ← scalarOf c s.data rk rb
    return writeField rd (ladder c.p a24 c.limbs k u) s.data

/-- SMULX.G: the same on the base point's u-coordinate (43_scalar.md R195). -/
def execSmulxG (crv : Fin 16) (rk : Bool) (rd rb : Fin 16) (s : State) : Host.Outcome State Fault Refusal :=
  completeCommand s do
    let c ← curveOf crv
    let a24 ← ladderConstant c
    let k ← scalarOf c s.data rk rb
    return writeField rd (ladder c.p a24 c.limbs k c.gx) s.data

end Sys2Proof.Machine
end

