-- ==== Sys2Proof/Machine/Siphash.lean ====
section
/-! DEFINITION. SipHash-2-4 and the commands SIPINIT, SIPBLK, SIPFIN (47_siphash.md R285 to R290). -/

namespace Sys2Proof.Machine

/-- The four state words (10_state.md R37). -/
structure Sip where
  v0 : Lane
  v1 : Lane
  v2 : Lane
  v3 : Lane
  deriving DecidableEq, Repr

/-- `SipRound` (47_siphash.md R285). -/
def sipRound (s : Sip) : Sip :=
  let v0 := s.v0 + s.v1
  let v1 := s.v1.rotateLeft 13 ^^^ v0
  let v0 := v0.rotateLeft 32
  let v2 := s.v2 + s.v3
  let v3 := s.v3.rotateLeft 16 ^^^ v2
  let v0 := v0 + v3
  let v3 := v3.rotateLeft 21 ^^^ v0
  let v2 := v2 + v1
  let v1 := v1.rotateLeft 17 ^^^ v2
  let v2 := v2.rotateLeft 32
  ⟨v0, v1, v2, v3⟩

/-- `compress(m)`: two rounds (47_siphash.md R286). -/
def sipCompress (s : Sip) (m : Lane) : Sip :=
  let t := sipRound (sipRound { s with v3 := s.v3 ^^^ m })
  { t with v0 := t.v0 ^^^ m }

/-- The four finalisation rounds (47_siphash.md R290). -/
def sipFour (s : Sip) : Sip := sipRound (sipRound (sipRound (sipRound s)))

/-- `le_bytes(v0 xor v1 xor v2 xor v3, 8)` (47_siphash.md R290). -/
def sipOutput (s : Sip) : List Byte := leBytes (s.v0 ^^^ s.v1 ^^^ s.v2 ^^^ s.v3).toNat 8

/-- The finalisation of one variant: the output bytes and the final words (47_siphash.md R290). -/
def sipFinish (wide : Bool) (s : Sip) : List Byte × Sip :=
  if wide then
    let a := sipFour { s with v2 := s.v2 ^^^ 0xEE }
    let b := sipFour { a with v1 := a.v1 ^^^ 0xDD }
    (sipOutput a ++ sipOutput b, b)
  else
    let a := sipFour { s with v2 := s.v2 ^^^ 0xFF }
    (sipOutput a, a)

/-- `v` in `CTX[0..31]` (10_state.md R37). -/
def readSip (d : Data) : Sip where
  v0 := leWordAt 64 (readCtx d 0 8) 0 8
  v1 := leWordAt 64 (readCtx d 8 8) 0 8
  v2 := leWordAt 64 (readCtx d 16 8) 0 8
  v3 := leWordAt 64 (readCtx d 24 8) 0 8

/-- Write `v` and `MLEN`, bytes 0 to 32 of `CTX` (10_state.md R37). -/
def writeSip (s : Sip) (mlen : Byte) (d : Data) : Data :=
  writeCtx 0 (leBytes s.v0.toNat 8 ++ leBytes s.v1.toNat 8 ++ leBytes s.v2.toNat 8 ++ leBytes s.v3.toNat 8 ++
    [mlen]) d

/-- The state words for a key and a variant (47_siphash.md R288). -/
def sipKeyed (wide : Bool) (k0 k1 : Lane) : Sip where
  v0 := k0 ^^^ 0x736F6D6570736575
  v1 := if wide then k1 ^^^ 0x646F72616E646F6D ^^^ 0xEE else k1 ^^^ 0x646F72616E646F6D
  v2 := k0 ^^^ 0x6C7967656E657261
  v3 := k1 ^^^ 0x7465646279746573

/-- SIPINIT: create a SipHash context from the key in `DAT[0..15]` (47_siphash.md R288). -/
def execSipinit (mode : BitVec 8) (s : State) : Host.Outcome State Fault Refusal :=
  completeCommand s do
    require (mode.toNat ≤ 1) .reservedValue
    let v := sipKeyed (mode = 1) (leWordAt 64 (readDat s.data 0 8) 0 8) (leWordAt 64 (readDat s.data 8 8) 0 8)
    return writeKindPhase 3 1 (writeCtx 33 [mode] (writeSip v 0 (clearCtx s.data)))

/-- The checks SIPBLK and SIPFIN share: kind and phase, then the header (47_siphash.md R289, R290). -/
def sipContext (d : Data) : Except Failure Unit := do
  require (ctxKind d = 3 ∧ ctxPhase d = 1) .wrongState
  require ((ctxByte d 33).toNat ≤ 1) .badHeader

/-- `compress` of the `n` words of `DAT` from word `i` on (47_siphash.md R289). -/
def sipAbsorb (d : Data) : Nat → Nat → Sip → Sip
  | 0, _, s => s
  | n + 1, i, s => sipAbsorb d n (i + 1) (sipCompress s (leWordAt 64 (readDat d (8 * i) 8) 0 8))

/-- `(MLEN + LEN) mod 256` (47_siphash.md R289). -/
def sipLength (d : Data) (len : BitVec 16) : Byte := BitVec.ofNat 8 ((ctxByte d 32).toNat + len.toNat)

/-- SIPBLK: absorb whole words of `DAT` (47_siphash.md R289). -/
def execSipblk (len : BitVec 16) (s : State) : Host.Outcome State Fault Refusal :=
  completeCommand s do
    sipContext s.data
    require (len.toNat ≤ 256 ∧ len.toNat % 8 = 0) .badLength
    return writeSip (sipAbsorb s.data (len.toNat / 8) 0 (readSip s.data)) (sipLength s.data len) s.data

/-- The last message word: the tail bytes below the length byte (47_siphash.md R290). -/
def sipLastWord (d : Data) (len : BitVec 16) : Lane :=
  (BitVec.ofNat 64 (sipLength d len).toNat <<< 56) ||| BitVec.ofNat 64 (leNat (readDat d 0 len.toNat))

/-- SIPFIN: absorb the tail, finalise, deliver the output, close the context (47_siphash.md R290). -/
def execSipfin (len : BitVec 16) (s : State) : Host.Outcome State Fault Refusal :=
  completeCommand s do
    sipContext s.data
    require (len.toNat ≤ 7) .badLength
    let r := sipFinish (ctxByte s.data 33 = 1) (sipCompress (readSip s.data) (sipLastWord s.data len))
    return writePhase 3 (writeDat 0 r.1 (writeSip r.2 (sipLength s.data len) s.data))

end Sys2Proof.Machine
end

