-- ==== Sys2Proof/Machine/Keccak.lean ====
section
/-! DEFINITION. The permutation Keccak-p[1600, nr] and the command KECCAKP (44_keccak.md R211 to R217). -/

namespace Sys2Proof.Machine

/-- Lane `(x, y)` of a state of 25 lanes, indices modulo 5 (44_keccak.md R211). -/
def lane (A : List Lane) (x y : Nat) : Lane := A.getD (5 * (y % 5) + x % 5) 0

/-- The state whose lane `(x, y)` is `f x y`. -/
def lanesOf (f : Nat → Nat → Lane) : List Lane := (List.range 25).map fun i => f (i % 5) (i / 5)

/-- The 25 lanes of a 200-byte string (44_keccak.md R211). -/
def lanesOfBytes (bs : List Byte) : List Lane := lanesOf fun x y => leWordAt 64 bs (8 * (5 * y + x)) 8

/-- The 200 bytes of a state (44_keccak.md R211). -/
def bytesOfLanes (A : List Lane) : List Byte := A.flatMap fun v => leBytes v.toNat 8

/-- Step theta (44_keccak.md R212); `x - 1` is `x + 4` modulo 5. -/
def theta (A : List Lane) : List Lane :=
  let c := fun x => lane A x 0 ^^^ lane A x 1 ^^^ lane A x 2 ^^^ lane A x 3 ^^^ lane A x 4
  let d := fun x => c (x + 4) ^^^ (c (x + 1)).rotateLeft 1
  lanesOf fun x y => lane A x y ^^^ d x

/-- The walk of 44_keccak.md R213 from step `t` at the lane `(u, v)`, `left` steps long: the triangular number
of the step at which it meets `(x, y)`, and 0 when it does not. -/
def rhoWalk (x y : Nat) : (left t u v : Nat) → Nat
  | 0, _, _, _ => 0
  | left + 1, t, u, v =>
    if u = x ∧ v = y then (t + 1) * (t + 2) / 2 % 64 else rhoWalk x y left (t + 1) v ((2 * u + 3 * v) % 5)

/-- `RHO[x, y]`: the walk starts at `(1, 0)` and meets every lane but `(0, 0)` in its 24 steps
(44_keccak.md R213). -/
def rhoOffset (x y : Nat) : Nat := rhoWalk (x % 5) (y % 5) 24 0 1 0

/-- Steps rho and pi (44_keccak.md R213): lane `(x, y)` goes, rotated, to `(y, 2x + 3y)`. Read at the
destination `(X, Y)`, the source is `y = X`, `x = X + 3Y` modulo 5. -/
def rhoPi (A : List Lane) : List Lane :=
  lanesOf fun X Y => (lane A (X + 3 * Y) X).rotateLeft (rhoOffset (X + 3 * Y) X)

/-- Step chi (44_keccak.md R214). -/
def chi (B : List Lane) : List Lane :=
  lanesOf fun x y => lane B x y ^^^ (~~~ lane B (x + 1) y &&& lane B (x + 2) y)

/-- The bits of the round constants: row `ir` lists the `j` for which bit `2^j - 1` of `RC[ir]` is set. A round
constant has no other bit (44_keccak.md R215). -/
def roundConstantBits (ir : Nat) : List Nat :=
  match ir with
  | 0 => [0]
  | 1 => [1, 3, 4]
  | 2 => [1, 2, 3, 4, 6]
  | 3 => [4, 5, 6]
  | 4 => [0, 1, 2, 3, 4]
  | 5 => [0, 5]
  | 6 => [0, 3, 4, 5, 6]
  | 7 => [0, 2, 4, 6]
  | 8 => [1, 2, 3]
  | 9 => [2, 3]
  | 10 => [0, 2, 4, 5]
  | 11 => [1, 2, 5]
  | 12 => [0, 1, 2, 3, 4, 5]
  | 13 => [0, 1, 2, 3, 6]
  | 14 => [0, 2, 3, 4, 6]
  | 15 => [0, 1, 4, 6]
  | 16 => [1, 4, 6]
  | 17 => [3, 6]
  | 18 => [1, 2, 4]
  | 19 => [1, 2, 5, 6]
  | 20 => [0, 3, 4, 5, 6]
  | 21 => [3, 4, 6]
  | 22 => [0, 5]
  | 23 => [2, 4, 5, 6]
  | _ => []

/-- `RC[ir]` (44_keccak.md R215). -/
def roundConstant (ir : Nat) : Lane :=
  (roundConstantBits ir).foldl (fun c j => c ||| (1 <<< (2 ^ j - 1))) 0

/-- Step iota for round index `ir` (44_keccak.md R215). -/
def iota (A : List Lane) (ir : Nat) : List Lane :=
  lanesOf fun x y => if x = 0 ∧ y = 0 then lane A 0 0 ^^^ roundConstant ir else lane A x y

/-- One round (44_keccak.md R217). -/
def keccakRound (A : List Lane) (ir : Nat) : List Lane := iota (chi (rhoPi (theta A))) ir

/-- `KeccakP(S, nr)`: the last `nr` of the 24 rounds on a 200-byte string (44_keccak.md R217). -/
def keccakP (bs : List Byte) (nr : Nat) : List Byte :=
  bytesOfLanes ((List.range' (24 - nr) nr).foldl keccakRound (lanesOfBytes bs))

/-- KECCAKP: the permutation on `DAT[0..199]` (44_keccak.md R216). -/
def execKeccakp (mode : BitVec 8) (s : State) : Host.Outcome State Fault Refusal :=
  completeCommand s do
    require (mode = 12 ∨ mode = 24) .reservedValue
    return writeDat 0 (keccakP (readDat s.data 0 200) mode.toNat) s.data

end Sys2Proof.Machine
end

