-- ==== Sys2Proof/Machine/Sponge.lean ====
section
/-! DEFINITION. The sponge commands SPINIT, SPABS, SPFIN, SPSQZ, SPDIG (44_keccak.md R218 to R228). -/

namespace Sys2Proof.Machine

/-- A sponge context as the commands work on it (10_state.md R34). -/
structure Sponge where
  /-- `SA`, 200 bytes. -/
  sa   : List Byte
  rate : Nat
  dsuf : Byte
  nr   : Nat
  pos  : Nat
  dlen : Nat
  deriving DecidableEq, Repr

/-- The sponge context in `CTX` (10_state.md R34). -/
def readSponge (d : Data) : Sponge where
  sa   := readCtx d 0 200
  rate := (ctxByte d 200).toNat
  dsuf := ctxByte d 201
  nr   := (ctxByte d 202).toNat
  pos  := (ctxByte d 203).toNat
  dlen := (ctxByte d 204).toNat

/-- Write back what a sponge command changes: `SA` and `POS` (44_keccak.md R225, R227, R228). -/
def writeSponge (v : Sponge) (d : Data) : Data :=
  writeCtx 203 [BitVec.ofNat 8 v.pos] (writeCtx 0 v.sa d)

/-- `SA[i] <- SA[i] xor b`. -/
def xorByteAt (sa : List Byte) (i : Nat) (b : Byte) : List Byte := sa.set i (sa.getD i 0 ^^^ b)

/-- `SA <- KeccakP(SA, NR) ; POS <- 0`. -/
def permuteSponge (v : Sponge) : Sponge := { v with sa := keccakP v.sa v.nr, pos := 0 }

/-- `absorb_byte(b)`: the permutation runs as soon as a block is full (44_keccak.md R218). -/
def absorbByte (v : Sponge) (b : Byte) : Sponge :=
  let w := { v with sa := xorByteAt v.sa v.pos b, pos := v.pos + 1 }
  if w.pos = w.rate then permuteSponge w else w

/-- `finish()`: the suffix byte, the final padding bit, the permutation (44_keccak.md R218). -/
def finishSponge (v : Sponge) : Sponge :=
  permuteSponge { v with sa := xorByteAt (xorByteAt v.sa v.pos v.dsuf) (v.rate - 1) 0x80 }

/-- `squeeze_byte()`: the permutation runs only when another byte is wanted (44_keccak.md R218). -/
def squeezeByte (v : Sponge) : Byte × Sponge :=
  let w := if v.pos = v.rate then permuteSponge v else v
  (w.sa.getD w.pos 0, { w with pos := w.pos + 1 })

/-- `n` squeezed bytes in order, and the context after them. -/
def squeezeBytes : Nat → Sponge → List Byte × Sponge
  | 0, v => ([], v)
  | n + 1, v =>
    let r := squeezeByte v
    let rest := squeezeBytes n r.2
    (r.1 :: rest.1, rest.2)

/-- `spctx(need)`: the checks every sponge command but SPINIT makes first; they read the public header
only (44_keccak.md R219). -/
def spctx (need : Nat) (d : Data) : Except Failure Sponge := do
  let v := readSponge d
  require (ctxKind d = 1 ∧ ctxPhase d = need) .wrongState
  require (v.rate % 8 = 0 ∧ 8 ≤ v.rate ∧ v.rate ≤ 192) .badHeader
  require (0x01 ≤ v.dsuf.toNat ∧ v.dsuf.toNat ≤ 0x7F) .badHeader
  require (v.nr = 12 ∨ v.nr = 24) .badHeader
  require (v.dlen ≤ 64) .badHeader
  require (need = 1 → v.pos < v.rate) .badHeader
  require (need = 2 → v.pos ≤ v.rate) .badHeader
  return v

/-- The configuration of a fresh context: rate, suffix byte, rounds, digest length. -/
structure SpongeConfig where
  rate : Byte
  dsuf : Byte
  nr   : Byte
  dlen : Byte
  deriving DecidableEq, Repr

/-- The presets 0 to 9 of SPINIT (44_keccak.md R223). -/
def spongePreset (mode : BitVec 8) : Option SpongeConfig :=
  match mode.toNat with
  | 0 => some ⟨144, 0x01, 24, 28⟩
  | 1 => some ⟨136, 0x01, 24, 32⟩
  | 2 => some ⟨104, 0x01, 24, 48⟩
  | 3 => some ⟨72, 0x01, 24, 64⟩
  | 4 => some ⟨144, 0x06, 24, 28⟩
  | 5 => some ⟨136, 0x06, 24, 32⟩
  | 6 => some ⟨104, 0x06, 24, 48⟩
  | 7 => some ⟨72, 0x06, 24, 64⟩
  | 8 => some ⟨168, 0x1F, 24, 0⟩
  | 9 => some ⟨136, 0x1F, 24, 0⟩
  | _ => none

/-- The RAW configuration packed in `LEN` (44_keccak.md R222). -/
def rawConfig (len : BitVec 16) : Except Failure SpongeConfig := do
  let rate := len.extractLsb' 0 8
  let dsuf : Byte := 0#1 ++ len.extractLsb' 8 7
  require (rate.toNat % 8 = 0 ∧ 8 ≤ rate.toNat ∧ rate.toNat ≤ 192) .reservedValue
  require (dsuf ≠ 0) .reservedValue
  return ⟨rate, dsuf, if len.getLsbD 15 then 12 else 24, 0⟩

/-- The configuration SPINIT asks for, with its checks in order (44_keccak.md R221). -/
def spinitConfig (mode : BitVec 8) (len : BitVec 16) : Except Failure SpongeConfig :=
  match spongePreset mode with
  | some cfg => if len = 0 then .ok cfg else .error .illegalCommand
  | none => if mode = 10 then rawConfig len else .error .reservedValue

/-- A fresh sponge context in `CTX` (44_keccak.md R221). -/
def createSponge (cfg : SpongeConfig) (d : Data) : Data :=
  writeKindPhase 1 1 (writeCtx 200 [cfg.rate, cfg.dsuf, cfg.nr, 0, cfg.dlen] (clearCtx d))

/-- SPINIT: create a sponge context; `CTX` is not read (44_keccak.md R221). -/
def execSpinit (mode : BitVec 8) (len : BitVec 16) (s : State) : Host.Outcome State Fault Refusal :=
  completeCommand s do
    let cfg ← spinitConfig mode len
    return createSponge cfg s.data

/-- SPABS: absorb `LEN` bytes of `DAT` (44_keccak.md R225). -/
def execSpabs (len : BitVec 16) (s : State) : Host.Outcome State Fault Refusal :=
  completeCommand s do
    let v ← spctx 1 s.data
    require (len.toNat ≤ 256) .badLength
    return writeSponge ((readDat s.data 0 len.toNat).foldl absorbByte v) s.data

/-- SPFIN: pad, permute, and switch to squeezing (44_keccak.md R226). -/
def execSpfin (s : State) : Host.Outcome State Fault Refusal :=
  completeCommand s do
    let v ← spctx 1 s.data
    return writePhase 2 (writeSponge (finishSponge v) s.data)

/-- SPSQZ: squeeze `LEN` bytes into `DAT` (44_keccak.md R227). -/
def execSpsqz (len : BitVec 16) (s : State) : Host.Outcome State Fault Refusal :=
  completeCommand s do
    let v ← spctx 2 s.data
    require (len ≠ 0) .zeroLength
    require (len.toNat ≤ 256) .badLength
    let r := squeezeBytes len.toNat v
    return writeDat 0 r.1 (writeSponge r.2 s.data)

/-- SPDIG: finish a fixed-output hash, deliver the digest, close the context (44_keccak.md R228). -/
def execSpdig (s : State) : Host.Outcome State Fault Refusal :=
  completeCommand s do
    let v ← spctx 1 s.data
    require (v.dlen ≠ 0) .zeroLength
    let r := squeezeBytes v.dlen (finishSponge v)
    return writePhase 3 (writeDat 0 r.1 (writeSponge r.2 s.data))

end Sys2Proof.Machine
end

