-- ==== Sys2Proof/Machine/System.lean ====
section
/-! DEFINITION. The system commands (48_system.md). -/

namespace Sys2Proof.Machine

/-- NOP: no data state is read or written (48_system.md R300). -/
def execNop (s : State) : Host.Outcome State Fault Refusal :=
  completeCommand s (.ok s.data)

/-- ZEROIZE: `F`, `PINF`, `CTX` and `DAT` become 0; the control state stays (48_system.md R301). -/
def execZeroize (s : State) : Host.Outcome State Fault Refusal :=
  completeCommand s (.ok Data.zero)

end Sys2Proof.Machine
end

