-- ==== Sys2Proof/Machine/Dispatch.lean ====
section
/-! DEFINITION. The completion of each command, one arm per constructor of `Instr`. -/

namespace Sys2Proof.Machine

/-- The completion step of a decoded command (20_memory.md R63, 30_encoding.md R84). -/
def exec (i : Instr) (s : State) : Host.Outcome State Fault Refusal :=
  match i with
  | .nop => Sys2Proof.Machine.execNop s
  | .zeroize => Sys2Proof.Machine.execZeroize s
  | .fadd crv ms rd ra rb => Sys2Proof.Machine.execFadd crv ms rd ra rb s
  | .fsub crv ms rd ra rb => Sys2Proof.Machine.execFsub crv ms rd ra rb s
  | .fneg crv ms rd ra => Sys2Proof.Machine.execFneg crv ms rd ra s
  | .fmul crv ms rd ra rb => Sys2Proof.Machine.execFmul crv ms rd ra rb s
  | .fsqr crv ms rd ra => Sys2Proof.Machine.execFsqr crv ms rd ra s
  | .montmul crv ms rd ra rb => Sys2Proof.Machine.execMontmul crv ms rd ra rb s
  | .tomont crv ms rd ra => Sys2Proof.Machine.execTomont crv ms rd ra s
  | .frommont crv ms rd ra => Sys2Proof.Machine.execFrommont crv ms rd ra s
  | .finv crv ms rd ra => Sys2Proof.Machine.execFinv crv ms rd ra s
  | .fpow crv ms rd ra rb => Sys2Proof.Machine.execFpow crv ms rd ra rb s
  | .fred crv ms rd ra => Sys2Proof.Machine.execFred crv ms rd ra s
  | .fmov rd ra => Sys2Proof.Machine.execFmov rd ra s
  | .fldc crv ms rd rc => Sys2Proof.Machine.execFldc crv ms rd rc s
  | .pchk crv ra => Sys2Proof.Machine.execPchk crv ra s
  | .padd crv rd ra rb => Sys2Proof.Machine.execPadd crv rd ra rb s
  | .pdbl crv rd ra => Sys2Proof.Machine.execPdbl crv rd ra s
  | .pldc crv rd rc => Sys2Proof.Machine.execPldc crv rd rc s
  | .smul crv rk rd ra rb => Sys2Proof.Machine.execSmul crv rk rd ra rb s
  | .smulG crv rk rd rb => Sys2Proof.Machine.execSmulG crv rk rd rb s
  | .smulx crv rk rd ra rb => Sys2Proof.Machine.execSmulx crv rk rd ra rb s
  | .smulxG crv rk rd rb => Sys2Proof.Machine.execSmulxG crv rk rd rb s
  | .keccakp mode => Sys2Proof.Machine.execKeccakp mode s
  | .spinit mode len => Sys2Proof.Machine.execSpinit mode len s
  | .spabs len => Sys2Proof.Machine.execSpabs len s
  | .spfin => Sys2Proof.Machine.execSpfin s
  | .spsqz len => Sys2Proof.Machine.execSpsqz len s
  | .spdig => Sys2Proof.Machine.execSpdig s
  | .b2init mode => Sys2Proof.Machine.execB2init mode s
  | .b2comp final len => Sys2Proof.Machine.execB2comp final len s
  | .ghmul len => Sys2Proof.Machine.execGhmul len s
  | .sipinit mode => Sys2Proof.Machine.execSipinit mode s
  | .sipblk len => Sys2Proof.Machine.execSipblk len s
  | .sipfin len => Sys2Proof.Machine.execSipfin len s

end Sys2Proof.Machine
end

