-- ==== Sys2Proof/Machine/Completion.lean ====
section
/-! DEFINITION. The two kinds of step: the completion of the command in flight (20_memory.md R63) and an
action of the environment (20_memory.md R64, 70_reset_and_hazards.md R351). -/

namespace Sys2Proof.Machine

/-- The completion step: `CMDR` is decoded now; a word that spells no command ends with
`IllegalCommand` (20_memory.md R61, R63; 30_encoding.md R84). -/
def completeInFlight (s : State) : Host.Outcome State Fault Refusal :=
  match decode s.cmdr with
  | .ok i => exec i s
  | .error _ => .next (raiseError .illegalCommand s)

/-- What CORE does when the environment offers a completion: the command in flight completes; with
none in flight nothing happens (20_memory.md R63). -/
def completeOrIdle (s : State) : Host.Outcome State Fault Refusal :=
  if s.busy then completeInFlight s else .next s

/-- One action of the environment (log 1). -/
def applyEvent (e : Event) (s : State) : Host.Outcome State Fault Refusal :=
  match e with
  | .read offset n => .next (recordReply (memRead offset n s))
  | .write offset n v => .next (recordReply (memWrite offset n v s))
  | .complete => completeOrIdle s
  | .hardReset => .next (resetCore s)

/-- One step: the next action of the environment; when none is left, a command in flight completes, as
every accepted command does (70_reset_and_hazards.md R366; log 1). -/
def stepOnce (s : State) : Host.Outcome State Fault Refusal :=
  match s.inputs with
  | [] => completeOrIdle s
  | e :: rest => applyEvent e { s with inputs := rest }

/-- The command word `w` in flight, as accept leaves it (20_memory.md R61), and its completion as the
next action (log 2). -/
def placeCommand (w : Word) (s : State) : State :=
  { s with
    cmdr := w, busy := true, done := false, err := false, errcode := 0, inputs := .complete :: s.inputs }

end Sys2Proof.Machine
end

