-- ==== Sys2Proof/Machine/Step.lean ====
section
/-! DEFINITION. One step of the machine, and the placing of a command word where the next step runs it. -/

namespace Sys2Proof.Machine

/-- One step of the single sequence of 20_memory.md R64. -/
def step (s : State) : Host.Outcome State Fault Refusal := stepOnce s

/-- `s` with the `nbits` bits `w` as the command in flight, to be completed by the very next step. CORE
fetches nothing (10_state.md R26); this stands for the host's write of the word to `CMD` (log 2). -/
def State.withFetchWord (s : State) (nbits w : Nat) : State :=
  placeCommand (BitVec.ofNat 32 (w % 2 ^ nbits)) s

end Sys2Proof.Machine
end

