-- ==== Sys2Proof/Config.lean ====
section
/-! DEFINITION. What the spec leaves to the platform or to an implementation: the two open parameters
`BASE` and `LAT` of 00_scope.md R10. Both are opaque: no statement can rest on a value of theirs. -/

namespace Sys2Proof

/-- The index of the 4096-byte page where the platform puts CORE's window (00_scope.md R10). No rule
depends on its value (93_implementation_defined.md V1). -/
opaque Config.windowIndex : Nat

/-- `BASE`, the host address of the window: a multiple of 4096 (00_scope.md R10). -/
def Config.base : Nat := 4096 * Config.windowIndex

/-- The byte offset into the window that a host address names (20_memory.md R50). It may be negative:
such an address lies below the window. -/
def Config.windowOffset (address : Nat) : Int := (address : Int) - (Config.base : Int)

/-- Everything that the latency of a command may depend on (70_reset_and_hazards.md R362): the public part of
the command word, the public header bytes of the context, and the number of the check that failed, if one did.
Which bits and bytes they are for a command is its family's rule (Machine/Timing.lean). -/
structure Config.PublicInputs where
  word   : Word
  header : List Byte
  failed : Option Nat
  deriving DecidableEq, Repr

/-- Clock cycles beyond the first between accept and completion (00_scope.md R10, `LAT`; the value is
open, 93_implementation_defined.md V2). -/
opaque Config.extraCycles : Config.PublicInputs → Nat

/-- `LAT`: a positive number of clock cycles, a function of public inputs only
(70_reset_and_hazards.md R362). -/
def Config.latency (i : Config.PublicInputs) : Nat := Config.extraCycles i + 1

end Sys2Proof
end

