-- ==== Sys2Proof/Machine/Timing.lean ====
section
/-! DEFINITION. What the latency of a command may depend on (70_reset_and_hazards.md R362). The step
does not read it: completion is an event that happens some time after accept (log 7). -/

namespace Sys2Proof.Machine

/-- The command words of the hash commands have `OPC` 0x40 to 0x6F (30_encoding.md R87). -/
def isHashWord (w : Word) : Bool :=
  decide (0x40 ≤ (opcField w).toNat) && decide ((opcField w).toNat ≤ 0x6F)

/-- `OPC`, `CRV`, `MS`, `G`, `RK` of a format P word: no register number, no selector
(70_reset_and_hazards.md R362; 40_field.md R114; 43_scalar.md R199). -/
def registerFreeWord (w : Word) : Word := w &&& 0xFFFE0000

/-- `OPC` alone: the latency is fixed, or the header decides it (45_blake2.md R260, 47_siphash.md R295). -/
def opcodeOnlyWord (w : Word) : Word := w &&& 0xFF000000

/-- `OPC` and `LEN` (46_ghash.md R278, 47_siphash.md R295). -/
def lengthWord (w : Word) : Word := w &&& 0xFF00FFFF

/-- The part of a command word that its latency may depend on. A word that spells no command counts as what its
`OPC` makes of it (70_reset_and_hazards.md R362). -/
def publicWord (w : Word) : Word :=
  match decode w with
  | .error _ => if isHashWord w then w else registerFreeWord w
  | .ok i =>
    match i with
    | .nop | .zeroize | .fadd .. | .fsub .. | .fneg .. | .fmul .. | .fsqr .. | .montmul .. | .tomont ..
    | .frommont .. | .finv .. | .fpow .. | .fred .. | .fmov .. | .fldc .. | .pchk .. | .padd .. | .pdbl ..
    | .pldc .. | .smul .. | .smulG .. | .smulx .. | .smulxG .. => registerFreeWord w
    | .keccakp .. | .spinit .. | .spabs .. | .spfin | .spsqz .. | .spdig => w
    | .b2init .. | .b2comp .. | .sipinit .. | .sipfin .. => opcodeOnlyWord w
    | .ghmul .. | .sipblk .. => lengthWord w

/-- The public header of a sponge context; a context of another kind has none (10_state.md R33, R34; 44_keccak.md
R233; 70_reset_and_hazards.md R362). No byte of `SA` is in it. -/
def spongeHeaderBytes (d : Data) : List Byte :=
  [ctxByte d 254, ctxByte d 255] ++
    if ctxKind d = 1 then [ctxByte d 200, ctxByte d 202, ctxByte d 203, ctxByte d 204] else []

/-- `VAR` at `CTX[off]`, once the command has found a context of its own kind: before that the byte is none of
its header (45_blake2.md R260, 47_siphash.md R295). -/
def variantByte (off : Nat) (d : Data) (failed : Option Failure) : List Byte :=
  if failed = some .wrongState then [] else [ctxByte d off]

/-- The public header bytes that the latency of a command may depend on, by family: 44_keccak.md R233,
45_blake2.md R260, 46_ghash.md R278, 47_siphash.md R295; none outside the hash commands
(70_reset_and_hazards.md R362). -/
def publicHeader (w : Word) (d : Data) (failed : Option Failure) : List Byte :=
  match decode w with
  | .error _ => []
  | .ok i =>
    match i with
    | .keccakp .. | .spinit .. | .spabs .. | .spfin | .spsqz .. | .spdig => spongeHeaderBytes d
    | .b2comp .. => variantByte 80 d failed
    | .sipfin .. => variantByte 33 d failed
    | .nop | .zeroize | .fadd .. | .fsub .. | .fneg .. | .fmul .. | .fsqr .. | .montmul .. | .tomont ..
    | .frommont .. | .finv .. | .fpow .. | .fred .. | .fmov .. | .fldc .. | .pchk .. | .padd .. | .pdbl ..
    | .pldc .. | .smul .. | .smulG .. | .smulx .. | .smulxG .. | .b2init .. | .ghmul .. | .sipinit ..
    | .sipblk .. => []

/-- The public inputs of the command `w` on data state `d`, given the check that failed, if any. -/
def publicInputs (w : Word) (d : Data) (failed : Option Failure) : Config.PublicInputs where
  word   := publicWord w
  header := publicHeader w d failed
  failed := failed.map Failure.ctorIdx

/-- `LAT` of the command `w` on data state `d` (70_reset_and_hazards.md R362). -/
def commandLatency (w : Word) (d : Data) (failed : Option Failure) : Nat :=
  Config.latency (publicInputs w d failed)

end Sys2Proof.Machine
end

