-- ==== Sys2Proof/Safety.lean ====
section
/-! DEFINITION. What claims call a good state, a completed command, a frame, and an operand that a command
accepts. Nothing of the machine depends on this file. -/

namespace Sys2Proof

open Sys2Proof.Machine

/-! ### Good states and safe runs -/

/-- The codes `ERRCODE` can hold: 0 to 5, 7 and 8 (93_implementation_defined.md V9). -/
def legalErrorCode (c : BitVec 4) : Bool := decide (c ≠ 6) && decide (c.toNat ≤ 8)

/-- The invariants of the flags (10_state.md R29): `BUSY` excludes `DONE` and `ERR`, and `ERR` is set
exactly when `ERRCODE` is not 0. -/
def flagsAgree (s : State) : Bool :=
  (!s.busy || (!s.done && !s.err)) && (s.err == decide (s.errcode ≠ 0))

/-- The state invariant: the flags agree, `ERRCODE` is a legal code, and the buffers keep their
canonical form (log 3). -/
def goodState (s : State) : Bool := flagsAgree s && legalErrorCode s.errcode && Memory.wf s.data.mem

/-- No protocol mistake of the host is on record (60_exceptions.md R322). -/
def protocolClean (s : State) : Bool := !s.drop && !s.hzd

/-- A run is safe when it reaches a state, with the invariant and without a protocol mistake. -/
def safeRun (k : Nat) (s : State) : Prop :=
  ∃ t, Host.Core.run Sys2Proof.core k s = .next t ∧ goodState t = true ∧ protocolClean t = true

/-- Every piece of the architectural state is at its reset value (10_state.md R42). -/
def resetValues (s : State) : Prop :=
  (∀ r : FReg, s.data.f[r] = 0) ∧ s.data.pinf = 0 ∧
  (∀ i, i < 256 → ctxByte s.data i = 0) ∧ (∀ i, i < 256 → datByte s.data i = 0) ∧
  s.cmdr = 0 ∧ s.busy = false ∧ s.done = false ∧ s.err = false ∧ s.drop = false ∧ s.hzd = false ∧
  s.errcode = 0 ∧ s.ie = false

/-! ### Completions and frames -/

/-- `s` after a completion whose result is the data state `d` (20_memory.md R63). -/
def finishedWith (s : State) (d : Data) : State := { s with data := d, busy := false, done := true }

/-- `s` after a completion with error `code` (60_exceptions.md R316). -/
def failedWith (s : State) (code : BitVec 4) : State :=
  { s with err := true, errcode := code, busy := false, done := true }

/-- `t` is `s` after a completion without error: outside the data state only `BUSY` and `DONE` changed. -/
def completes (s t : State) : Prop := t = finishedWith s t.data

/-- Two states agree on everything but the data state. -/
def sameButData (s t : State) : Prop := t = { s with data := t.data }

/-- Every byte of both buffers reads as before. -/
def memorySame (d e : Data) : Prop := ∀ a, Memory.read e.mem a = Memory.read d.mem a

/-- Nothing of the data state changed but, perhaps, `F[rd]`. -/
def onlyField (rd : FReg) (d e : Data) : Prop :=
  (∀ r : FReg, r ≠ rd → e.f[r] = d.f[r]) ∧ e.pinf = d.pinf ∧ memorySame d e

/-- Nothing of the data state changed but, perhaps, `P[j]`: its two coordinate registers and its flag. -/
def onlyPoint (j : PReg) (d e : Data) : Prop :=
  (∀ r : FReg, r ≠ xReg j → r ≠ yReg j → e.f[r] = d.f[r]) ∧
  (∀ i : PReg, i ≠ j → readPinf e i = readPinf d i) ∧ memorySame d e

/-- Nothing of the data state changed but, perhaps, the bytes of the given ranges (first offset, number
of bytes) of the window. -/
def onlyBytes (ranges : List (Nat × Nat)) (d e : Data) : Prop :=
  e.f = d.f ∧ e.pinf = d.pinf ∧
  ∀ a, (∀ r ∈ ranges, a < r.1 ∨ r.1 + r.2 ≤ a) → Memory.read e.mem a = Memory.read d.mem a

/-- The window offsets that are frozen while `BUSY = 1` (20_memory.md R56). -/
def dataOffset (a : Nat) : Prop :=
  a = 0x014 ∨ (0x100 ≤ a ∧ a ≤ 0x2FC ∧ a % 4 = 0) ∨ ∃ i w, i < 16 ∧ w < 18 ∧ a = 0x400 + 0x80 * i + 4 * w

/-! ### The group laws (41_curves.md R153, R154) -/

/-- What the law subtracts from `lam^2 - x1 - x2`: nothing on a Weierstrass curve, `A` on a Montgomery one. -/
def chordShift (c : CurveParams) : Int :=
  match c.fam with
  | .weierstrass => 0
  | .montgomery _ => c.ca
  | .edwards => 0

/-- The numerator of the tangent's slope at `x`. -/
def tangentNumerator (c : CurveParams) (x : Int) : Int :=
  match c.fam with
  | .weierstrass => 3 * x ^ 2 + c.ca
  | .montgomery _ => 3 * x ^ 2 + 2 * c.ca * x + 1
  | .edwards => 0

/-- Every division of the law of a Weierstrass or Montgomery curve at `P`, `Q` has an invertible divisor.
For two points of such a curve this follows from the primality of `p` (41_curves.md R153, R154). -/
def slopeDefined (c : CurveParams) : Point → Point → Prop
  | .affine x1 y1, .affine x2 y2 =>
    (x1 ≠ x2 → Int.gcd ((x2 : Int) - x1) c.p = 1) ∧
    (x1 = x2 → (y1 + y2) % c.p ≠ 0 → y1 = y2 ∧ Int.gcd (2 * (y1 : Int)) c.p = 1)
  | .inf, .inf => True
  | .inf, .affine _ _ => True
  | .affine _ _, .inf => True

/-! ### Operands that commands accept -/

/-- Point register `P[j]` is the valid point `P` of curve `c` (41_curves.md R150, R151). -/
def holdsPoint (c : CurveParams) (d : Data) (j : PReg) (P : Point) : Prop :=
  (readPinf d j = true ∧ c.fam ≠ .edwards ∧ P = .inf) ∨
  (readPinf d j = false ∧ P = .affine (readField d (xReg j)) (readField d (yReg j)) ∧
    readField d (xReg j) < c.p ∧ readField d (yReg j) < c.p ∧
    onCurve c (readField d (xReg j)) (readField d (yReg j)) = true)

/-- Point register `P[j]` is written as `setpt(j, P)` says (41_curves.md R152). -/
def storesPoint (d : Data) (j : PReg) : Point → Prop
  | .inf => readField d (xReg j) = 0 ∧ readField d (yReg j) = 0 ∧ readPinf d j = true
  | .affine x y => readField d (xReg j) = x ∧ readField d (yReg j) = y ∧ readPinf d j = false

/-- The scalar in `F[rb]` passes the checks of 43_scalar.md R192. -/
def scalarAccepted (c : CurveParams) (d : Data) (rk : Bool) (rb : FReg) : Prop :=
  readField d rb < 2 ^ (64 * c.limbs) ∧ (rk = true → 1 ≤ readField d rb ∧ readField d rb < c.n)

/-- The header of a sponge context is in range for a command that needs phase `need` (44_keccak.md R219). -/
def spongeHeader (need : Nat) (d : Data) : Prop :=
  (ctxByte d 200).toNat % 8 = 0 ∧ 8 ≤ (ctxByte d 200).toNat ∧ (ctxByte d 200).toNat ≤ 192 ∧
  1 ≤ (ctxByte d 201).toNat ∧ (ctxByte d 201).toNat ≤ 0x7F ∧
  ((ctxByte d 202).toNat = 12 ∨ (ctxByte d 202).toNat = 24) ∧
  (ctxByte d 204).toNat ≤ 64 ∧
  (need = 1 → (ctxByte d 203).toNat < (ctxByte d 200).toNat) ∧
  (need = 2 → (ctxByte d 203).toNat ≤ (ctxByte d 200).toNat)

/-- `CTX` holds a sponge context that a command which needs phase `need` accepts (44_keccak.md R219). -/
def spongeReady (need : Nat) (d : Data) : Prop :=
  ctxKind d = 1 ∧ ctxPhase d = need ∧ spongeHeader need d

/-- `CTX` holds a fresh sponge context with this configuration and nothing else (44_keccak.md R221). -/
def freshSponge (d : Data) (rate dsuf nr dlen : Nat) : Prop :=
  (ctxByte d 200).toNat = rate ∧ (ctxByte d 201).toNat = dsuf ∧ (ctxByte d 202).toNat = nr ∧
  (ctxByte d 203).toNat = 0 ∧ (ctxByte d 204).toNat = dlen ∧ ctxKind d = 1 ∧ ctxPhase d = 1 ∧
  ∀ i, i < 256 → i ∉ [200, 201, 202, 203, 204, 254, 255] → ctxByte d i = 0

/-- The longest digest of a BLAKE2 variant (45_blake2.md R250). -/
def blake2Longest (var : Nat) : Nat := if var = 0 then 64 else 32

/-- The block length of a BLAKE2 variant (45_blake2.md R250). -/
def blake2Block (var : Nat) : Nat := if var = 0 then 128 else 64

/-- The header of a BLAKE2 context is in range (45_blake2.md R257). -/
def blake2Header (d : Data) : Prop :=
  (ctxByte d 80).toNat ≤ 1 ∧ 1 ≤ (ctxByte d 81).toNat ∧
  (ctxByte d 81).toNat ≤ blake2Longest (ctxByte d 80).toNat

/-- `CTX` holds a BLAKE2 context that B2COMP accepts (45_blake2.md R257). -/
def blake2Ready (d : Data) : Prop := ctxKind d = 2 ∧ ctxPhase d = 1 ∧ blake2Header d

/-- `CTX` holds a SipHash context that SIPBLK and SIPFIN accept (47_siphash.md R289, R290). -/
def sipReady (d : Data) : Prop := ctxKind d = 3 ∧ ctxPhase d = 1 ∧ (ctxByte d 33).toNat ≤ 1

/-! ### Kinds of commands -/

/-- The commands that work on `CTX` and `DAT` (00_scope.md R19, HSE). -/
def isHash : Instr → Bool
  | .keccakp .. | .spinit .. | .spabs .. | .spfin | .spsqz .. | .spdig | .b2init .. | .b2comp ..
  | .ghmul .. | .sipinit .. | .sipblk .. | .sipfin .. => true
  | .nop | .zeroize | .fadd .. | .fsub .. | .fneg .. | .fmul .. | .fsqr .. | .montmul .. | .tomont ..
  | .frommont .. | .finv .. | .fpow .. | .fred .. | .fmov .. | .fldc .. | .pchk .. | .padd .. | .pdbl ..
  | .pldc .. | .smul .. | .smulG .. | .smulx .. | .smulxG .. => false

/-- The point register a command writes, if it writes one (10_state.md, table after R25). -/
def pointDestination : Instr → Option PReg
  | .padd _ rd _ _ => some rd
  | .pdbl _ rd _ => some rd
  | .pldc _ rd _ => some rd
  | .smul _ _ rd _ _ => some rd
  | .smulG _ _ rd _ => some rd
  | .nop | .zeroize | .fadd .. | .fsub .. | .fneg .. | .fmul .. | .fsqr .. | .montmul .. | .tomont ..
  | .frommont .. | .finv .. | .fpow .. | .fred .. | .fmov .. | .fldc .. | .pchk .. | .smulx .. | .smulxG ..
  | .keccakp .. | .spinit .. | .spabs .. | .spfin | .spsqz .. | .spdig | .b2init .. | .b2comp ..
  | .ghmul .. | .sipinit .. | .sipblk .. | .sipfin .. => none

/-- The error codes a decoded command can end with (60_exceptions.md R312). -/
def possibleErrors : Instr → List (BitVec 4)
  | .nop | .zeroize | .fmov .. => []
  | .fadd .. | .fsub .. | .fneg .. | .fmul .. | .fsqr .. | .montmul .. | .tomont .. | .frommont ..
  | .finv .. | .fpow .. => [5, 4]
  | .fred .. | .fldc .. | .pldc .. => [5]
  | .pchk .. | .padd .. | .pdbl .. => [5, 2]
  | .smul .. | .smulx .. => [5, 2, 3]
  | .smulG .. | .smulxG .. => [5, 3]
  | .keccakp .. | .spinit .. | .b2init .. | .sipinit .. => [5]
  | .spabs .. | .spsqz .. | .b2comp .. | .sipblk .. | .sipfin .. => [5, 7, 1]
  | .spfin | .spdig => [5, 7]
  | .ghmul .. => [1]

end Sys2Proof
end

