-- ==== Sys2Proof/Certificates/Slice0/Obligations.lean ====
section
/-! DEFINITION. The statements for the provers. The words they use are those of Safety.lean: `finishedWith`,
`failedWith`, `completes` for completions, `onlyField`, `onlyPoint`, `onlyBytes` for frames. A premise
`Memory.wf` is the canonical form of the buffers, part of the invariant `goodState`. -/

open Sys2Proof Sys2Proof.Machine

/-! ### Reset, steps, invariants -/

/-- After a hard reset and after a soft reset every piece of state has its tabulated value (10_state.md R42). -/
def Obligations.ResetState : Prop :=
  resetValues State.reset ∧
  (∀ (s : State) (rest : List Event), s.inputs = .hardReset :: rest → ∃ t, step s = .next t ∧ resetValues t) ∧
  (∀ (s : State) (v : Word), v.getLsbD 1 = true → ∃ t, memWrite 0x010 4 v s = (t, .ok) ∧ resetValues t) ∧
  (∀ s : State, memRead 0x000 4 s = (s, .value 0x4C430007))

/-- The invariant holds after reset. -/
def Obligations.ResetIsGood : Prop := goodState State.reset = true

/-- Every step keeps the invariant: the flag invariants of 10_state.md R29, a legal code in `ERRCODE`, never 6
(60_exceptions.md R313), and the canonical form of the buffers (log 3). -/
def Obligations.StepKeepsGoodState : Prop :=
  ∀ s t : State, goodState s = true → step s = .next t → goodState t = true

/-- Nothing stops CORE: an error is a completion (60_exceptions.md R316), a bus error is a reply
(20_memory.md R58), and every accepted command completes (70_reset_and_hazards.md R366). -/
def Obligations.StepAnswersNext : Prop := ∀ s : State, ∃ t, step s = .next t

/-- One step of the sequence of 20_memory.md R64, in the model's form of it (log 1, log 2): a command in flight is
decoded and executed at its completion; a word that spells no command ends with code 8; with nothing in flight
a completion changes nothing; a host access is answered and recorded. -/
def Obligations.StepRunsCommand : Prop :=
  (∀ (s : State) (i : Instr), s.inputs = [] → s.busy = true → decode s.cmdr = .ok i → step s = exec i s) ∧
  (∀ (s : State) (e : Illegal), s.inputs = [] → s.busy = true → decode s.cmdr = .error e →
    step s = .next (failedWith s 8)) ∧
  (∀ (s : State) (rest : List Event) (i : Instr), s.inputs = .complete :: rest → s.busy = true →
    decode s.cmdr = .ok i → step s = exec i { s with inputs := rest }) ∧
  (∀ (s : State) (rest : List Event) (e : Illegal), s.inputs = .complete :: rest → s.busy = true →
    decode s.cmdr = .error e → step s = .next (failedWith { s with inputs := rest } 8)) ∧
  (∀ s : State, s.inputs = [] → s.busy = false → step s = .next s) ∧
  (∀ (s : State) (rest : List Event), s.inputs = .complete :: rest → s.busy = false →
    step s = .next { s with inputs := rest }) ∧
  (∀ (s : State) (rest : List Event) (a : Int) (n : Nat), s.inputs = .read a n :: rest →
    ∃ u r, memRead a n { s with inputs := rest } = (u, r) ∧ step s = .next { u with replies := r :: u.replies }) ∧
  (∀ (s : State) (rest : List Event) (a : Int) (n : Nat) (v : Word), s.inputs = .write a n v :: rest →
    ∃ u r, memWrite a n v { s with inputs := rest } = (u, r) ∧ step s = .next { u with replies := r :: u.replies }) ∧
  (∀ (s : State) (w : Nat) (i : Instr), w < 2 ^ 32 → decode (BitVec.ofNat 32 w) = .ok i →
    step (s.withFetchWord 32 w) = exec i
      { s with cmdr := BitVec.ofNat 32 w, busy := true, done := false, err := false, errcode := 0 })

/-! ### Encoding -/

/-- Decoding the word of a well-formed instruction gives the instruction, for every value of every field. -/
def Obligations.DecodeEncode : Prop := ∀ i : Instr, i.wellFormed = true → decode (encode i) = .ok i

/-- A word that decodes is the one word of a well-formed instruction: no bit is ignored (30_encoding.md R83). -/
def Obligations.EncodeDecode : Prop :=
  ∀ (w : Word) (i : Instr), decode w = .ok i → i.wellFormed = true ∧ encode i = w

/-- A word spells a command exactly when `w & mask = match` for a row of the opcode map, SPINIT presets with
`LEN` other than 0 apart (30_encoding.md R83, R85). -/
def Obligations.DecodeByMask : Prop :=
  ∀ w : Word, (∃ i, decode w = .ok i) ↔
    (∃ r ∈ ([(0xFFFFFFFF, 0x00000000), (0xFFFFFFFF, 0x01000000), (0xFF07000F, 0x10000000),
        (0xFF07000F, 0x11000000), (0xFF0700FF, 0x12000000), (0xFF07000F, 0x13000000), (0xFF0700FF, 0x14000000),
        (0xFF07000F, 0x15000000), (0xFF0700FF, 0x16000000), (0xFF0700FF, 0x17000000), (0xFF0700FF, 0x18000000),
        (0xFF07000F, 0x19000000), (0xFF0700FF, 0x1A000000), (0xFFFF00FF, 0x1B000000), (0xFF070FF0, 0x1C000000),
        (0xFF0FF8FF, 0x20000000), (0xFF0F888F, 0x21000000), (0xFF0F88FF, 0x22000000), (0xFF0F8FF0, 0x23000000),
        (0xFF0D880F, 0x28000000), (0xFF0D8F0F, 0x28040000), (0xFF0D000F, 0x29000000), (0xFF0D0F0F, 0x29040000),
        (0xFF00FFFF, 0x40000000), (0xFF000000, 0x41000000), (0xFFFF0000, 0x42000000), (0xFFFFFFFF, 0x43000000),
        (0xFFFF0000, 0x44000000), (0xFFFFFFFF, 0x45000000), (0xFF00FFFF, 0x50000000), (0xFFFE0000, 0x51000000),
        (0xFFFF0000, 0x58000000), (0xFF00FFFF, 0x60000000), (0xFFFF0000, 0x61000000),
        (0xFFFF0000, 0x62000000)] : List (Word × Word)), w &&& r.1 = r.2) ∧
    ¬(w.extractLsb' 24 8 = 0x41 ∧ (w.extractLsb' 16 8).toNat ≤ 9 ∧ w.extractLsb' 0 16 ≠ 0)

/-- Words the spec prints as examples decode to the commands it prints beside them: two words of the system
commands, and at least one of every other family (30_encoding.md R85, 46_ghash.md R273, 48_system.md R300, R301, and
the examples of the other command rules). -/
def Obligations.SampleWords : Prop :=
  decode 0x00000000 = .ok .nop ∧ decode 0x01000000 = .ok .zeroize ∧
  decode 0x13183120 = .ok (.fmul 1 true 3 1 2) ∧ decode 0x1C000003 = .ok (.fldc 0 false 0 3) ∧
  decode 0x21002010 = .ok (.padd 0 2 0 1) ∧ decode 0x28620190 = .ok (.smul 6 true 0 1 9) ∧
  decode 0x28160020 = .ok (.smulG 1 true 0 2) ∧ decode 0x40180000 = .ok (.keccakp 24) ∧
  decode 0x410A9FA8 = .ok (.spinit 10 0x9FA8) ∧ decode 0x51010003 = .ok (.b2comp true 3) ∧
  decode 0x58000002 = .ok (.ghmul 2) ∧ decode 0x62000007 = .ok (.sipfin 7) ∧
  ∀ i, decode 0xFFFFFFFF ≠ .ok i

/-! ### The window and the handshake -/

/-- A `CMD` write while `BUSY = 0` and `ERR = 0` is accepted, whatever the word; a word that spells no command
fails at completion (20_memory.md R61). -/
def Obligations.Accept : Prop :=
  ∀ (s : State) (v : Word), s.busy = false → s.err = false →
    memWrite 0x004 4 v s = ({ s with cmdr := v, busy := true, done := false }, .ok) ∧
    ∀ e, decode v = .error e →
      completeInFlight { s with cmdr := v, busy := true, done := false } =
        .next { s with cmdr := v, busy := false, done := true, err := true, errcode := 8 }

/-- A `CMD` write while `BUSY = 1` or `ERR = 1` is lost and sets `DROP` (20_memory.md R62). -/
def Obligations.Drop : Prop :=
  ∀ (s : State) (v : Word), s.busy = true ∨ s.err = true → memWrite 0x004 4 v s = ({ s with drop := true }, .ok)

/-- The whole of `MemRead`, location by location (20_memory.md R56). -/
def Obligations.ReadMap : Prop :=
  ∀ s : State,
    (∀ (a : Int) (n : Nat), n ≠ 4 ∨ a % 4 ≠ 0 ∨ a < 0 ∨ a > 0xFFC → memRead a n s = (s, .busError)) ∧
    memRead 0x000 4 s = (s, .value 0x4C430007) ∧
    memRead 0x004 4 s = (s, .value s.cmdr) ∧
    memRead 0x008 4 s = (s, .value ((if s.busy then 1 else 0) + (if s.done then 2 else 0) +
      (if s.err then 4 else 0) + (if s.drop then 8 else 0) + (if s.hzd then 16 else 0))) ∧
    memRead 0x00C 4 s = (s, .value (s.errcode.setWidth 32)) ∧
    memRead 0x010 4 s = (s, .value (if s.ie then 1 else 0)) ∧
    (s.busy = true → ∀ a : Nat, dataOffset a → memRead a 4 s = ({ s with hzd := true }, .value 0)) ∧
    (s.busy = false →
      memRead 0x014 4 s = (s, .value (s.data.pinf.setWidth 32)) ∧
      (∀ k : Nat, k < 64 → memRead (0x100 + 4 * k : Nat) 4 s = (s, .value (ctxByte s.data (4 * k + 3) ++
        ctxByte s.data (4 * k + 2) ++ ctxByte s.data (4 * k + 1) ++ ctxByte s.data (4 * k)))) ∧
      (∀ k : Nat, k < 64 → memRead (0x200 + 4 * k : Nat) 4 s = (s, .value (datByte s.data (4 * k + 3) ++
        datByte s.data (4 * k + 2) ++ datByte s.data (4 * k + 1) ++ datByte s.data (4 * k)))) ∧
      (∀ (i : FReg) (w : Fin 18), memRead (0x400 + 0x80 * i.val + 4 * w.val : Nat) 4 s =
        (s, .value (s.data.f[i].extractLsb' (32 * w.val) 32)))) ∧
    (∀ a : Nat, a % 4 = 0 → 0x010 < a → a ≤ 0xFFC → ¬dataOffset a → memRead a 4 s = (s, .busError))

/-- The whole of `MemWrite` but `CMD` (20_memory.md R57), with the `STATUS` write of 10_state.md R29 and the `CTRL`
write of R31. The last branch of the rule's list of data locations is read as a chain (log 11). -/
def Obligations.WriteMap : Prop :=
  ∀ (s : State) (v : Word),
    (∀ (a : Int) (n : Nat), n ≠ 4 ∨ a % 4 ≠ 0 ∨ a < 0 ∨ a > 0xFFC → memWrite a n v s = (s, .busError)) ∧
    memWrite 0x000 4 v s = (s, .busError) ∧ memWrite 0x00C 4 v s = (s, .busError) ∧
    memWrite 0x008 4 v s = ({ s with
      done := s.done && !v.getLsbD 1, err := s.err && !v.getLsbD 2,
      errcode := if v.getLsbD 2 then 0 else s.errcode,
      drop := s.drop && !v.getLsbD 3, hzd := s.hzd && !v.getLsbD 4 }, .ok) ∧
    (v.getLsbD 1 = false → memWrite 0x010 4 v s = ({ s with ie := v.getLsbD 0 }, .ok)) ∧
    (v.getLsbD 1 = true →
      memWrite 0x010 4 v s = ({ State.reset with inputs := s.inputs, replies := s.replies }, .ok)) ∧
    (s.busy = true → ∀ a : Nat, dataOffset a → memWrite a 4 v s = ({ s with hzd := true }, .ok)) ∧
    (s.busy = false → Memory.wf s.data.mem = true →
      memWrite 0x014 4 v s = ({ s with data := { s.data with pinf := v.setWidth 8 } }, .ok) ∧
      (∀ k : Nat, k < 64 → ∃ d, memWrite (0x100 + 4 * k : Nat) 4 v s = ({ s with data := d }, .ok) ∧
        onlyBytes [(0x100 + 4 * k, 4)] s.data d ∧
        ∀ j, j < 4 → ctxByte d (4 * k + j) = v.extractLsb' (8 * j) 8) ∧
      (∀ k : Nat, k < 64 → ∃ d, memWrite (0x200 + 4 * k : Nat) 4 v s = ({ s with data := d }, .ok) ∧
        onlyBytes [(0x200 + 4 * k, 4)] s.data d ∧
        ∀ j, j < 4 → datByte d (4 * k + j) = v.extractLsb' (8 * j) 8) ∧
      (∀ (i : FReg) (w : Fin 18), ∃ d,
        memWrite (0x400 + 0x80 * i.val + 4 * w.val : Nat) 4 v s = ({ s with data := d }, .ok) ∧
        onlyField i s.data d ∧ d.f[i].extractLsb' (32 * w.val) 32 = v ∧
        ∀ u : Fin 18, u ≠ w → d.f[i].extractLsb' (32 * u.val) 32 = s.data.f[i].extractLsb' (32 * u.val) 32)) ∧
    (∀ a : Nat, a % 4 = 0 → 0x010 < a → a ≤ 0xFFC → ¬dataOffset a → memWrite a 4 v s = (s, .busError))

/-- While a command is in flight the host learns nothing of the data state: two machines that differ in it only give
the same replies to the same accesses, until a completion (20_memory.md R59, R64 item 3). -/
def Obligations.BusyHidesData : Prop :=
  ∀ (k : Nat) (s t : State), s.busy = true → sameButData s t → k ≤ s.inputs.length →
    (∀ e ∈ s.inputs.take k, e ≠ .complete) →
    ∃ u v, Host.Core.run Sys2Proof.core k s = .next u ∧ Host.Core.run Sys2Proof.core k t = .next v ∧
      u.replies = v.replies ∧ u.busy = v.busy ∧ u.irq = v.irq

/-- `CMDR` changes only when a word is accepted, to that word, or at a reset, to 0 (10_state.md R26). -/
def Obligations.CommandRegister : Prop :=
  ∀ s t : State, step s = .next t → t.cmdr ≠ s.cmdr →
    (s.busy = false ∧ s.err = false ∧ ∃ v rest, s.inputs = .write 0x004 4 v :: rest ∧ t.cmdr = v) ∨
    (t.cmdr = 0 ∧ ∃ rest, s.inputs = .hardReset :: rest) ∨
    (t.cmdr = 0 ∧ ∃ v rest, s.inputs = .write 0x010 4 v :: rest ∧ v.getLsbD 1 = true)

/-- While an error is pending no command runs and the error stays, until the host clears `ERR` or a reset; clearing
`ERR` after a failed command leaves the state from before it, `DONE` apart (60_exceptions.md R317, 20_memory.md
R62). -/
def Obligations.PendingError : Prop :=
  (∀ s t : State, s.busy = false → s.err = true →
    (∀ rest, s.inputs ≠ .hardReset :: rest) →
    (∀ v rest, s.inputs = .write 0x010 4 v :: rest → v.getLsbD 1 = false) →
    (∀ v rest, s.inputs = .write 0x008 4 v :: rest → v.getLsbD 2 = false) →
    step s = .next t → t.err = true ∧ t.errcode = s.errcode ∧ t.cmdr = s.cmdr ∧ t.busy = false) ∧
  (∀ (s : State) (code : BitVec 4), s.err = false → s.errcode = 0 →
    memWrite 0x008 4 4 (failedWith s code) = ({ s with busy := false, done := true }, .ok))

/-! ### Errors, the interrupt line, the split of the units -/

/-- A well-formed command completes with a result, or ends with an error of a kind that its row of 60_exceptions.md
R312 allows; an error changes `ERR`, `ERRCODE`, `BUSY` and `DONE` and nothing else (R316). -/
def Obligations.ErrorKinds : Prop :=
  ∀ (i : Instr) (s : State), i.wellFormed = true →
    (∃ d, exec i s = .next (finishedWith s d)) ∨
    (∃ code ∈ possibleErrors i, exec i s = .next (failedWith s code))

/-- The interrupt line is `IE and DONE`. Every completion raises it when enabled: that of a decoded command, with or
without error, and that of a word that spells no command. Clearing `DONE` or accepting a command lowers it
(60_exceptions.md R320). When the completing step comes is the model's schedule (log 1). -/
def Obligations.InterruptLine : Prop :=
  (∀ s : State, s.irq = (s.ie && s.done)) ∧
  (∀ (i : Instr) (s t : State), exec i s = .next t → t.irq = s.ie) ∧
  (∀ s t : State, completeInFlight s = .next t → t.irq = s.ie) ∧
  (∀ s t : State, s.busy = true → (s.inputs = [] ∨ ∃ rest, s.inputs = .complete :: rest) → step s = .next t →
    t.irq = s.ie) ∧
  (∀ (s : State) (v : Word), s.busy = false → s.err = false → (memWrite 0x004 4 v s).1.irq = false) ∧
  (∀ s : State, (memWrite 0x008 4 2 s).1.irq = false)

/-- A hash command touches neither `F` nor `PINF`; any other command but ZEROIZE touches neither buffer
(10_state.md R38). -/
def Obligations.UnitsSeparate : Prop :=
  ∀ (i : Instr) (s t : State), exec i s = .next t →
    (isHash i = true → t.data.f = s.data.f ∧ t.data.pinf = s.data.pinf) ∧
    (isHash i = false → i ≠ .zeroize → t.data.mem = s.data.mem)

/-- Only PADD, PDBL, PLDC, SMUL and ZEROIZE change `PINF`, and the first four only the bit of their destination
(10_state.md R27). -/
def Obligations.PinfWriters : Prop :=
  ∀ (i : Instr) (s t : State), i ≠ .zeroize → exec i s = .next t →
    ∀ j : PReg, pointDestination i ≠ some j → readPinf t.data j = readPinf s.data j

/-- The canonical form is one form: two canonical memories that read alike are the same list (log 3). -/
def Obligations.MemoryIsCanonical : Prop :=
  ∀ m n : Memory, Memory.wf m = true → Memory.wf n = true → (∀ a, Memory.read m a = Memory.read n a) → m = n

/-- The latency of a command is positive and a function of public inputs and of the check that failed, family by
family (70_reset_and_hazards.md R362, in the model's form of it, log 7). No data state and no register number for a
word outside the hash commands (40_field.md R114, 43_scalar.md R199); word and header for KECCAKP and the sponge
commands (44_keccak.md R233); fixed for B2INIT and `VAR` for B2COMP (45_blake2.md R260); `LEN` for GHMUL
(46_ghash.md R278); fixed for SIPINIT, `LEN` for SIPBLK, `VAR` for SIPFIN (47_siphash.md R295). -/
def Obligations.LatencyIsPublic : Prop :=
  (∀ (w : Word) (d : Data) (f : Option Failure), 0 < commandLatency w d f) ∧
  (∀ (v w : Word) (d e : Data) (f : Option Failure), isHashWord v = false → isHashWord w = false →
    v >>> 17 = w >>> 17 → commandLatency v d f = commandLatency w e f) ∧
  (∀ (w : Word) (x : Illegal) (d e : Data) (f : Option Failure), decode w = .error x →
    commandLatency w d f = commandLatency w e f) ∧
  (∀ (w : Word) (d e : Data) (f : Option Failure), 0x40 ≤ (w >>> 24).toNat → (w >>> 24).toNat ≤ 0x45 →
    (∀ n ∈ [200, 202, 203, 204, 254, 255], ctxByte d n = ctxByte e n) →
    commandLatency w d f = commandLatency w e f) ∧
  (∀ (v w : Word) (m n : BitVec 8) (d e : Data) (f : Option Failure),
    (decode v = .ok (.b2init m) → decode w = .ok (.b2init n) → commandLatency v d f = commandLatency w e f) ∧
    (decode v = .ok (.sipinit m) → decode w = .ok (.sipinit n) → commandLatency v d f = commandLatency w e f)) ∧
  (∀ (v w : Word) (x y : Bool) (m n : BitVec 16) (d e : Data) (f : Option Failure),
    (decode v = .ok (.b2comp x m) → decode w = .ok (.b2comp y n) → ctxByte d 80 = ctxByte e 80 →
      commandLatency v d f = commandLatency w e f) ∧
    (decode v = .ok (.sipfin m) → decode w = .ok (.sipfin n) → ctxByte d 33 = ctxByte e 33 →
      commandLatency v d f = commandLatency w e f)) ∧
  (∀ (w : Word) (n : BitVec 16) (d e : Data) (f : Option Failure),
    decode w = .ok (.ghmul n) ∨ decode w = .ok (.sipblk n) → commandLatency w d f = commandLatency w e f)

/-! ### System commands -/

/-- NOP changes no data state; ZEROIZE clears all of it and keeps the control state; no other word has their
operation codes (48_system.md R300, R301). -/
def Obligations.SystemCommands : Prop :=
  (∀ s : State, exec .nop s = .next (finishedWith s s.data)) ∧
  (∀ s : State, ∃ t, exec .zeroize s = .next t ∧ completes s t ∧ (∀ r : FReg, t.data.f[r] = 0) ∧
    t.data.pinf = 0 ∧ ∀ a, Memory.read t.data.mem a = 0) ∧
  (∀ w : Word, decode w = .ok .nop ↔ w = 0x00000000) ∧ (∀ w : Word, decode w = .ok .zeroize ↔ w = 0x01000000)

/-! ### Field commands -/

/-- FADD, FSUB, FNEG, FMUL and FSQR: the sum, the difference, the negation, the product and the square modulo the
selected modulus (40_field.md R115 to R119), and nothing else changes. -/
def Obligations.FieldArithmetic : Prop :=
  ∀ (s : State) (crv : CrvField) (c : CurveParams) (ms : Bool) (rd ra rb : FReg) (m a b : Nat),
    curveAt crv = some c → m = (if ms then c.n else c.p) → a = readField s.data ra → b = readField s.data rb → a < m →
    (b < m → ∃ t, exec (.fadd crv ms rd ra rb) s = .next t ∧ completes s t ∧
      readField t.data rd = (if m ≤ a + b then a + b - m else a + b) ∧ onlyField rd s.data t.data) ∧
    (b < m → ∃ t, exec (.fsub crv ms rd ra rb) s = .next t ∧ completes s t ∧
      readField t.data rd = (if a < b then a + m - b else a - b) ∧ onlyField rd s.data t.data) ∧
    (∃ t, exec (.fneg crv ms rd ra) s = .next t ∧ completes s t ∧
      readField t.data rd = (if a = 0 then 0 else m - a) ∧ onlyField rd s.data t.data) ∧
    (b < m → ∃ t, exec (.fmul crv ms rd ra rb) s = .next t ∧ completes s t ∧
      readField t.data rd = a * b % m ∧ onlyField rd s.data t.data) ∧
    (∃ t, exec (.fsqr crv ms rd ra) s = .next t ∧ completes s t ∧
      readField t.data rd = a ^ 2 % m ∧ onlyField rd s.data t.data)

/-- MONTMUL, TOMONT and FROMMONT: the Montgomery product is the residue whose product with `R` is `a * b`, and the two
conversions multiply by `R` and by its inverse (40_field.md R120, R121, R122, R128). -/
def Obligations.FieldMontgomery : Prop :=
  ∀ (s : State) (crv : CrvField) (c : CurveParams) (ms : Bool) (rd ra rb : FReg) (m r a b : Nat),
    curveAt crv = some c → m = (if ms then c.n else c.p) → r = 2 ^ (64 * c.limbs) →
    a = readField s.data ra → b = readField s.data rb → a < m →
    (b < m → ∃ t, exec (.montmul crv ms rd ra rb) s = .next t ∧ completes s t ∧
      readField t.data rd < m ∧ readField t.data rd * r % m = a * b % m ∧ onlyField rd s.data t.data) ∧
    (∃ t, exec (.tomont crv ms rd ra) s = .next t ∧ completes s t ∧
      readField t.data rd = a * r % m ∧ onlyField rd s.data t.data) ∧
    (∃ t, exec (.frommont crv ms rd ra) s = .next t ∧ completes s t ∧
      readField t.data rd < m ∧ readField t.data rd * r % m = a ∧ onlyField rd s.data t.data)

/-- FINV: every operand but 0 completes, and the result is the inverse of an operand that has one, as every operand
has because the moduli are prime (40_field.md R123, R129). -/
def Obligations.FieldInverse : Prop :=
  ∀ (s : State) (crv : CrvField) (c : CurveParams) (ms : Bool) (rd ra : FReg) (m a : Nat),
    curveAt crv = some c → m = (if ms then c.n else c.p) → a = readField s.data ra → a < m → a ≠ 0 →
    ∃ t, exec (.finv crv ms rd ra) s = .next t ∧ completes s t ∧ readField t.data rd < m ∧
      (Nat.Coprime a m → 1 ≤ readField t.data rd ∧ a * readField t.data rd % m = 1) ∧ onlyField rd s.data t.data

/-- FPOW: the power, for every 576-bit exponent, with `a^0 = 1` (40_field.md R124). -/
def Obligations.FieldPower : Prop :=
  ∀ (s : State) (crv : CrvField) (c : CurveParams) (ms : Bool) (rd ra rb : FReg) (m a : Nat),
    curveAt crv = some c → m = (if ms then c.n else c.p) → a = readField s.data ra → a < m →
    ∃ t, exec (.fpow crv ms rd ra rb) s = .next t ∧ completes s t ∧
      readField t.data rd = a ^ readField s.data rb % m ∧ onlyField rd s.data t.data

/-- FRED reduces any register value, FMOV copies one; neither checks its operand (40_field.md R125, R127). -/
def Obligations.FieldMoves : Prop :=
  ∀ (s : State) (rd ra : FReg),
    (∀ (crv : CrvField) (c : CurveParams) (ms : Bool), curveAt crv = some c →
      ∃ t, exec (.fred crv ms rd ra) s = .next t ∧ completes s t ∧
        readField t.data rd = readField s.data ra % (if ms then c.n else c.p) ∧ onlyField rd s.data t.data) ∧
    (∃ t, exec (.fmov rd ra) s = .next t ∧ completes s t ∧ t.data.f[rd] = s.data.f[ra] ∧
      onlyField rd s.data t.data)

/-- FLDC: the twelve constants (40_field.md R126). -/
def Obligations.FieldConstants : Prop :=
  ∀ (s : State) (crv : CrvField) (c : CurveParams) (ms : Bool) (rd : FReg) (m r : Nat),
    curveAt crv = some c → m = (if ms then c.n else c.p) → r = 2 ^ (64 * c.limbs) →
    ∀ x ∈ ([(0, 0), (1, 1), (2, m), (3, r % m), (4, r ^ 2 % m), (5, c.ca), (6, c.cb), (7, c.gx), (8, c.gy),
        (9, c.n), (10, c.p), (11, c.h)] : List (RcField × Nat)),
      ∃ t, exec (.fldc crv ms rd x.1) s = .next t ∧ completes s t ∧ readField t.data rd = x.2 ∧
        onlyField rd s.data t.data

/-- The operand checks of the field commands, in the order `RA`, `RB`, inverse of 0 (40_field.md R112, R113, R123). -/
def Obligations.FieldErrors : Prop :=
  ∀ (s : State) (crv : CrvField) (c : CurveParams) (ms : Bool) (rd ra rb : FReg) (m : Nat),
    curveAt crv = some c → m = (if ms then c.n else c.p) →
    (m ≤ readField s.data ra →
      ∀ i ∈ [Instr.fadd crv ms rd ra rb, .fsub crv ms rd ra rb, .fneg crv ms rd ra, .fmul crv ms rd ra rb,
          .fsqr crv ms rd ra, .montmul crv ms rd ra rb, .tomont crv ms rd ra, .frommont crv ms rd ra,
          .finv crv ms rd ra, .fpow crv ms rd ra rb], exec i s = .next (failedWith s 4)) ∧
    (readField s.data ra < m → m ≤ readField s.data rb →
      ∀ i ∈ [Instr.fadd crv ms rd ra rb, .fsub crv ms rd ra rb, .fmul crv ms rd ra rb, .montmul crv ms rd ra rb],
        exec i s = .next (failedWith s 4)) ∧
    (readField s.data ra = 0 → exec (.finv crv ms rd ra) s = .next (failedWith s 4))

/-- Reserved values in the word give `InvalidParameter` before any operand or context is looked at
(30_encoding.md R86, 60_exceptions.md R318 step 2). -/
def Obligations.ReservedValues : Prop :=
  (∀ (s : State) (crv : CrvField) (ms rk : Bool) (rd ra rb : FReg) (rc : RcField) (pd pa pb : PReg), 8 ≤ crv.val →
    ∀ i ∈ [Instr.fadd crv ms rd ra rb, .fsub crv ms rd ra rb, .fneg crv ms rd ra, .fmul crv ms rd ra rb,
        .fsqr crv ms rd ra, .montmul crv ms rd ra rb, .tomont crv ms rd ra, .frommont crv ms rd ra,
        .finv crv ms rd ra, .fpow crv ms rd ra rb, .fred crv ms rd ra, .fldc crv ms rd rc, .pchk crv pa,
        .padd crv pd pa pb, .pdbl crv pd pa, .pldc crv pd rc, .smul crv rk pd pa rb, .smulG crv rk pd rb,
        .smulx crv rk rd ra rb, .smulxG crv rk rd rb], exec i s = .next (failedWith s 5)) ∧
  (∀ (s : State) (crv : CrvField) (c : CurveParams) (rk : Bool) (rd ra rb : FReg), curveAt crv = some c →
    (∀ a24, c.fam ≠ .montgomery a24) →
    ∀ i ∈ [Instr.smulx crv rk rd ra rb, .smulxG crv rk rd rb], exec i s = .next (failedWith s 5)) ∧
  (∀ (s : State) (crv : CrvField) (ms : Bool) (rd : FReg) (rc : RcField), 12 ≤ rc.val →
    exec (.fldc crv ms rd rc) s = .next (failedWith s 5)) ∧
  (∀ (s : State) (crv : CrvField) (pd : PReg) (rc : RcField), 2 ≤ rc.val →
    exec (.pldc crv pd rc) s = .next (failedWith s 5)) ∧
  (∀ (s : State) (mode : BitVec 8), mode ≠ 12 → mode ≠ 24 → exec (.keccakp mode) s = .next (failedWith s 5)) ∧
  (∀ (s : State) (mode : BitVec 8) (len : BitVec 16), 10 < mode.toNat →
    exec (.spinit mode len) s = .next (failedWith s 5)) ∧
  (∀ (s : State) (len : BitVec 16),
    (len.toNat % 256 % 8 ≠ 0 ∨ len.toNat % 256 < 8 ∨ 192 < len.toNat % 256 ∨ len.toNat / 256 % 128 = 0) →
    exec (.spinit 10 len) s = .next (failedWith s 5)) ∧
  (∀ (s : State) (mode : BitVec 8), 1 < mode.toNat →
    exec (.b2init mode) s = .next (failedWith s 5) ∧ exec (.sipinit mode) s = .next (failedWith s 5))

/-! ### Curves and points -/

/-- The curve ROM, entry by entry and number by number: family, limbs, `p`, `n`, the two coefficients, the base point
and the cofactor (41_curves.md R140 to R148, 00_scope.md R9). Then what the rules say of the numbers: the primes as
sums of powers of 2, the bit lengths of the orders, odd moduli, `n` of Curve25519 and Curve448 as a sum, a base point on
the curve, the ladder constant of the Montgomery curves (R149). -/
def Obligations.CurveRom : Prop :=
  (∀ crv : CrvField, curveAt crv = none ↔ 8 ≤ crv.val) ∧
  (∀ x ∈ ([
      (0,
        { fam := .weierstrass, limbs := 4, h := 1
          p := 0xFFFFFFFFFFFFFFFFFFFFFFFFFFFFFFFFFFFFFFFFFFFFFFFFFFFFFFFEFFFFFC2F
          n := 0xFFFFFFFFFFFFFFFFFFFFFFFFFFFFFFFEBAAEDCE6AF48A03BBFD25E8CD0364141
          ca := 0x0
          cb := 0x7
          gx := 0x79BE667EF9DCBBAC55A06295CE870B07029BFCDB2DCE28D959F2815B16F81798
          gy := 0x483ADA7726A3C4655DA4FBFC0E1108A8FD17B448A68554199C47D08FFB10D4B8 }),
      (1,
        { fam := .weierstrass, limbs := 4, h := 1
          p := 0xFFFFFFFF00000001000000000000000000000000FFFFFFFFFFFFFFFFFFFFFFFF
          n := 0xFFFFFFFF00000000FFFFFFFFFFFFFFFFBCE6FAADA7179E84F3B9CAC2FC632551
          ca := 0xFFFFFFFF00000001000000000000000000000000FFFFFFFFFFFFFFFFFFFFFFFC
          cb := 0x5AC635D8AA3A93E7B3EBBD55769886BC651D06B0CC53B0F63BCE3C3E27D2604B
          gx := 0x6B17D1F2E12C4247F8BCE6E563A440F277037D812DEB33A0F4A13945D898C296
          gy := 0x4FE342E2FE1A7F9B8EE7EB4A7C0F9E162BCE33576B315ECECBB6406837BF51F5 }),
      (2,
        { fam := .weierstrass, limbs := 6, h := 1
          p := 0xFFFFFFFFFFFFFFFFFFFFFFFFFFFFFFFFFFFFFFFFFFFFFFFFFFFFFFFFFFFFFFFEFFFFFFFF0000000000000000FFFFFFFF
          n := 0xFFFFFFFFFFFFFFFFFFFFFFFFFFFFFFFFFFFFFFFFFFFFFFFFC7634D81F4372DDF581A0DB248B0A77AECEC196ACCC52973
          ca := 0xFFFFFFFFFFFFFFFFFFFFFFFFFFFFFFFFFFFFFFFFFFFFFFFFFFFFFFFFFFFFFFFEFFFFFFFF0000000000000000FFFFFFFC
          cb := 0xB3312FA7E23EE7E4988E056BE3F82D19181D9C6EFE8141120314088F5013875AC656398D8A2ED19D2A85C8EDD3EC2AEF
          gx := 0xAA87CA22BE8B05378EB1C71EF320AD746E1D3B628BA79B9859F741E082542A385502F25DBF55296C3A545E3872760AB7
          gy := 0x3617DE4A96262C6F5D9E98BF9292DC29F8F41DBD289A147CE9DA3113B5F0B8C00A60B1CE1D7E819D7A431D7C90EA0E5F }),
      (3,
        { fam := .weierstrass, limbs := 9, h := 1
          p := 0x1FFFFFFFFFFFFFFFFFFFFFFFFFFFFFFFFFFFFFFFFFFFFFFFFFFFFFFFFFFFFFFFFFFFFFFFFFFFFFFFFFFFFFFFFFFFFFFFFFFFFFFFFFFFFFFFFFFFFFFFFFFFFFFFFFF
          n := 0x1FFFFFFFFFFFFFFFFFFFFFFFFFFFFFFFFFFFFFFFFFFFFFFFFFFFFFFFFFFFFFFFFFA51868783BF2F966B7FCC0148F709A5D03BB5C9B8899C47AEBB6FB71E91386409
          ca := 0x1FFFFFFFFFFFFFFFFFFFFFFFFFFFFFFFFFFFFFFFFFFFFFFFFFFFFFFFFFFFFFFFFFFFFFFFFFFFFFFFFFFFFFFFFFFFFFFFFFFFFFFFFFFFFFFFFFFFFFFFFFFFFFFFFFC
          cb := 0x51953EB9618E1C9A1F929A21A0B68540EEA2DA725B99B315F3B8B489918EF109E156193951EC7E937B1652C0BD3BB1BF073573DF883D2C34F1EF451FD46B503F00
          gx := 0xC6858E06B70404E9CD9E3ECB662395B4429C648139053FB521F828AF606B4D3DBAA14B5E77EFE75928FE1DC127A2FFA8DE3348B3C1856A429BF97E7E31C2E5BD66
          gy := 0x11839296A789A3BC0045C8A5FB42C7D1BD998F54449579B446817AFBD17273E662C97EE72995EF42640C550B9013FAD0761353C7086A272C24088BE94769FD16650 }),
      (4,
        { fam := .montgomery 121665, limbs := 4, h := 8
          p := 0x7FFFFFFFFFFFFFFFFFFFFFFFFFFFFFFFFFFFFFFFFFFFFFFFFFFFFFFFFFFFFFED
          n := 0x1000000000000000000000000000000014DEF9DEA2F79CD65812631A5CF5D3ED
          ca := 0x76D06
          cb := 0x1
          gx := 0x9
          gy := 0x20AE19A1B8A086B4E01EDD2C7748D14C923D4D7E6D7C61B229E9C5A27ECED3D9 }),
      (5,
        { fam := .montgomery 39081, limbs := 7, h := 4
          p := 0xFFFFFFFFFFFFFFFFFFFFFFFFFFFFFFFFFFFFFFFFFFFFFFFFFFFFFFFEFFFFFFFFFFFFFFFFFFFFFFFFFFFFFFFFFFFFFFFFFFFFFFFFFFFFFFFF
          n := 0x3FFFFFFFFFFFFFFFFFFFFFFFFFFFFFFFFFFFFFFFFFFFFFFFFFFFFFFF7CCA23E9C44EDB49AED63690216CC2728DC58F552378C292AB5844F3
          ca := 0x262A6
          cb := 0x1
          gx := 0x5
          gy := 0x7D235D1295F5B1F66C98AB6E58326FCECBAE5D34F55545D060F75DC28DF3F6EDB8027E2346430D211312C4B150677AF76FD7223D457B5B1A }),
      (6,
        { fam := .edwards, limbs := 4, h := 8
          p := 0x7FFFFFFFFFFFFFFFFFFFFFFFFFFFFFFFFFFFFFFFFFFFFFFFFFFFFFFFFFFFFFED
          n := 0x1000000000000000000000000000000014DEF9DEA2F79CD65812631A5CF5D3ED
          ca := 0x7FFFFFFFFFFFFFFFFFFFFFFFFFFFFFFFFFFFFFFFFFFFFFFFFFFFFFFFFFFFFFEC
          cb := 0x52036CEE2B6FFE738CC740797779E89800700A4D4141D8AB75EB4DCA135978A3
          gx := 0x216936D3CD6E53FEC0A4E231FDD6DC5C692CC7609525A7B2C9562D608F25D51A
          gy := 0x6666666666666666666666666666666666666666666666666666666666666658 }),
      (7,
        { fam := .edwards, limbs := 7, h := 4
          p := 0xFFFFFFFFFFFFFFFFFFFFFFFFFFFFFFFFFFFFFFFFFFFFFFFFFFFFFFFEFFFFFFFFFFFFFFFFFFFFFFFFFFFFFFFFFFFFFFFFFFFFFFFFFFFFFFFF
          n := 0x3FFFFFFFFFFFFFFFFFFFFFFFFFFFFFFFFFFFFFFFFFFFFFFFFFFFFFFF7CCA23E9C44EDB49AED63690216CC2728DC58F552378C292AB5844F3
          ca := 0x1
          cb := 0xFFFFFFFFFFFFFFFFFFFFFFFFFFFFFFFFFFFFFFFFFFFFFFFFFFFFFFFEFFFFFFFFFFFFFFFFFFFFFFFFFFFFFFFFFFFFFFFFFFFFFFFFFFFF6756
          gx := 0x4F1970C66BED0DED221D15A622BF36DA9E146570470F1767EA6DE324A3D3A46412AE1AF72AB66511433B80E18B00938E2626A82BC70CC05E
          gy := 0x693F46716EB6BC248876203756C9C7624BEA73736CA3984087789C1E05A0C2D73AD3FF1CE67C39C4FDBD132C4ED7C8AD9808795BF230FA14 })]
      : List (CrvField × CurveParams)),
    curveAt x.1 = some x.2) ∧
  (∀ x ∈ ([(0, .weierstrass, 2 ^ 256 - 2 ^ 32 - 977, 256, 4),
      (1, .weierstrass, 2 ^ 256 - 2 ^ 224 + 2 ^ 192 + 2 ^ 96 - 1, 256, 4),
      (2, .weierstrass, 2 ^ 384 - 2 ^ 128 - 2 ^ 96 + 2 ^ 32 - 1, 384, 6),
      (3, .weierstrass, 2 ^ 521 - 1, 521, 9), (4, .montgomery 121665, 2 ^ 255 - 19, 253, 4),
      (5, .montgomery 39081, 2 ^ 448 - 2 ^ 224 - 1, 446, 7), (6, .edwards, 2 ^ 255 - 19, 253, 4),
      (7, .edwards, 2 ^ 448 - 2 ^ 224 - 1, 446, 7)] : List (CrvField × Family × Nat × Nat × Nat)),
    ∃ c, curveAt x.1 = some c ∧ c.fam = x.2.1 ∧ c.p = x.2.2.1 ∧ 2 ^ (x.2.2.2.1 - 1) ≤ c.n ∧ c.n < 2 ^ x.2.2.2.1 ∧
      c.limbs = x.2.2.2.2 ∧ 2 ^ (64 * (c.limbs - 1)) ≤ c.p ∧ c.p < 2 ^ (64 * c.limbs) ∧ c.p % 2 = 1 ∧ c.n % 2 = 1 ∧
      c.gx < c.p ∧ c.gy < c.p ∧ onCurve c c.gx c.gy = true) ∧
  (∀ x ∈ ([(4, 2 ^ 252 + 27742317777372353535851937790883648493),
      (5, 2 ^ 446 - 13818066809895115352007386748515426880336692474882178609894547503885),
      (6, 2 ^ 252 + 27742317777372353535851937790883648493),
      (7, 2 ^ 446 - 13818066809895115352007386748515426880336692474882178609894547503885)] : List (CrvField × Nat)),
    ∃ c, curveAt x.1 = some c ∧ c.n = x.2) ∧
  (∀ (crv : CrvField) (c : CurveParams) (a24 : Nat), curveAt crv = some c → c.fam = .montgomery a24 →
    4 * a24 + 2 = c.ca ∧ c.cb = 1)

/-- PCHK, PADD, PDBL and PLDC on operands they accept: what is written to which point register, and nothing else
(42_point.md R171 to R174; 41_curves.md R151, R152). -/
def Obligations.PointCommands : Prop :=
  ∀ (s : State) (crv : CrvField) (c : CurveParams) (rd ra rb : PReg) (P Q : Point), curveAt crv = some c →
    (holdsPoint c s.data ra P → exec (.pchk crv ra) s = .next (finishedWith s s.data)) ∧
    (holdsPoint c s.data ra P → holdsPoint c s.data rb Q →
      ∃ t, exec (.padd crv rd ra rb) s = .next t ∧ completes s t ∧ storesPoint t.data rd (addPoint c P Q) ∧
        onlyPoint rd s.data t.data) ∧
    (holdsPoint c s.data ra P →
      ∃ t, exec (.pdbl crv rd ra) s = .next t ∧ completes s t ∧ storesPoint t.data rd (addPoint c P P) ∧
        onlyPoint rd s.data t.data) ∧
    (∃ t, exec (.pldc crv rd 0) s = .next t ∧ completes s t ∧
      storesPoint t.data rd (if c.fam = .edwards then .affine 0 1 else .inf) ∧ onlyPoint rd s.data t.data) ∧
    (∃ t, exec (.pldc crv rd 1) s = .next t ∧ completes s t ∧ storesPoint t.data rd (.affine c.gx c.gy) ∧
      onlyPoint rd s.data t.data)

/-- A point operand that is not a valid point of the curve ends the command with `InvalidPoint`: a coordinate not below
`p`, the equation not satisfied, or the identity flag on an Edwards curve (41_curves.md R150, R151; 42_point.md R170).
The three equations modulo `p`, family by family (R149), and the validity of a point (R150). -/
def Obligations.PointErrors : Prop :=
  (∀ (c : CurveParams) (x y : Nat),
    (c.fam = .weierstrass → (onCurve c x y = true ↔ (y : Int) ^ 2 ≡ x ^ 3 + c.ca * x + c.cb [ZMOD c.p])) ∧
    (∀ a24, c.fam = .montgomery a24 → (onCurve c x y = true ↔ (y : Int) ^ 2 ≡ x ^ 3 + c.ca * x ^ 2 + x [ZMOD c.p])) ∧
    (c.fam = .edwards →
      (onCurve c x y = true ↔ (c.ca : Int) * x ^ 2 + y ^ 2 ≡ 1 + c.cb * x ^ 2 * y ^ 2 [ZMOD c.p])) ∧
    (validPoint c (.affine x y) = true ↔ x < c.p ∧ y < c.p ∧ onCurve c x y = true) ∧
    (validPoint c .inf = true ↔ c.fam ≠ .edwards)) ∧
  ∀ (s : State) (crv : CrvField) (c : CurveParams) (rk : Bool) (rd ra rb : PReg) (k : FReg), curveAt crv = some c →
    ((readPinf s.data ra = true ∧ c.fam = .edwards) ∨
      (readPinf s.data ra = false ∧ (c.p ≤ readField s.data (xReg ra) ∨ c.p ≤ readField s.data (yReg ra) ∨
        onCurve c (readField s.data (xReg ra)) (readField s.data (yReg ra)) = false)) →
      ∀ i ∈ [Instr.pchk crv ra, .padd crv rd ra rb, .pdbl crv rd ra, .smul crv rk rd ra k],
        exec i s = .next (failedWith s 2)) ∧
    (∀ P, holdsPoint c s.data ra P → (∀ Q, ¬holdsPoint c s.data rb Q) →
      exec (.padd crv rd ra rb) s = .next (failedWith s 2))

/-- The addition laws by their slopes and quotients, with no inverse in the statement: the chord, the tangent and the
opposite points of the Weierstrass and Montgomery families, and the Edwards law (41_curves.md R153, R154, R155). -/
def Obligations.AddLaw : Prop :=
  ∀ c : CurveParams, 1 < c.p → c.p < 2 ^ 576 → ∀ x1 y1 x2 y2 : Nat,
    (c.fam ≠ .edwards → x1 ≠ x2 → Int.gcd ((x2 : Int) - x1) c.p = 1 →
      ∃ (l : Int) (x3 y3 : Nat), addPoint c (.affine x1 y1) (.affine x2 y2) = .affine x3 y3 ∧ x3 < c.p ∧ y3 < c.p ∧
        l * (x2 - x1) ≡ y2 - y1 [ZMOD c.p] ∧ (x3 : Int) ≡ l ^ 2 - chordShift c - x1 - x2 [ZMOD c.p] ∧
        (y3 : Int) ≡ l * (x1 - x3) - y1 [ZMOD c.p]) ∧
    (c.fam ≠ .edwards → (y1 + y2) % c.p ≠ 0 → Int.gcd (2 * (y1 : Int)) c.p = 1 →
      ∃ (l : Int) (x3 y3 : Nat), addPoint c (.affine x1 y1) (.affine x1 y2) = .affine x3 y3 ∧ x3 < c.p ∧ y3 < c.p ∧
        l * (2 * y1) ≡ tangentNumerator c x1 [ZMOD c.p] ∧
        (x3 : Int) ≡ l ^ 2 - chordShift c - x1 - x1 [ZMOD c.p] ∧ (y3 : Int) ≡ l * (x1 - x3) - y1 [ZMOD c.p]) ∧
    (c.fam ≠ .edwards → (y1 + y2) % c.p = 0 → addPoint c (.affine x1 y1) (.affine x1 y2) = .inf) ∧
    (∀ t : Int, c.fam = .edwards → t = c.cb * x1 * x2 * y1 * y2 → Int.gcd (1 + t) c.p = 1 →
      Int.gcd (1 - t) c.p = 1 →
      ∃ x3 y3 : Nat, addPoint c (.affine x1 y1) (.affine x2 y2) = .affine x3 y3 ∧ x3 < c.p ∧ y3 < c.p ∧
        x3 * (1 + t) ≡ x1 * y2 + y1 * x2 [ZMOD c.p] ∧ y3 * (1 - t) ≡ y1 * y2 - c.ca * x1 * x2 [ZMOD c.p])

/-- The sum of two valid points is a valid point, wherever the divisors of the law are invertible: on a Weierstrass or
Montgomery curve that of the slope, on an Edwards curve the two quotients' (41_curves.md R158 fact 1; 42_point.md
R177). -/
def Obligations.AddIsClosed : Prop :=
  (∀ (crv : CrvField) (c : CurveParams) (P Q : Point), curveAt crv = some c → c.fam ≠ .edwards →
    validPoint c P = true → validPoint c Q = true → slopeDefined c P Q → validPoint c (addPoint c P Q) = true) ∧
  (∀ (crv : CrvField) (c : CurveParams) (x1 y1 x2 y2 : Nat) (t : Int), curveAt crv = some c → c.fam = .edwards →
    validPoint c (.affine x1 y1) = true → validPoint c (.affine x2 y2) = true → t = c.cb * x1 * x2 * y1 * y2 →
    Int.gcd (1 + t) c.p = 1 → Int.gcd (1 - t) c.p = 1 →
    validPoint c (addPoint c (.affine x1 y1) (.affine x2 y2)) = true)

/-- The identity is neutral on both sides, its double is itself, and a point and its negative add up to it: on the
Weierstrass and Montgomery curves always, on the Edwards curves where the divisor of the second coordinate is
invertible (41_curves.md R158 facts 3, 4, 5). The identity is the point at infinity, and `(0, 1)` on an Edwards curve
(R156); the negative changes the sign of `y`, and of `x` on an Edwards curve (R157). -/
def Obligations.AddIdentity : Prop :=
  (∀ c : CurveParams, identity c = (if c.fam = .edwards then .affine 0 1 else .inf) ∧ negPoint c .inf = .inf ∧
    ∀ x y : Nat, negPoint c (.affine x y) =
      if c.fam = .edwards then .affine ((c.p - x) % c.p) y else .affine x ((c.p - y) % c.p)) ∧
  ∀ (crv : CrvField) (c : CurveParams) (P : Point), curveAt crv = some c → validPoint c P = true →
    addPoint c P (identity c) = P ∧ addPoint c (identity c) P = P ∧ dblPoint c (identity c) = identity c ∧
    (c.fam ≠ .edwards → addPoint c P (negPoint c P) = identity c) ∧
    (∀ x y u : Nat, c.fam = .edwards → P = .affine x y → u = (c.p - x) % c.p →
      Int.gcd (1 - (c.cb : Int) * x * u * y * y) c.p = 1 → addPoint c P (negPoint c P) = identity c)

/-! ### Scalar commands -/

/-- SMUL and SMUL.G on operands they accept: the multiple of the point, in the model's way of computing it (log 5),
and nothing else (43_scalar.md R191, R192). -/
def Obligations.ScalarMultiply : Prop :=
  ∀ (s : State) (crv : CrvField) (c : CurveParams) (rk : Bool) (rd ra : PReg) (rb : FReg) (P : Point),
    curveAt crv = some c → scalarAccepted c s.data rk rb →
    (holdsPoint c s.data ra P →
      ∃ t, exec (.smul crv rk rd ra rb) s = .next t ∧ completes s t ∧
        storesPoint t.data rd (mulPoint c (readField s.data rb) P) ∧ onlyPoint rd s.data t.data) ∧
    (∃ t, exec (.smulG crv rk rd rb) s = .next t ∧ completes s t ∧
      storesPoint t.data rd (mulPoint c (readField s.data rb) (.affine c.gx c.gy)) ∧ onlyPoint rd s.data t.data)

/-- Doubling and adding computes the multiple that 41_curves.md R157 defines, for every point whose multiples add as
R158 fact 7 says. `mulPoint`, the multiple that the commands store, is that multiple for every scalar of `64 L` bits. -/
def Obligations.MulBitsIsMul : Prop :=
  ∀ (c : CurveParams) (P : Point),
    (mulSpec c P 0 = identity c ∧ ∀ k, mulSpec c P (k + 1) = addPoint c (mulSpec c P k) P) ∧
    ((∀ j k, addPoint c (mulSpec c P j) (mulSpec c P k) = mulSpec c P (j + k)) →
      (∀ bits k, k < 2 ^ bits → mulBits c P bits k = mulSpec c P k) ∧
      ∀ k, k < 2 ^ (64 * c.limbs) → mulPoint c k P = mulSpec c P k)

/-- The multiples by 0, 1 and 2 of a valid point are the identity, the point and its double
(43_scalar.md R203). -/
def Obligations.SmallScalars : Prop :=
  ∀ (crv : CrvField) (c : CurveParams) (P : Point), curveAt crv = some c → validPoint c P = true →
    mulPoint c 0 P = identity c ∧ mulPoint c 1 P = P ∧ mulPoint c 2 P = addPoint c P P

/-- SMULX and SMULX.G on operands they accept: the ladder's value, below `p`, which is 0 for `k = 0` and for `u = 0`;
`PINF` is untouched (43_scalar.md R195, R196). -/
def Obligations.XOnlyMultiply : Prop :=
  ∀ (s : State) (crv : CrvField) (c : CurveParams) (a24 : Nat) (rk : Bool) (rd ra rb : FReg),
    curveAt crv = some c → c.fam = .montgomery a24 → scalarAccepted c s.data rk rb →
    (readField s.data ra < c.p →
      ∃ t, exec (.smulx crv rk rd ra rb) s = .next t ∧ completes s t ∧
        readField t.data rd = ladder c.p a24 c.limbs (readField s.data rb) (readField s.data ra) ∧
        readField t.data rd < c.p ∧
        (readField s.data rb = 0 ∨ readField s.data ra = 0 → readField t.data rd = 0) ∧
        onlyField rd s.data t.data) ∧
    (∃ t, exec (.smulxG crv rk rd rb) s = .next t ∧ completes s t ∧
      readField t.data rd = ladder c.p a24 c.limbs (readField s.data rb) c.gx ∧ readField t.data rd < c.p ∧
      (readField s.data rb = 0 → readField t.data rd = 0) ∧ onlyField rd s.data t.data)

/-- The scalar checks: too wide, or outside `[1, n-1]` with `RK = 1`, after the point operand has passed; and a
u-coordinate of SMULX not below `p` (43_scalar.md R190, R192, R195). -/
def Obligations.ScalarErrors : Prop :=
  ∀ (s : State) (crv : CrvField) (c : CurveParams) (rk : Bool) (pd pa : PReg) (rd ra rb : FReg),
    curveAt crv = some c →
    ((2 ^ (64 * c.limbs) ≤ readField s.data rb ∨
        (rk = true ∧ (readField s.data rb = 0 ∨ c.n ≤ readField s.data rb))) →
      (∀ P, holdsPoint c s.data pa P → exec (.smul crv rk pd pa rb) s = .next (failedWith s 3)) ∧
      exec (.smulG crv rk pd rb) s = .next (failedWith s 3) ∧
      (∀ a24, c.fam = .montgomery a24 → readField s.data ra < c.p →
        exec (.smulx crv rk rd ra rb) s = .next (failedWith s 3)) ∧
      (∀ a24, c.fam = .montgomery a24 → exec (.smulxG crv rk rd rb) s = .next (failedWith s 3))) ∧
    (∀ a24, c.fam = .montgomery a24 → c.p ≤ readField s.data ra →
      exec (.smulx crv rk rd ra rb) s = .next (failedWith s 2))

/-! ### Keccak and the sponge -/

/-- KECCAKP permutes `DAT[0..199]` and changes nothing else (44_keccak.md R216). The permutation reads the string as 25
lanes, bit `z` of lane `(x, y)` at bit `z mod 8` of byte `8 (5 y + x) + z div 8`, writes it back the same way (R211),
and runs the last rounds of the 24 in order, theta, rho with pi, chi, iota in each (R217); iota exclusive-ors the
round constant into lane `(0, 0)` (R215). -/
def Obligations.KeccakCommand : Prop :=
  (∀ (s : State) (mode : BitVec 8), mode = 12 ∨ mode = 24 → Memory.wf s.data.mem = true →
    ∃ t, exec (.keccakp mode) s = .next t ∧ completes s t ∧
      readDat t.data 0 200 = keccakP (readDat s.data 0 200) mode.toNat ∧ onlyBytes [(datBase, 200)] s.data t.data) ∧
  (∀ bs : List Byte,
    keccakP bs 24 = bytesOfLanes ((List.range 24).foldl keccakRound (lanesOfBytes bs)) ∧
    keccakP bs 12 = bytesOfLanes (((List.range 24).drop 12).foldl keccakRound (lanesOfBytes bs))) ∧
  (∀ (A : List Lane) (ir : Nat), keccakRound A ir = iota (chi (rhoPi (theta A))) ir) ∧
  (∀ q ∈ ([(0, 0x1), (12, 0x8000808B), (1, 0x8082), (13, 0x800000000000008B), (2, 0x800000000000808A),
        (14, 0x8000000000008089), (3, 0x8000000080008000), (15, 0x8000000000008003), (4, 0x808B),
        (16, 0x8000000000008002), (5, 0x80000001), (17, 0x8000000000000080), (6, 0x8000000080008081),
        (18, 0x800A), (7, 0x8000000000008009), (19, 0x800000008000000A), (8, 0x8A), (20, 0x8000000080008081),
        (9, 0x88), (21, 0x8000000000008080), (10, 0x80008009), (22, 0x80000001), (11, 0x8000000A),
        (23, 0x8000000080008008)] : List (Nat × Lane)),
    ∀ (A : List Lane) (x y : Nat), x < 5 → y < 5 →
      lane (iota A q.1) x y = if x = 0 ∧ y = 0 then lane A 0 0 ^^^ q.2 else lane A x y) ∧
  (∀ (bs : List Byte) (x y z : Nat), x < 5 → y < 5 → z < 64 →
    (lane (lanesOfBytes bs) x y).getLsbD z = (bs.getD (8 * (5 * y + x) + z / 8) 0).getLsbD (z % 8)) ∧
  (∀ A : List Lane, A.length = 25 → (bytesOfLanes A).length = 200 ∧ lanesOfBytes (bytesOfLanes A) = A)

/-- The steps theta, rho with pi, and chi, lane by lane, and the rotation offsets, as the table and by the walk that
assigns them (44_keccak.md R212, R213, R214). -/
def Obligations.KeccakSteps : Prop :=
  (∀ (A : List Lane) (C : Nat → Lane),
    (∀ x, C x = lane A x 0 ^^^ lane A x 1 ^^^ lane A x 2 ^^^ lane A x 3 ^^^ lane A x 4) →
    ∀ x y, x < 5 → y < 5 →
      lane (theta A) x y = lane A x y ^^^ (C ((x + 4) % 5) ^^^ (C ((x + 1) % 5)).rotateLeft 1)) ∧
  (∀ (A : List Lane) (x y : Nat), x < 5 → y < 5 →
    lane (rhoPi A) y ((2 * x + 3 * y) % 5) = (lane A x y).rotateLeft (rhoOffset x y)) ∧
  (rhoOffset 0 0 = 0 ∧ ∀ t, t < 24 → ∀ q : Nat × Nat,
    q = (fun z : Nat × Nat => (z.2, (2 * z.1 + 3 * z.2) % 5))^[t] (1, 0) →
      rhoOffset q.1 q.2 = (t + 1) * (t + 2) / 2 % 64) ∧
  (∀ q ∈ ([(0, [0, 1, 62, 28, 27]), (1, [36, 44, 6, 55, 20]), (2, [3, 10, 43, 25, 39]), (3, [41, 45, 15, 21, 8]),
      (4, [18, 2, 61, 56, 14])] : List (Nat × List Nat)), ∀ x, x < 5 → rhoOffset x q.1 = q.2.getD x 0) ∧
  (∀ (B : List Lane) (x y : Nat), x < 5 → y < 5 →
    lane (chi B) x y = lane B x y ^^^ (~~~lane B ((x + 1) % 5) y &&& lane B ((x + 2) % 5) y))

/-- SPINIT: each preset and the RAW form create the context they name, whatever `CTX` held, and change nothing
else (44_keccak.md R221, R222, R223). -/
def Obligations.SpongeCreate : Prop :=
  ∀ s : State, Memory.wf s.data.mem = true →
    (∀ x ∈ ([(0, 144, 0x01, 28), (1, 136, 0x01, 32), (2, 104, 0x01, 48), (3, 72, 0x01, 64), (4, 144, 0x06, 28),
        (5, 136, 0x06, 32), (6, 104, 0x06, 48), (7, 72, 0x06, 64), (8, 168, 0x1F, 0),
        (9, 136, 0x1F, 0)] : List (BitVec 8 × Nat × Nat × Nat)),
      ∃ t, exec (.spinit x.1 0) s = .next t ∧ completes s t ∧ freshSponge t.data x.2.1 x.2.2.1 24 x.2.2.2 ∧
        onlyBytes [(ctxBase, 256)] s.data t.data) ∧
    (∀ (rate dsuf : Nat) (twelve : Bool), rate % 8 = 0 → 8 ≤ rate → rate ≤ 192 → 1 ≤ dsuf → dsuf ≤ 0x7F →
      ∃ t, exec (.spinit 10 (BitVec.ofNat 16 (rate + 256 * dsuf + if twelve then 0x8000 else 0))) s = .next t ∧
        completes s t ∧ freshSponge t.data rate dsuf (if twelve then 12 else 24) 0 ∧
        onlyBytes [(ctxBase, 256)] s.data t.data)

/-- SPABS absorbs `LEN` bytes of `DAT`, SPFIN pads, permutes and opens the squeezing phase; the rest of the context and
`DAT` stay (44_keccak.md R225, R226). Absorbing a byte exclusive-ors it in at `POS` and permutes as soon as the block
is full; finishing exclusive-ors `DSUF` in at `POS` and 0x80 at `RATE - 1`, perhaps the same byte, and permutes
(R218). -/
def Obligations.SpongeAbsorb : Prop :=
  (∀ (v : Sponge) (b : Byte) (sa : List Byte), v.sa.length = 200 → v.pos < v.rate → v.rate ≤ 200 → sa.length = 200 →
    ((∀ i, i < 200 → sa.getD i 0 = v.sa.getD i 0 ^^^ (if i = v.pos then b else 0)) →
      absorbByte v b = if v.pos + 1 = v.rate then { v with sa := keccakP sa v.nr, pos := 0 }
        else { v with sa := sa, pos := v.pos + 1 }) ∧
    ((∀ i, i < 200 → sa.getD i 0 =
        v.sa.getD i 0 ^^^ (if i = v.pos then v.dsuf else 0) ^^^ (if i = v.rate - 1 then 0x80 else 0)) →
      finishSponge v = { v with sa := keccakP sa v.nr, pos := 0 })) ∧
  ∀ s : State, Memory.wf s.data.mem = true → spongeReady 1 s.data →
    (∀ len : BitVec 16, len.toNat ≤ 256 →
      ∃ t, exec (.spabs len) s = .next t ∧ completes s t ∧
        readSponge t.data = (readDat s.data 0 len.toNat).foldl absorbByte (readSponge s.data) ∧
        (readSponge t.data).pos < (readSponge t.data).rate ∧
        onlyBytes [(ctxBase, 200), (ctxBase + 203, 1)] s.data t.data) ∧
    (∃ t, exec .spfin s = .next t ∧ completes s t ∧ readSponge t.data = finishSponge (readSponge s.data) ∧
      (readSponge t.data).pos = 0 ∧ ctxPhase t.data = 2 ∧
      onlyBytes [(ctxBase, 200), (ctxBase + 203, 1), (ctxBase + 255, 1)] s.data t.data)

/-- SPSQZ delivers `LEN` squeezed bytes, SPDIG pads and delivers the digest and closes the context; the other bytes of
both buffers stay (44_keccak.md R227, R228). Squeezing a byte permutes first when the block is used up, then delivers
the byte at `POS`; several bytes are squeezed one after the other (R218). -/
def Obligations.SpongeSqueeze : Prop :=
  (∀ v w : Sponge, w = (if v.pos = v.rate then { v with sa := keccakP v.sa v.nr, pos := 0 } else v) →
    squeezeByte v = (w.sa.getD w.pos 0, { w with pos := w.pos + 1 })) ∧
  (∀ (v : Sponge) (n : Nat), squeezeBytes 0 v = ([], v) ∧
    squeezeBytes (n + 1) v =
      ((squeezeBytes n v).1 ++ [(squeezeByte (squeezeBytes n v).2).1], (squeezeByte (squeezeBytes n v).2).2)) ∧
  ∀ s : State, Memory.wf s.data.mem = true →
    (∀ len : BitVec 16, spongeReady 2 s.data → len ≠ 0 → len.toNat ≤ 256 →
      ∃ t, exec (.spsqz len) s = .next t ∧ completes s t ∧
        readDat t.data 0 len.toNat = (squeezeBytes len.toNat (readSponge s.data)).1 ∧
        readSponge t.data = (squeezeBytes len.toNat (readSponge s.data)).2 ∧
        (readSponge t.data).pos ≤ (readSponge t.data).rate ∧
        onlyBytes [(ctxBase, 200), (ctxBase + 203, 1), (datBase, len.toNat)] s.data t.data) ∧
    (∀ n : Nat, spongeReady 1 s.data → n = (ctxByte s.data 204).toNat → n ≠ 0 →
      ∃ t, exec .spdig s = .next t ∧ completes s t ∧
        readDat t.data 0 n = (squeezeBytes n (finishSponge (readSponge s.data))).1 ∧
        readSponge t.data = (squeezeBytes n (finishSponge (readSponge s.data))).2 ∧ ctxPhase t.data = 3 ∧
        onlyBytes [(ctxBase, 200), (ctxBase + 203, 1), (ctxBase + 255, 1), (datBase, n)] s.data t.data)

/-- Absorbing in two pieces is absorbing at once: SPABS of the first bytes, then SPABS of the following ones written to
the front of `DAT`, leaves the `CTX` of one SPABS (44_keccak.md R225). It runs `exec` on states with `BUSY = 0`, as the
model's `exec` allows (log 12). -/
def Obligations.AbsorbSplit : Prop :=
  ∀ (s : State) (a b : BitVec 16), Memory.wf s.data.mem = true → spongeReady 1 s.data → a.toNat + b.toNat ≤ 256 →
    ∃ t u v, exec (.spabs a) s = .next t ∧
      exec (.spabs b) { t with data := writeDat 0 (readDat s.data a.toNat b.toNat) t.data } = .next u ∧
      exec (.spabs (a + b)) s = .next v ∧ readCtx u.data 0 256 = readCtx v.data 0 256

/-- The extendable-output property: SPSQZ `a` then SPSQZ `b` deliver the bytes of SPSQZ `a + b` and leave its context
(44_keccak.md R230). It runs `exec` on states with `BUSY = 0`, as the model's `exec` allows (log 12). -/
def Obligations.SqueezeStream : Prop :=
  ∀ (s : State) (a b : BitVec 16), Memory.wf s.data.mem = true → spongeReady 2 s.data → a ≠ 0 → b ≠ 0 →
    a.toNat + b.toNat ≤ 256 →
    ∃ t u v, exec (.spsqz a) s = .next t ∧ exec (.spsqz b) t = .next u ∧ exec (.spsqz (a + b)) s = .next v ∧
      readDat v.data 0 (a.toNat + b.toNat) = readDat t.data 0 a.toNat ++ readDat u.data 0 b.toNat ∧
      readCtx u.data 0 256 = readCtx v.data 0 256

/-- SPDIG is SPFIN followed by SPSQZ of the digest length, except that it closes the context (44_keccak.md R228). -/
def Obligations.DigestIsSqueeze : Prop :=
  ∀ s : State, Memory.wf s.data.mem = true → spongeReady 1 s.data → ctxByte s.data 204 ≠ 0 →
    ∃ t u v, exec .spdig s = .next t ∧ exec .spfin s = .next u ∧
      exec (.spsqz ((ctxByte s.data 204).setWidth 16)) u = .next v ∧
      readDat t.data 0 256 = readDat v.data 0 256 ∧ readCtx t.data 0 255 = readCtx v.data 0 255 ∧
      ctxPhase t.data = 3 ∧ ctxPhase v.data = 2

/-- The errors of the sponge commands in their order: kind and phase, header, zero length, excess length
(44_keccak.md R219, R225 to R228; 60_exceptions.md R318 steps 3 to 6). -/
def Obligations.SpongeErrors : Prop :=
  ∀ (s : State) (len : BitVec 16),
    (∀ x ∈ [(Instr.spabs len, 1), (.spfin, 1), (.spdig, 1), (.spsqz len, 2)],
      (ctxKind s.data ≠ 1 ∨ ctxPhase s.data ≠ x.2 → exec x.1 s = .next (failedWith s 7)) ∧
      (ctxKind s.data = 1 → ctxPhase s.data = x.2 → ¬spongeHeader x.2 s.data →
        exec x.1 s = .next (failedWith s 5))) ∧
    (spongeReady 1 s.data → 256 < len.toNat → exec (.spabs len) s = .next (failedWith s 1)) ∧
    (spongeReady 1 s.data → ctxByte s.data 204 = 0 → exec .spdig s = .next (failedWith s 5)) ∧
    (spongeReady 2 s.data → exec (.spsqz 0) s = .next (failedWith s 5)) ∧
    (spongeReady 2 s.data → 256 < len.toNat → exec (.spsqz len) s = .next (failedWith s 1))

/-! ### BLAKE2 -/

/-- B2INIT creates the context of its variant from the parameter block in `DAT`, whatever `CTX` held
(45_blake2.md R256), with the initialisation vectors (R251) and the sizes, round counts and rotations (R250) of the two
variants. -/
def Obligations.Blake2Create : Prop :=
  (blake2b.iv = [0x6A09E667F3BCC908, 0xBB67AE8584CAA73B, 0x3C6EF372FE94F82B, 0xA54FF53A5F1D36F1,
      0x510E527FADE682D1, 0x9B05688C2B3E6C1F, 0x1F83D9ABFB41BD6B, 0x5BE0CD19137E2179] ∧
    blake2b.wb = 8 ∧ blake2b.bs = 128 ∧ blake2b.rounds = 12 ∧ blake2b.dmax = 64 ∧
    blake2b.r1 = 32 ∧ blake2b.r2 = 24 ∧ blake2b.r3 = 16 ∧ blake2b.r4 = 63) ∧
  (blake2s.iv = [0x6A09E667, 0xBB67AE85, 0x3C6EF372, 0xA54FF53A, 0x510E527F, 0x9B05688C, 0x1F83D9AB, 0x5BE0CD19] ∧
    blake2s.wb = 4 ∧ blake2s.bs = 64 ∧ blake2s.rounds = 10 ∧ blake2s.dmax = 32 ∧
    blake2s.r1 = 16 ∧ blake2s.r2 = 12 ∧ blake2s.r3 = 8 ∧ blake2s.r4 = 7) ∧
  ∀ s : State, Memory.wf s.data.mem = true → 1 ≤ (datByte s.data 0).toNat →
    ((datByte s.data 0).toNat ≤ 64 → (datByte s.data 1).toNat ≤ 64 →
      ∃ t, exec (.b2init 0) s = .next t ∧ completes s t ∧
        (∀ i, i < 8 → leWordAt 64 (readCtx t.data (8 * i) 8) 0 8 =
          wordAt blake2b.iv i ^^^ leWordAt 64 (readDat s.data (8 * i) 8) 0 8) ∧
        ctxByte t.data 80 = 0 ∧ ctxByte t.data 81 = datByte s.data 0 ∧ ctxKind t.data = 2 ∧ ctxPhase t.data = 1 ∧
        (∀ i, 64 ≤ i → i < 254 → i ≠ 81 → ctxByte t.data i = 0) ∧
        onlyBytes [(ctxBase, 256)] s.data t.data) ∧
    ((datByte s.data 0).toNat ≤ 32 → (datByte s.data 1).toNat ≤ 32 →
      ∃ t, exec (.b2init 1) s = .next t ∧ completes s t ∧
        (∀ i, i < 8 → leWordAt 32 (readCtx t.data (4 * i) 4) 0 4 =
          wordAt blake2s.iv i ^^^ leWordAt 32 (readDat s.data (4 * i) 4) 0 4) ∧
        ctxByte t.data 80 = 1 ∧ ctxByte t.data 81 = datByte s.data 0 ∧ ctxKind t.data = 2 ∧ ctxPhase t.data = 1 ∧
        (∀ i, 32 ≤ i → i < 254 → i ≠ 80 → i ≠ 81 → ctxByte t.data i = 0) ∧
        onlyBytes [(ctxBase, 256)] s.data t.data)

/-- B2COMP and B2COMP.FINAL: the block is the first `LEN` bytes of `DAT` padded with zeros, the counter advances by
`LEN` modulo its width, the chaining value is compressed, a final block closes the context, and nothing else changes
(45_blake2.md R257). The compression starts from `h` and `IV` with the counter in words 12 and 13 and the finalisation
flag in word 14, runs the rounds, and exclusive-ors the two halves into `h`; round `r` is its eight calls of `G` in
order, with the message words that row `r mod 10` of the schedule names (R252, R254). -/
def Obligations.Blake2Compress : Prop :=
  (∀ (w : Nat) (B : Blake2 w) (h v : List (BitVec w)) (t : Nat) (final : Bool), h.length = 8 →
    v = blake2Start B h t final →
    v.length = 16 ∧ (∀ i, i < 8 → wordAt v i = wordAt h i) ∧
    (∀ i, i < 8 → i ∉ [4, 5, 6] → wordAt v (8 + i) = wordAt B.iv i) ∧
    wordAt v 12 = wordAt B.iv 4 ^^^ BitVec.ofNat w (t % 2 ^ w) ∧
    wordAt v 13 = wordAt B.iv 5 ^^^ BitVec.ofNat w (t / 2 ^ w) ∧
    wordAt v 14 = if final then wordAt B.iv 6 ^^^ BitVec.ofNat w (2 ^ w - 1) else wordAt B.iv 6) ∧
  (∀ x ∈ ([(0, [0, 1, 2, 3, 4, 5, 6, 7, 8, 9, 10, 11, 12, 13, 14, 15]),
      (1, [14, 10, 4, 8, 9, 15, 13, 6, 1, 12, 0, 2, 11, 7, 5, 3]),
      (2, [11, 8, 12, 0, 5, 2, 15, 13, 10, 14, 3, 6, 7, 1, 9, 4]),
      (3, [7, 9, 3, 1, 13, 12, 11, 14, 2, 6, 5, 10, 4, 0, 15, 8]),
      (4, [9, 0, 5, 7, 2, 4, 10, 15, 14, 1, 11, 12, 6, 8, 3, 13]),
      (5, [2, 12, 6, 10, 0, 11, 8, 3, 4, 13, 7, 5, 15, 14, 1, 9]),
      (6, [12, 5, 1, 15, 14, 13, 4, 10, 0, 7, 6, 3, 9, 2, 8, 11]),
      (7, [13, 11, 7, 14, 12, 1, 3, 9, 5, 0, 15, 4, 8, 6, 2, 10]),
      (8, [6, 15, 14, 9, 11, 3, 0, 8, 12, 2, 13, 7, 1, 4, 10, 5]),
      (9, [10, 2, 8, 4, 7, 6, 1, 5, 15, 11, 9, 14, 3, 12, 13, 0])] : List (Nat × List Nat)),
    ∀ (w : Nat) (B : Blake2 w) (m v : List (BitVec w)) (r : Nat) (word : Nat → BitVec w), r % 10 = x.1 →
      (∀ i, word i = wordAt m (x.2.getD i 0)) →
      blake2Round B m v r =
        ([(0, 4, 8, 12, 0), (1, 5, 9, 13, 2), (2, 6, 10, 14, 4), (3, 7, 11, 15, 6), (0, 5, 10, 15, 8), (1, 6, 11, 12, 10),
          (2, 7, 8, 13, 12), (3, 4, 9, 14, 14)] : List (Nat × Nat × Nat × Nat × Nat)).foldl
          (fun v q => blake2G B q.1 q.2.1 q.2.2.1 q.2.2.2.1 (word q.2.2.2.2) (word (q.2.2.2.2 + 1)) v) v) ∧
  (∀ (w : Nat) (B : Blake2 w) (h m v : List (BitVec w)) (block : List Byte) (t : Nat) (final : Bool),
    m = (List.range 16).map (fun i => leWordAt w block (B.wb * i) B.wb) →
    v = (List.range B.rounds).foldl (blake2Round B m) (blake2Start B h t final) →
    (blake2F B h block t final).length = 8 ∧
    ∀ i, i < 8 → wordAt (blake2F B h block t final) i = wordAt h i ^^^ wordAt v i ^^^ wordAt v (i + 8)) ∧
  ∀ (s : State) (final : Bool) (len : BitVec 16) (n t0 : Nat), Memory.wf s.data.mem = true → blake2Ready s.data →
    n = len.toNat →
    (ctxByte s.data 80 = 0 → n ≤ 128 → t0 = (leNat (readCtx s.data 64 16) + n) % 2 ^ 128 →
      ∃ t, exec (.b2comp final len) s = .next t ∧ completes s t ∧ leNat (readCtx t.data 64 16) = t0 ∧
        (List.range 8).map (fun i => leWordAt 64 (readCtx t.data (8 * i) 8) 0 8) =
          blake2F blake2b ((List.range 8).map fun i => leWordAt 64 (readCtx s.data (8 * i) 8) 0 8)
            (readDat s.data 0 n ++ List.replicate (128 - n) 0) t0 final ∧
        ctxPhase t.data = (if final then 3 else 1) ∧
        onlyBytes [(ctxBase, 64), (ctxBase + 64, 16), (ctxBase + 255, if final then 1 else 0)] s.data t.data) ∧
    (ctxByte s.data 80 = 1 → n ≤ 64 → t0 = (leNat (readCtx s.data 64 8) + n) % 2 ^ 64 →
      ∃ t, exec (.b2comp final len) s = .next t ∧ completes s t ∧ leNat (readCtx t.data 64 8) = t0 ∧
        (List.range 8).map (fun i => leWordAt 32 (readCtx t.data (4 * i) 4) 0 4) =
          blake2F blake2s ((List.range 8).map fun i => leWordAt 32 (readCtx s.data (4 * i) 4) 0 4)
            (readDat s.data 0 n ++ List.replicate (64 - n) 0) t0 final ∧
        ctxPhase t.data = (if final then 3 else 1) ∧
        onlyBytes [(ctxBase, 32), (ctxBase + 64, 8), (ctxBase + 255, if final then 1 else 0)] s.data t.data)

/-- The mixing function `G` on four different words of the working vector (45_blake2.md R253). -/
def Obligations.Blake2Mix : Prop :=
  ∀ (w : Nat) (B : Blake2 w) (v : List (BitVec w)) (a b c d : Nat) (x y : BitVec w),
    v.length = 16 → a < 16 → b < 16 → c < 16 → d < 16 → a ≠ b → a ≠ c → a ≠ d → b ≠ c → b ≠ d → c ≠ d →
    ∀ a1 d1 c1 b1 a2 d2 c2 b2 : BitVec w,
      a1 = wordAt v a + wordAt v b + x → d1 = (wordAt v d ^^^ a1).rotateRight B.r1 →
      c1 = wordAt v c + d1 → b1 = (wordAt v b ^^^ c1).rotateRight B.r2 →
      a2 = a1 + b1 + y → d2 = (d1 ^^^ a2).rotateRight B.r3 →
      c2 = c1 + d2 → b2 = (b1 ^^^ c2).rotateRight B.r4 →
      wordAt (blake2G B a b c d x y v) a = a2 ∧ wordAt (blake2G B a b c d x y v) b = b2 ∧
      wordAt (blake2G B a b c d x y v) c = c2 ∧ wordAt (blake2G B a b c d x y v) d = d2 ∧
      ∀ i, i < 16 → i ≠ a → i ≠ b → i ≠ c → i ≠ d → wordAt (blake2G B a b c d x y v) i = wordAt v i

/-! ### GHASH -/

/-- GHMUL folds `LEN` blocks of `DAT` into `Y` and changes nothing else; the grouping of blocks into commands does not
matter (46_ghash.md R273, R275). -/
def Obligations.GhashFold : Prop :=
  ∀ s : State, Memory.wf s.data.mem = true →
    (∀ len : BitVec 16, len.toNat ≤ 16 →
      ∃ t, exec (.ghmul len) s = .next t ∧ completes s t ∧
        blockOfBytes (readCtx t.data 0 16) =
          (List.range len.toNat).foldl (fun y i => gfMul (y ^^^ blockOfBytes (readDat s.data (16 * i) 16))
            (blockOfBytes (readCtx s.data 16 16))) (blockOfBytes (readCtx s.data 0 16)) ∧
        onlyBytes [(ctxBase, 16)] s.data t.data) ∧
    (∀ a b : BitVec 16, a.toNat + b.toNat ≤ 16 →
      ∃ t u v, exec (.ghmul a) s = .next t ∧
        exec (.ghmul b) { t with data := writeDat 0 (readDat s.data (16 * a.toNat) (16 * b.toNat)) t.data } =
          .next u ∧
        exec (.ghmul (a + b)) s = .next v ∧ readCtx u.data 0 256 = readCtx v.data 0 256)

/-- The product of GF(2^128): commutative, associative, distributive over exclusive-or, with zero and with the
identity block `80 00 .. 00`. The product with `40 00 .. 00`, the polynomial `x`, shifts by one and reduces by
`x^128 + x^7 + x^2 + x + 1`, so with the other laws every product is fixed. The coefficient of `x^i` in a block is bit
`7 - i mod 8` of its byte `i div 8` (46_ghash.md R270, R271). -/
def Obligations.GhashAlgebra : Prop :=
  (∀ x y : BitVec 128, gfMul x y = gfMul y x) ∧
  (∀ x y z : BitVec 128, gfMul (gfMul x y) z = gfMul x (gfMul y z)) ∧
  (∀ x y z : BitVec 128, gfMul x (y ^^^ z) = gfMul x y ^^^ gfMul x z) ∧
  (∀ x : BitVec 128, gfMul x 0 = 0) ∧
  (∀ y : BitVec 128, gfMul (blockOfBytes (0x80 :: List.replicate 15 0)) y = y) ∧
  (∀ y : BitVec 128, gfMul (blockOfBytes (0x40 :: List.replicate 15 0)) y =
    if y.getLsbD 0 then (y >>> 1) ^^^ (0xE1#128 <<< 120) else y >>> 1) ∧
  (∀ (bs : List Byte) (i : Nat), bs.length = 16 → i < 128 →
    (blockOfBytes bs).getLsbD (127 - i) = (bs.getD (i / 8) 0).getLsbD (7 - i % 8))

/-! ### SipHash -/

/-- SIPINIT creates a context from the key in `DAT[0..15]`, whatever `CTX` held (47_siphash.md R288). The words of the
key, as all words of the buffers but GHASH's, are little-endian: `LE` of a byte string, the string of an integer, and a
word inside a longer string (00_scope.md R13). -/
def Obligations.SipCreate : Prop :=
  (∀ bs : List Byte, leNat bs = ∑ i ∈ Finset.range bs.length, (bs.getD i 0).toNat * 256 ^ i) ∧
  (∀ v k : Nat, (leBytes v k).length = k ∧ leNat (leBytes v k) = v % 256 ^ k) ∧
  (∀ (w off k j : Nat) (bs : List Byte), j < w → j < 8 * k →
    (leWordAt w bs off k).getLsbD j = (bs.getD (off + j / 8) 0).getLsbD (j % 8)) ∧
  ∀ (s : State) (wide : Bool) (k0 k1 : Lane), Memory.wf s.data.mem = true →
    k0 = leWordAt 64 (readDat s.data 0 8) 0 8 → k1 = leWordAt 64 (readDat s.data 8 8) 0 8 →
    ∃ t, exec (.sipinit (if wide then 1 else 0)) s = .next t ∧ completes s t ∧
      (readSip t.data).v0 = k0 ^^^ 0x736F6D6570736575 ∧
      (readSip t.data).v1 = k1 ^^^ 0x646F72616E646F6D ^^^ (if wide then 0xEE else 0) ∧
      (readSip t.data).v2 = k0 ^^^ 0x6C7967656E657261 ∧ (readSip t.data).v3 = k1 ^^^ 0x7465646279746573 ∧
      ctxByte t.data 33 = (if wide then 1 else 0) ∧ ctxKind t.data = 3 ∧ ctxPhase t.data = 1 ∧
      (∀ i, 32 ≤ i → i < 254 → i ≠ 33 → ctxByte t.data i = 0) ∧ onlyBytes [(ctxBase, 256)] s.data t.data

/-- SIPBLK absorbs whole words and counts their bytes; SIPFIN absorbs the tail under the length byte, finalises,
delivers 8 or 16 bytes and closes the context (47_siphash.md R289, R290). The round by its fourteen assignments (R285),
`compress` by two rounds (R286), the finalisation by its constants and its four rounds, once or twice (R290). -/
def Obligations.SipAbsorbFinish : Prop :=
  (∀ v0 v1 v2 v3 p0 p1 p2 p3 q0 q1 q2 q3 : Lane,
    p0 = v0 + v1 → p1 = v1.rotateLeft 13 ^^^ p0 → p2 = v2 + v3 → p3 = v3.rotateLeft 16 ^^^ p2 →
    q0 = p0.rotateLeft 32 + p3 → q3 = p3.rotateLeft 21 ^^^ q0 → q2 = p2 + p1 → q1 = p1.rotateLeft 17 ^^^ q2 →
    sipRound ⟨v0, v1, v2, v3⟩ = ⟨q0, q1, q2.rotateLeft 32, q3⟩) ∧
  (∀ (v u : Sip) (m : Lane), u = sipRound^[2] ⟨v.v0, v.v1, v.v2, v.v3 ^^^ m⟩ →
    sipCompress v m = ⟨u.v0 ^^^ m, u.v1, u.v2, u.v3⟩) ∧
  (∀ v a : Sip, a = sipRound^[4] ⟨v.v0, v.v1, v.v2 ^^^ 0xFF, v.v3⟩ →
    sipFinish false v = (leBytes (a.v0 ^^^ a.v1 ^^^ a.v2 ^^^ a.v3).toNat 8, a)) ∧
  (∀ v a b : Sip, a = sipRound^[4] ⟨v.v0, v.v1, v.v2 ^^^ 0xEE, v.v3⟩ →
    b = sipRound^[4] ⟨a.v0, a.v1 ^^^ 0xDD, a.v2, a.v3⟩ →
    sipFinish true v = (leBytes (a.v0 ^^^ a.v1 ^^^ a.v2 ^^^ a.v3).toNat 8 ++
      leBytes (b.v0 ^^^ b.v1 ^^^ b.v2 ^^^ b.v3).toNat 8, b)) ∧
  ∀ (s : State) (len : BitVec 16) (n : Nat), Memory.wf s.data.mem = true → sipReady s.data → n = len.toNat →
    (n ≤ 256 → n % 8 = 0 →
      ∃ t, exec (.sipblk len) s = .next t ∧ completes s t ∧
        readSip t.data = (List.range (n / 8)).foldl
          (fun v i => sipCompress v (leWordAt 64 (readDat s.data (8 * i) 8) 0 8)) (readSip s.data) ∧
        (ctxByte t.data 32).toNat = ((ctxByte s.data 32).toNat + n) % 256 ∧
        onlyBytes [(ctxBase, 33)] s.data t.data) ∧
    (∀ (wide : Bool) (mlen : Nat) (last : Lane), n ≤ 7 → ctxByte s.data 33 = (if wide then 1 else 0) →
      mlen = ((ctxByte s.data 32).toNat + n) % 256 →
      last = BitVec.ofNat 64 (mlen * 2 ^ 56 + leNat (readDat s.data 0 n)) →
      ∃ t, exec (.sipfin len) s = .next t ∧ completes s t ∧
        readDat t.data 0 (if wide then 16 else 8) = (sipFinish wide (sipCompress (readSip s.data) last)).1 ∧
        readSip t.data = (sipFinish wide (sipCompress (readSip s.data) last)).2 ∧
        (ctxByte t.data 32).toNat = mlen ∧ ctxPhase t.data = 3 ∧
        onlyBytes [(ctxBase, 33), (ctxBase + 255, 1), (datBase, if wide then 16 else 8)] s.data t.data)

/-- The errors of the BLAKE2, GHASH and SipHash commands, in their order (45_blake2.md R256, R257; 46_ghash.md R273;
47_siphash.md R289, R290; 60_exceptions.md R318 steps 3 to 6). -/
def Obligations.HashErrors : Prop :=
  ∀ (s : State) (final : Bool) (len : BitVec 16),
    (∀ x ∈ ([(0, 64), (1, 32)] : List (BitVec 8 × Nat)),
      (datByte s.data 0 = 0 ∨ x.2 < (datByte s.data 0).toNat ∨ x.2 < (datByte s.data 1).toNat) →
      exec (.b2init x.1) s = .next (failedWith s 5)) ∧
    (ctxKind s.data ≠ 2 ∨ ctxPhase s.data ≠ 1 → exec (.b2comp final len) s = .next (failedWith s 7)) ∧
    (ctxKind s.data = 2 → ctxPhase s.data = 1 → ¬blake2Header s.data →
      exec (.b2comp final len) s = .next (failedWith s 5)) ∧
    (blake2Ready s.data → blake2Block (ctxByte s.data 80).toNat < len.toNat →
      exec (.b2comp final len) s = .next (failedWith s 1)) ∧
    (16 < len.toNat → exec (.ghmul len) s = .next (failedWith s 1)) ∧
    (∀ i ∈ [Instr.sipblk len, .sipfin len],
      (ctxKind s.data ≠ 3 ∨ ctxPhase s.data ≠ 1 → exec i s = .next (failedWith s 7)) ∧
      (ctxKind s.data = 3 → ctxPhase s.data = 1 → 1 < (ctxByte s.data 33).toNat →
        exec i s = .next (failedWith s 5))) ∧
    (sipReady s.data → (256 < len.toNat ∨ len.toNat % 8 ≠ 0) → exec (.sipblk len) s = .next (failedWith s 1)) ∧
    (sipReady s.data → 7 < len.toNat → exec (.sipfin len) s = .next (failedWith s 1))

/-! ### The x-only ladder -/

/-- The value that SMULX writes, by the formulas of 43_scalar.md R196. The ladder passes over all `64 L` bits of the
scalar from the top, from `x2 = 1, z2 = 0, x3 = u, z3 = 1`, and answers `x2 * z2^(p-2)` after a last exchange. One pass
exchanges the two pairs when the bit differs from the one before, and then computes the four values below modulo `p`,
each reduced. -/
def Obligations.LadderByFormulas : Prop :=
  (∀ (p a24 x1 : Nat) (kt swap : Bool) (x2 z2 x3 z3 : Nat) (X2 Z2 X3 Z3 A B E DA CB : Int), 0 < p →
    (X2, Z2, X3, Z3) =
      (if swap = kt then ((x2, z2, x3, z3) : Int × Int × Int × Int) else (x3, z3, x2, z2)) →
    A = X2 + Z2 → B = X2 - Z2 → E = A ^ 2 - B ^ 2 → DA = (X3 - Z3) * A → CB = (X3 + Z3) * B →
    ∃ v : Ladder, ladderStep p a24 x1 kt ⟨x2, z2, x3, z3, swap⟩ = v ∧ v.swap = kt ∧
      v.x2 < p ∧ v.z2 < p ∧ v.x3 < p ∧ v.z3 < p ∧
      (v.x3 : Int) ≡ (DA + CB) ^ 2 [ZMOD p] ∧ (v.z3 : Int) ≡ x1 * (DA - CB) ^ 2 [ZMOD p] ∧
      (v.x2 : Int) ≡ A ^ 2 * B ^ 2 [ZMOD p] ∧ (v.z2 : Int) ≡ E * (A ^ 2 + a24 * E) [ZMOD p]) ∧
  (∀ (p a24 limbs k u : Nat) (v : Ladder), p < 2 ^ 576 →
    v = (List.range (64 * limbs)).reverse.foldl (fun v t => ladderStep p a24 u (k.testBit t) v) ⟨1, 0, u, 1, false⟩ →
    ladder p a24 limbs k u = if v.swap then v.x3 * v.z3 ^ (p - 2) % p else v.x2 * v.z2 ^ (p - 2) % p)
end

