-- ==== Sys2Proof/Laws/Bytes.lean ====
section
/-! SUPPORT. Byte strings and their integers. -/

namespace Sys2Proof.Machine

@[simp] theorem leBytes_length (v k : Nat) : (leBytes v k).length = k := by
  induction k generalizing v with
  | zero => rfl
  | succ k ih => simp [leBytes, ih]

@[simp] theorem beBytes_length (v k : Nat) : (beBytes v k).length = k := by simp [beBytes]

/-- The integer of a byte string is below `256` to its length. -/
theorem leNat_lt (bs : List Byte) : leNat bs < 256 ^ bs.length := by
  induction bs with
  | nil => simp [leNat]
  | cons b bs ih =>
    have := b.isLt
    simp only [leNat, List.length_cons, pow_succ]
    omega

/-- `LE(le_bytes(v, k)) = v mod 256^k` (00_scope.md R13). -/
theorem leNat_leBytes (v k : Nat) : leNat (leBytes v k) = v % 256 ^ k := by
  induction k generalizing v with
  | zero => simp [leBytes, leNat, Nat.mod_one]
  | succ k ih =>
    have h : (BitVec.ofNat 8 v).toNat = v % 256 := by simp
    rw [leBytes, leNat, ih, h, pow_succ', Nat.mod_mul]

/-- `le_bytes(LE(b), |b|) = b` (00_scope.md R13). -/
theorem leBytes_leNat (bs : List Byte) : leBytes (leNat bs) bs.length = bs := by
  induction bs with
  | nil => rfl
  | cons b bs ih =>
    have hb := b.isLt
    have h1 : BitVec.ofNat 8 (leNat (b :: bs)) = b := by
      apply BitVec.eq_of_toNat_eq
      simp only [leNat, BitVec.toNat_ofNat]
      omega
    have h2 : leNat (b :: bs) / 256 = leNat bs := by simp only [leNat]; omega
    rw [List.length_cons, leBytes, h1, h2, ih]

/-- `BE(be_bytes(v, k)) = v mod 256^k` (00_scope.md R13). -/
theorem beNat_beBytes (v k : Nat) : beNat (beBytes v k) = v % 256 ^ k := by
  simp [beNat, beBytes, leNat_leBytes]

/-- A word written as bytes and read back. -/
theorem leWordAt_leBytes {w k : Nat} (v : BitVec w) (h : 2 ^ w = 256 ^ k) :
    leWordAt w (leBytes v.toNat k) 0 k = v := by
  have hl : (leBytes v.toNat k).take k = leBytes v.toNat k := List.take_of_length_le (by simp)
  rw [leWordAt, List.drop_zero, hl, leNat_leBytes, ← h, Nat.mod_eq_of_lt v.isLt, BitVec.ofNat_toNat,
    BitVec.setWidth_eq]

end Sys2Proof.Machine
end

