-- ==== Sys2Proof/Laws/Encode.lean ====
section
/-! SUPPORT. The bits of the two formats, and each field read back from them (30_encoding.md R81, R82). -/

namespace Sys2Proof

/-- Bit `i` of a format P word. -/
theorem formatP_getLsbD (opc : BitVec 8) (crv : BitVec 4) (ms g rk : Bool) (rd ra rb rc : BitVec 4) (i : Nat)
    (h : i < 32) :
    (formatP opc crv ms g rk rd ra rb rc).getLsbD i =
      if i < 4 then rc.getLsbD i else if i < 8 then rb.getLsbD (i - 4) else if i < 12 then ra.getLsbD (i - 8)
      else if i < 16 then rd.getLsbD (i - 12) else if i = 16 then false else if i = 17 then rk
      else if i = 18 then g else if i = 19 then ms else if i < 24 then crv.getLsbD (i - 20)
      else opc.getLsbD (i - 24) := by
  unfold formatP
  repeat rw [BitVec.getLsbD_append]
  interval_cases i <;> simp

/-- Bit `i` of a format P word, as an element. -/
@[simp] theorem formatP_getElem (opc : BitVec 8) (crv : BitVec 4) (ms g rk : Bool) (rd ra rb rc : BitVec 4)
    (i : Nat) (h : i < 32) :
    (formatP opc crv ms g rk rd ra rb rc)[i] =
      if i < 4 then rc.getLsbD i else if i < 8 then rb.getLsbD (i - 4) else if i < 12 then ra.getLsbD (i - 8)
      else if i < 16 then rd.getLsbD (i - 12) else if i = 16 then false else if i = 17 then rk
      else if i = 18 then g else if i = 19 then ms else if i < 24 then crv.getLsbD (i - 20)
      else opc.getLsbD (i - 24) := by
  rw [← BitVec.getLsbD_eq_getElem, formatP_getLsbD _ _ _ _ _ _ _ _ _ _ h]

/-- Bit `i` of a format H word, as an element. -/
@[simp] theorem formatH_getElem (opc mode : BitVec 8) (len : BitVec 16) (i : Nat) (h : i < 32) :
    (formatH opc mode len)[i] =
      if i < 16 then len.getLsbD i else if i < 24 then mode.getLsbD (i - 16) else opc.getLsbD (i - 24) := by
  rw [← BitVec.getLsbD_eq_getElem]
  unfold formatH
  repeat rw [BitVec.getLsbD_append]
  interval_cases i <;> simp

section P
variable (opc : BitVec 8) (crv : BitVec 4) (ms g rk : Bool) (rd ra rb rc : BitVec 4)

@[simp] theorem opcField_formatP : opcField (formatP opc crv ms g rk rd ra rb rc) = opc := by
  unfold opcField
  ext i hi
  interval_cases i <;> simp

@[simp] theorem crvField_formatP : crvField (formatP opc crv ms g rk rd ra rb rc) = crv.toFin := by
  unfold crvField
  congr 1
  ext i hi
  interval_cases i <;> simp

@[simp] theorem msField_formatP : msField (formatP opc crv ms g rk rd ra rb rc) = ms := by
  simp [msField]

@[simp] theorem rkField_formatP : rkField (formatP opc crv ms g rk rd ra rb rc) = rk := by
  simp [rkField]

@[simp] theorem rdField_formatP : rdField (formatP opc crv ms g rk rd ra rb rc) = rd.toFin := by
  unfold rdField
  congr 1
  ext i hi
  interval_cases i <;> simp

@[simp] theorem raField_formatP : raField (formatP opc crv ms g rk rd ra rb rc) = ra.toFin := by
  unfold raField
  congr 1
  ext i hi
  interval_cases i <;> simp

@[simp] theorem rbField_formatP : rbField (formatP opc crv ms g rk rd ra rb rc) = rb.toFin := by
  unfold rbField
  congr 1
  ext i hi
  interval_cases i <;> simp

@[simp] theorem rcField_formatP : rcField (formatP opc crv ms g rk rd ra rb rc) = rc.toFin := by
  unfold rcField
  congr 1
  ext i hi
  interval_cases i <;> simp

end P

/-- A point register number read back from its four-bit field. -/
theorem pointNibble_low (j : PReg) : (pointNibble j).extractLsb' 0 3 = BitVec.ofFin j := by
  revert j
  decide

@[simp] theorem pdField_formatP (opc : BitVec 8) (crv : BitVec 4) (ms g rk : Bool) (j : PReg) (ra rb rc : BitVec 4) :
    pdField (formatP opc crv ms g rk (pointNibble j) ra rb rc) = j := by
  have h : (formatP opc crv ms g rk (pointNibble j) ra rb rc).extractLsb' 12 3 =
      (pointNibble j).extractLsb' 0 3 := by
    ext i hi
    interval_cases i <;> simp
  rw [pdField, h, pointNibble_low]

@[simp] theorem paField_formatP (opc : BitVec 8) (crv : BitVec 4) (ms g rk : Bool) (j : PReg) (rd rb rc : BitVec 4) :
    paField (formatP opc crv ms g rk rd (pointNibble j) rb rc) = j := by
  have h : (formatP opc crv ms g rk rd (pointNibble j) rb rc).extractLsb' 8 3 =
      (pointNibble j).extractLsb' 0 3 := by
    ext i hi
    interval_cases i <;> simp
  rw [paField, h, pointNibble_low]

@[simp] theorem pbField_formatP (opc : BitVec 8) (crv : BitVec 4) (ms g rk : Bool) (j : PReg) (rd ra rc : BitVec 4) :
    pbField (formatP opc crv ms g rk rd ra (pointNibble j) rc) = j := by
  have h : (formatP opc crv ms g rk rd ra (pointNibble j) rc).extractLsb' 4 3 =
      (pointNibble j).extractLsb' 0 3 := by
    ext i hi
    interval_cases i <;> simp
  rw [pbField, h, pointNibble_low]

@[simp] theorem opcField_formatH (opc mode : BitVec 8) (len : BitVec 16) :
    opcField (formatH opc mode len) = opc := by
  unfold opcField
  ext i hi
  interval_cases i <;> simp

@[simp] theorem modeField_formatH (opc mode : BitVec 8) (len : BitVec 16) :
    modeField (formatH opc mode len) = mode := by
  unfold modeField
  ext i hi
  interval_cases i <;> simp

@[simp] theorem lenField_formatH (opc mode : BitVec 8) (len : BitVec 16) :
    lenField (formatH opc mode len) = len := by
  unfold lenField
  ext i hi
  interval_cases i <;> simp

@[simp] theorem nibble_toFin (r : Fin 16) : (nibble r).toFin = r := rfl

end Sys2Proof
end

