-- ==== Sys2Proof/Laws/Memory.lean ====
section
/-! SUPPORT. Reads and writes of the byte buffers, and their canonical form. -/

namespace Sys2Proof.Machine

/-! ### One byte -/

/-- Below the lower bound of a canonical list nothing is listed. -/
theorem read_below {lo a : Nat} {m : Memory} (h : Memory.canonicalFrom lo m = true) (ha : a < lo) :
    Memory.read m a = unlistedByte := by
  induction m generalizing lo with
  | nil => rfl
  | cons x m ih =>
    obtain ⟨k, b⟩ := x
    simp only [Memory.canonicalFrom, Bool.and_eq_true, decide_eq_true_eq] at h
    obtain ⟨⟨⟨hk, -⟩, -⟩, hm⟩ := h
    rw [Memory.read, if_neg (by omega)]
    exact ih hm (by omega)

/-- A canonical list is canonical from every smaller bound. -/
theorem canonicalFrom_mono {lo lo' : Nat} {m : Memory} (h : Memory.canonicalFrom lo m = true) (hl : lo' ≤ lo) :
    Memory.canonicalFrom lo' m = true := by
  cases m with
  | nil => rfl
  | cons x m =>
    obtain ⟨k, b⟩ := x
    simp only [Memory.canonicalFrom, Bool.and_eq_true, decide_eq_true_eq] at h ⊢
    obtain ⟨⟨⟨hk, h2⟩, h3⟩, hm⟩ := h
    exact ⟨⟨⟨by omega, h2⟩, h3⟩, hm⟩

/-- A write leaves every other byte alone, in any list. -/
theorem read_write_other {a b : Nat} (h : a ≠ b) (m : Memory) (v : Byte) :
    Memory.read (Memory.write m b v) a = Memory.read m a := by
  induction m with
  | nil =>
    simp only [Memory.write]
    split
    · rfl
    · simp [Memory.read, Ne.symm h]
  | cons x m ih =>
    obtain ⟨k, c⟩ := x
    simp only [Memory.write]
    split
    · split
      · rfl
      · simp [Memory.read, Ne.symm h]
    · split
      · next h2 =>
        subst h2
        split <;> simp [Memory.read, Ne.symm h]
      · simp only [Memory.read, ih]

/-- A written byte reads back, in a canonical list. -/
theorem read_write_same {lo : Nat} {m : Memory} (h : Memory.canonicalFrom lo m = true) (a : Nat) (v : Byte) :
    Memory.read (Memory.write m a v) a = v := by
  induction m generalizing lo with
  | nil =>
    simp only [Memory.write]
    split
    · next hv => rw [hv]; rfl
    · simp [Memory.read]
  | cons x m ih =>
    obtain ⟨k, c⟩ := x
    simp only [Memory.canonicalFrom, Bool.and_eq_true, decide_eq_true_eq] at h
    obtain ⟨⟨⟨hk, h2⟩, h3⟩, hm⟩ := h
    simp only [Memory.write]
    split
    · next hak =>
      split
      · next hv =>
        rw [Memory.read, if_neg (by omega), hv]
        exact read_below hm (by omega)
      · simp [Memory.read]
    · split
      · next hak =>
        split
        · next hv => rw [hv]; exact read_below hm (by omega)
        · simp [Memory.read]
      · next hak =>
        rw [Memory.read, if_neg (Ne.symm hak)]
        exact ih hm

/-- A write keeps the canonical form. -/
theorem write_canonicalFrom {lo : Nat} {m : Memory} (h : Memory.canonicalFrom lo m = true) {a : Nat} (v : Byte)
    (ha : lo ≤ a) (hb : a < bufferEnd) : Memory.canonicalFrom lo (Memory.write m a v) = true := by
  induction m generalizing lo with
  | nil =>
    simp only [Memory.write]
    split
    · rfl
    · next hv => simp [Memory.canonicalFrom, ha, hb, hv]
  | cons x m ih =>
    obtain ⟨k, c⟩ := x
    have h0 := h
    simp only [Memory.canonicalFrom, Bool.and_eq_true, decide_eq_true_eq] at h
    obtain ⟨⟨⟨hk, h2⟩, h3⟩, hm⟩ := h
    simp only [Memory.write]
    split
    · next hak =>
      split
      · exact h0
      · next hv =>
        simp only [Memory.canonicalFrom, Bool.and_eq_true, decide_eq_true_eq]
        exact ⟨⟨⟨ha, hb⟩, hv⟩, ⟨⟨⟨by omega, h2⟩, h3⟩, hm⟩⟩
    · split
      · next hak =>
        split
        · exact canonicalFrom_mono hm (by omega)
        · next hv =>
          simp only [Memory.canonicalFrom, Bool.and_eq_true, decide_eq_true_eq]
          exact ⟨⟨⟨ha, hb⟩, hv⟩, hak ▸ hm⟩
      · next hlt hak =>
        simp only [Memory.canonicalFrom, Bool.and_eq_true, decide_eq_true_eq]
        exact ⟨⟨⟨hk, h2⟩, h3⟩, ih hm (by omega)⟩

/-! ### Byte strings -/

@[simp] theorem readBytes_length (m : Memory) (a n : Nat) : (Memory.readBytes m a n).length = n := by
  simp [Memory.readBytes]

@[simp] theorem readCtx_length (d : Data) (off n : Nat) : (readCtx d off n).length = n := by simp [readCtx]

@[simp] theorem readDat_length (d : Data) (off n : Nat) : (readDat d off n).length = n := by simp [readDat]

/-- Byte `i` of a byte string that was read. -/
theorem readBytes_getElem (m : Memory) (a n i : Nat) (h : i < n) :
    (Memory.readBytes m a n)[i]'(by simpa using h) = Memory.read m (a + i) := by
  simp [Memory.readBytes]

/-- Reading `m + n` bytes is reading `m` bytes and then `n`. -/
theorem readBytes_append (m : Memory) (a i j : Nat) :
    Memory.readBytes m a (i + j) = Memory.readBytes m a i ++ Memory.readBytes m (a + i) j := by
  simp [Memory.readBytes, List.range_add, Function.comp_def, Nat.add_assoc]

/-- A byte-string write leaves every byte outside it alone. -/
theorem read_writeBytes_other (bs : List Byte) (m : Memory) (a b : Nat) (h : a < b ∨ b + bs.length ≤ a) :
    Memory.read (Memory.writeBytes m b bs) a = Memory.read m a := by
  induction bs generalizing m b with
  | nil => rfl
  | cons c bs ih =>
    simp only [List.length_cons] at h
    rw [Memory.writeBytes, ih _ _ (by omega), read_write_other (by omega)]

/-- A byte-string write keeps the canonical form. -/
theorem writeBytes_canonicalFrom {lo : Nat} (bs : List Byte) {m : Memory}
    (h : Memory.canonicalFrom lo m = true) {a : Nat} (ha : lo ≤ a) (hb : a + bs.length ≤ bufferEnd) :
    Memory.canonicalFrom lo (Memory.writeBytes m a bs) = true := by
  induction bs generalizing m a with
  | nil => exact h
  | cons c bs ih =>
    simp only [List.length_cons] at hb
    exact ih (write_canonicalFrom h c ha (by omega)) (by omega) (by omega)

/-- Byte `i` of a written byte string reads back. -/
theorem read_writeBytes_same {lo : Nat} (bs : List Byte) {m : Memory} (h : Memory.canonicalFrom lo m = true)
    {a : Nat} (ha : lo ≤ a) (hb : a + bs.length ≤ bufferEnd) (i : Nat) (hi : i < bs.length) :
    Memory.read (Memory.writeBytes m a bs) (a + i) = bs[i] := by
  induction bs generalizing m a i with
  | nil => exact absurd hi (by simp)
  | cons c bs ih =>
    simp only [List.length_cons] at hb hi
    have hw := write_canonicalFrom h c ha (by omega)
    cases i with
    | zero =>
      rw [Memory.writeBytes, read_writeBytes_other _ _ _ _ (by omega)]
      exact read_write_same h a c
    | succ i =>
      rw [Memory.writeBytes, show a + (i + 1) = a + 1 + i by omega]
      exact ih hw (by omega) (by omega) i (by omega)

/-- A written byte string reads back whole. -/
theorem readBytes_writeBytes_same {lo : Nat} (bs : List Byte) {m : Memory}
    (h : Memory.canonicalFrom lo m = true) {a : Nat} (ha : lo ≤ a) (hb : a + bs.length ≤ bufferEnd) :
    Memory.readBytes (Memory.writeBytes m a bs) a bs.length = bs := by
  apply List.ext_getElem (by simp)
  intro i h1 h2
  rw [readBytes_getElem _ _ _ _ h2, read_writeBytes_same bs h ha hb i h2]

/-- Reading bytes that a write does not touch. -/
theorem readBytes_writeBytes_other (bs : List Byte) (m : Memory) (a n b : Nat)
    (h : a + n ≤ b ∨ b + bs.length ≤ a) :
    Memory.readBytes (Memory.writeBytes m b bs) a n = Memory.readBytes m a n := by
  apply List.ext_getElem (by simp)
  intro i h1 h2
  have hi : i < n := by simpa using h2
  rw [readBytes_getElem _ _ _ _ hi, readBytes_getElem _ _ _ _ hi, read_writeBytes_other _ _ _ _ (by omega)]

/-! ### The two buffers -/

/-- A write of bytes to `CTX` keeps the canonical form. -/
theorem wf_writeCtx {d : Data} (h : Memory.wf d.mem = true) {off : Nat} {bs : List Byte}
    (hb : off + bs.length ≤ 256) : Memory.wf (writeCtx off bs d).mem = true :=
  writeBytes_canonicalFrom bs h (by simp [ctxBase]) (by simp only [ctxBase, bufferEnd]; omega)

/-- A write of bytes to `DAT` keeps the canonical form. -/
theorem wf_writeDat {d : Data} (h : Memory.wf d.mem = true) {off : Nat} {bs : List Byte}
    (hb : off + bs.length ≤ 256) : Memory.wf (writeDat off bs d).mem = true :=
  writeBytes_canonicalFrom bs h (by simp only [ctxBase, datBase]; omega)
    (by simp only [datBase, bufferEnd]; omega)

theorem wf_clearCtx {d : Data} (h : Memory.wf d.mem = true) : Memory.wf (clearCtx d).mem = true :=
  wf_writeCtx h (by rw [Nat.zero_add, List.length_replicate])

theorem wf_writePhase {d : Data} (h : Memory.wf d.mem = true) (b : Byte) :
    Memory.wf (writePhase b d).mem = true :=
  wf_writeCtx h (by simp)

theorem wf_writeKindPhase {d : Data} (h : Memory.wf d.mem = true) (k b : Byte) :
    Memory.wf (writeKindPhase k b d).mem = true :=
  wf_writeCtx h (by simp)

/-- The empty list, the memory after reset and after ZEROIZE, is canonical. -/
theorem wf_zero : Memory.wf Data.zero.mem = true := rfl

/-- A write to `CTX` leaves the window outside it alone. -/
theorem read_writeCtx_other (d : Data) (off : Nat) (bs : List Byte) (a : Nat)
    (h : a < ctxBase + off ∨ ctxBase + off + bs.length ≤ a) :
    Memory.read (writeCtx off bs d).mem a = Memory.read d.mem a :=
  read_writeBytes_other bs d.mem a _ h

/-- A write to `DAT` leaves the window outside it alone. -/
theorem read_writeDat_other (d : Data) (off : Nat) (bs : List Byte) (a : Nat)
    (h : a < datBase + off ∨ datBase + off + bs.length ≤ a) :
    Memory.read (writeDat off bs d).mem a = Memory.read d.mem a :=
  read_writeBytes_other bs d.mem a _ h

/-- Bytes written to `CTX` read back. -/
theorem readCtx_writeCtx_same {d : Data} (h : Memory.wf d.mem = true) {off : Nat} {bs : List Byte}
    (hb : off + bs.length ≤ 256) : readCtx (writeCtx off bs d) off bs.length = bs :=
  readBytes_writeBytes_same bs h (by simp [ctxBase]) (by simp only [ctxBase, bufferEnd]; omega)

/-- Bytes written to `DAT` read back. -/
theorem readDat_writeDat_same {d : Data} (h : Memory.wf d.mem = true) {off : Nat} {bs : List Byte}
    (hb : off + bs.length ≤ 256) : readDat (writeDat off bs d) off bs.length = bs :=
  readBytes_writeBytes_same bs h (by simp only [ctxBase, datBase]; omega)
    (by simp only [datBase, bufferEnd]; omega)

/-- Byte `i` of what was written to `CTX`. -/
theorem ctxByte_writeCtx_same {d : Data} (h : Memory.wf d.mem = true) {off : Nat} {bs : List Byte}
    (hb : off + bs.length ≤ 256) {i : Nat} (hi : i < bs.length) :
    ctxByte (writeCtx off bs d) (off + i) = bs[i] := by
  rw [ctxByte, ← Nat.add_assoc]
  exact read_writeBytes_same bs h (by simp [ctxBase]) (by simp only [ctxBase, bufferEnd]; omega) i hi

/-- A write to `CTX` leaves the other bytes of `CTX` alone. -/
theorem ctxByte_writeCtx_other (d : Data) (off : Nat) (bs : List Byte) (i : Nat)
    (h : i < off ∨ off + bs.length ≤ i) : ctxByte (writeCtx off bs d) i = ctxByte d i :=
  read_writeCtx_other d off bs _ (by omega)

/-- A write to `CTX` leaves other byte ranges of `CTX` alone. -/
theorem readCtx_writeCtx_other (d : Data) (off : Nat) (bs : List Byte) (i n : Nat)
    (h : i + n ≤ off ∨ off + bs.length ≤ i) : readCtx (writeCtx off bs d) i n = readCtx d i n :=
  readBytes_writeBytes_other bs d.mem _ n _ (by omega)

/-- A write to `CTX` leaves `DAT` alone. -/
theorem readDat_writeCtx (d : Data) (off : Nat) (bs : List Byte) (i n : Nat) (h : off + bs.length ≤ 256) :
    readDat (writeCtx off bs d) i n = readDat d i n :=
  readBytes_writeBytes_other bs d.mem _ n _ (by simp only [ctxBase, datBase]; omega)

/-- A write to `DAT` leaves `CTX` alone. -/
theorem readCtx_writeDat (d : Data) (off : Nat) (bs : List Byte) (i n : Nat) (h : i + n ≤ 256) :
    readCtx (writeDat off bs d) i n = readCtx d i n :=
  readBytes_writeBytes_other bs d.mem _ n _ (by simp only [ctxBase, datBase]; omega)

/-- A write to `DAT` leaves each byte of `CTX` alone. -/
theorem ctxByte_writeDat (d : Data) (off : Nat) (bs : List Byte) (i : Nat) (h : i < 256) :
    ctxByte (writeDat off bs d) i = ctxByte d i :=
  read_writeBytes_other bs d.mem _ _ (by simp only [ctxBase, datBase]; omega)

/-- After `CTX[0..255] <- 0` every byte of `CTX` is 0. -/
theorem ctxByte_clearCtx {d : Data} (h : Memory.wf d.mem = true) {i : Nat} (hi : i < 256) :
    ctxByte (clearCtx d) i = 0 := by
  have := ctxByte_writeCtx_same h (off := 0) (bs := List.replicate 256 0)
    (by rw [Nat.zero_add, List.length_replicate]) (i := i) (by rwa [List.length_replicate])
  rwa [Nat.zero_add, List.getElem_replicate] at this

end Sys2Proof.Machine
end

