-- ==== Sys2Proof/Laws/Modular.lean ====
section
/-! SUPPORT. The modular operations compute what 00_scope.md R11 and 40_field.md R124, R128 define. -/

namespace Sys2Proof.Machine

/-! ### imod -/

theorem imod_lt (a : Int) {m : Nat} (h : 0 < m) : imod a m < m := by
  have h1 := Int.emod_nonneg a (b := m) (by omega)
  have h2 := Int.emod_lt_of_pos a (b := m) (by omega)
  unfold imod
  omega

/-- `imod a m` as an integer is the residue of `a`. -/
theorem imod_cast (a : Int) {m : Nat} (h : 0 < m) : ((imod a m : Nat) : Int) = a % m := by
  have h1 := Int.emod_nonneg a (b := m) (by omega)
  unfold imod
  omega

/-- `imod a m` is congruent to `a`. -/
theorem imod_modEq (a : Int) {m : Nat} (h : 0 < m) : ((imod a m : Nat) : Int) ≡ a [ZMOD m] := by
  rw [imod_cast a h]
  exact Int.mod_modEq a m

/-- On a natural number `imod` is `%`. -/
theorem imod_natCast (a m : Nat) : imod (a : Int) m = a % m := by
  unfold imod
  omega

/-- `imod` respects congruence. -/
theorem imod_congr {a b : Int} {m : Nat} (h : a ≡ b [ZMOD m]) : imod a m = imod b m := by
  unfold imod
  rw [show a % (m : Int) = b % m from h]

/-! ### Powers -/

/-- The square-and-multiply loop computes the power (40_field.md R124). -/
theorem powBits_eq (m a bits e : Nat) (h : e < 2 ^ bits) : powBits m a bits e = a ^ e % m := by
  induction bits generalizing e with
  | zero =>
    have : e = 0 := by simpa using h
    subst this
    rfl
  | succ bits ih =>
    have hr := ih (e / 2) (by rw [pow_succ] at h; omega)
    have hsq : a ^ (e / 2) % m * (a ^ (e / 2) % m) % m = a ^ (2 * (e / 2)) % m := by
      rw [← Nat.mul_mod, two_mul, pow_add]
    simp only [powBits, hr, hsq]
    split
    · next ho =>
      rw [Nat.mod_mul_mod, ← pow_succ]
      congr 2
      omega
    · next ho =>
      congr 2
      omega

/-- `powMod` is the power for every register value as exponent (40_field.md R124). -/
theorem powMod_eq (m a : Nat) {e : Nat} (h : e < 2 ^ 576) : powMod m a e = a ^ e % m := powBits_eq m a 576 e h

/-! ### Inverses -/

/-- One division step halves the product of the two remainders. -/
theorem mod_mul_halves {r0 r1 : Nat} (h : r1 < r0) (h1 : 0 < r1) : 2 * (r1 * (r0 % r1)) ≤ r0 * r1 := by
  have hd : r0 / r1 ≥ 1 := Nat.div_pos (le_of_lt h) h1
  have he := Nat.div_add_mod r0 r1
  have hm := Nat.mod_lt r0 h1
  have hk : r1 * 1 ≤ r1 * (r0 / r1) := Nat.mul_le_mul_left r1 hd
  have h2 : 2 * (r0 % r1) ≤ r0 := by omega
  calc 2 * (r1 * (r0 % r1)) = r1 * (2 * (r0 % r1)) := by ring
    _ ≤ r1 * r0 := Nat.mul_le_mul_left r1 h2
    _ = r0 * r1 := Nat.mul_comm _ _

/-- The Euclidean loop: with enough fuel the result times `a` is the greatest common divisor modulo `m`. -/
theorem euclid_spec {m a : Nat} (hm : 1 < m) (fuel r0 r1 t0 t1 : Nat) (hr : r1 < r0)
    (hf : r0 * r1 < 2 ^ fuel) (h0 : (t0 * a : Int) ≡ r0 [ZMOD m]) (h1 : (t1 * a : Int) ≡ r1 [ZMOD m])
    (l0 : t0 < m) (l1 : t1 < m) :
    ((euclid m (fuel + 1) r0 r1 t0 t1 * a : Nat) : Int) ≡ Nat.gcd r0 r1 [ZMOD m] ∧
      euclid m (fuel + 1) r0 r1 t0 t1 < m := by
  induction fuel generalizing r0 r1 t0 t1 with
  | zero =>
    have hz : r1 = 0 := by
      by_contra hne
      have : 0 < r0 * r1 := Nat.mul_pos (by omega) (by omega)
      simp only [pow_zero] at hf
      omega
    subst hz
    simp only [euclid, if_true, Nat.gcd_zero_right, Nat.cast_mul]
    exact ⟨h0, l0⟩
  | succ fuel ih =>
    rw [euclid]
    split
    · next hz =>
      subst hz
      simp only [Nat.gcd_zero_right, Nat.cast_mul]
      exact ⟨h0, l0⟩
    · next hz =>
      have hpos : 0 < r1 := by omega
      have hg : Nat.gcd r0 r1 = Nat.gcd r1 (r0 % r1) := by
        rw [Nat.gcd_comm r0 r1, Nat.gcd_rec r1 r0, Nat.gcd_comm]
      rw [hg]
      apply ih r1 (r0 % r1) t1 _ (Nat.mod_lt _ hpos) _ h1 _ l1 (imod_lt _ (by omega))
      · have := mod_mul_halves hr hpos
        rw [pow_succ] at hf
        omega
      · have hi := imod_modEq ((t0 : Int) - (r0 / r1 * t1 : Nat)) (show 0 < m by omega)
        have hmul := (hi.mul_right (a : Int))
        refine hmul.trans ?_
        have he : ((r0 % r1 : Nat) : Int) = r0 - (r0 / r1 : Nat) * r1 := by
          have := Nat.div_add_mod r0 r1
          have hc : (r0 : Int) = r1 * (r0 / r1 : Nat) + (r0 % r1 : Nat) := by exact_mod_cast this.symm
          rw [mul_comm] at hc
          omega
        rw [he]
        have hq := h1.mul_left ((r0 / r1 : Nat) : Int)
        have hsub := h0.sub hq
        have heq : ((t0 : Int) - (r0 / r1 * t1 : Nat)) * a = t0 * a - (r0 / r1 : Nat) * (t1 * a) := by
          push_cast
          ring
        rw [heq]
        exact hsub

/-- What the Euclidean loop gives on the arguments `invMod` starts it with. -/
theorem invMod_spec (a : Nat) {m : Nat} (hm : 1 < m) (hw : m < 2 ^ 576) :
    ((invMod a m * a : Nat) : Int) ≡ Nat.gcd m (a % m) [ZMOD m] ∧ invMod a m < m := by
  have hlt : a % m < m := Nat.mod_lt _ (by omega)
  refine euclid_spec (a := a) hm 1199 m (a % m) 0 1 hlt ?_ ?_ ?_ (by omega) hm
  · exact lt_of_lt_of_le (Nat.mul_lt_mul'' hw (lt_trans hlt hw))
      (by rw [← pow_add]; exact Nat.pow_le_pow_right (by omega) (by omega))
  · simp [Int.ModEq]
  · rw [Nat.cast_one, one_mul, Int.natCast_mod]
    exact (Int.mod_modEq _ _).symm

/-- `invMod` is below the modulus. -/
theorem invMod_lt (a : Nat) {m : Nat} (hm : 1 < m) (hw : m < 2 ^ 576) : invMod a m < m :=
  (invMod_spec a hm hw).2

/-- `invMod a m` is the inverse of `a` modulo `m` whenever there is one (00_scope.md R11). -/
theorem mul_invMod {a m : Nat} (hm : 1 < m) (hw : m < 2 ^ 576) (hc : Nat.Coprime a m) :
    a * invMod a m % m = 1 := by
  have h := (invMod_spec a hm hw).1
  have hg : Nat.gcd m (a % m) = 1 := by
    rw [Nat.gcd_comm, ← Nat.gcd_rec, Nat.gcd_comm]
    exact hc
  rw [hg] at h
  have h' : invMod a m * a ≡ 1 [MOD m] := by exact_mod_cast h
  rw [Nat.mul_comm, show invMod a m * a % m = 1 % m from h', Nat.mod_eq_of_lt hm]

end Sys2Proof.Machine
end

