-- ==== Sys2Proof/Laws/State.lean ====
section
/-! SUPPORT. One lemma per field per update of the state, so that no proof unfolds a record update. -/

namespace Sys2Proof.Machine

/-! ### raiseError -/

@[simp] theorem raiseError_data (k : ErrorKind) (s : State) : (raiseError k s).data = s.data := rfl
@[simp] theorem raiseError_cmdr (k : ErrorKind) (s : State) : (raiseError k s).cmdr = s.cmdr := rfl
@[simp] theorem raiseError_busy (k : ErrorKind) (s : State) : (raiseError k s).busy = false := rfl
@[simp] theorem raiseError_done (k : ErrorKind) (s : State) : (raiseError k s).done = true := rfl
@[simp] theorem raiseError_err (k : ErrorKind) (s : State) : (raiseError k s).err = true := rfl
@[simp] theorem raiseError_drop (k : ErrorKind) (s : State) : (raiseError k s).drop = s.drop := rfl
@[simp] theorem raiseError_hzd (k : ErrorKind) (s : State) : (raiseError k s).hzd = s.hzd := rfl
@[simp] theorem raiseError_errcode (k : ErrorKind) (s : State) : (raiseError k s).errcode = errorCode k := rfl
@[simp] theorem raiseError_ie (k : ErrorKind) (s : State) : (raiseError k s).ie = s.ie := rfl
@[simp] theorem raiseError_inputs (k : ErrorKind) (s : State) : (raiseError k s).inputs = s.inputs := rfl
@[simp] theorem raiseError_replies (k : ErrorKind) (s : State) : (raiseError k s).replies = s.replies := rfl

/-- Taking an error is the claims' `failedWith` with the code of the kind. -/
theorem raiseError_eq_failedWith (k : ErrorKind) (s : State) : raiseError k s = failedWith s (errorCode k) := rfl

/-! ### clearError -/

@[simp] theorem clearError_data (s : State) : (clearError s).data = s.data := rfl
@[simp] theorem clearError_cmdr (s : State) : (clearError s).cmdr = s.cmdr := rfl
@[simp] theorem clearError_busy (s : State) : (clearError s).busy = s.busy := rfl
@[simp] theorem clearError_done (s : State) : (clearError s).done = s.done := rfl
@[simp] theorem clearError_err (s : State) : (clearError s).err = false := rfl
@[simp] theorem clearError_drop (s : State) : (clearError s).drop = s.drop := rfl
@[simp] theorem clearError_hzd (s : State) : (clearError s).hzd = s.hzd := rfl
@[simp] theorem clearError_errcode (s : State) : (clearError s).errcode = 0 := rfl
@[simp] theorem clearError_ie (s : State) : (clearError s).ie = s.ie := rfl
@[simp] theorem clearError_inputs (s : State) : (clearError s).inputs = s.inputs := rfl
@[simp] theorem clearError_replies (s : State) : (clearError s).replies = s.replies := rfl

/-! ### resetCore -/

@[simp] theorem resetCore_data (s : State) : (resetCore s).data = Data.zero := rfl
@[simp] theorem resetCore_cmdr (s : State) : (resetCore s).cmdr = 0 := rfl
@[simp] theorem resetCore_busy (s : State) : (resetCore s).busy = false := rfl
@[simp] theorem resetCore_done (s : State) : (resetCore s).done = false := rfl
@[simp] theorem resetCore_err (s : State) : (resetCore s).err = false := rfl
@[simp] theorem resetCore_drop (s : State) : (resetCore s).drop = false := rfl
@[simp] theorem resetCore_hzd (s : State) : (resetCore s).hzd = false := rfl
@[simp] theorem resetCore_errcode (s : State) : (resetCore s).errcode = 0 := rfl
@[simp] theorem resetCore_ie (s : State) : (resetCore s).ie = false := rfl
@[simp] theorem resetCore_inputs (s : State) : (resetCore s).inputs = s.inputs := rfl
@[simp] theorem resetCore_replies (s : State) : (resetCore s).replies = s.replies := rfl

/-! ### The claims' completions -/

@[simp] theorem finishedWith_data (s : State) (d : Data) : (finishedWith s d).data = d := rfl
@[simp] theorem finishedWith_cmdr (s : State) (d : Data) : (finishedWith s d).cmdr = s.cmdr := rfl
@[simp] theorem finishedWith_busy (s : State) (d : Data) : (finishedWith s d).busy = false := rfl
@[simp] theorem finishedWith_done (s : State) (d : Data) : (finishedWith s d).done = true := rfl
@[simp] theorem finishedWith_err (s : State) (d : Data) : (finishedWith s d).err = s.err := rfl
@[simp] theorem finishedWith_drop (s : State) (d : Data) : (finishedWith s d).drop = s.drop := rfl
@[simp] theorem finishedWith_hzd (s : State) (d : Data) : (finishedWith s d).hzd = s.hzd := rfl
@[simp] theorem finishedWith_errcode (s : State) (d : Data) : (finishedWith s d).errcode = s.errcode := rfl
@[simp] theorem finishedWith_ie (s : State) (d : Data) : (finishedWith s d).ie = s.ie := rfl
@[simp] theorem finishedWith_inputs (s : State) (d : Data) : (finishedWith s d).inputs = s.inputs := rfl
@[simp] theorem finishedWith_replies (s : State) (d : Data) : (finishedWith s d).replies = s.replies := rfl

@[simp] theorem failedWith_data (s : State) (c : BitVec 4) : (failedWith s c).data = s.data := rfl
@[simp] theorem failedWith_cmdr (s : State) (c : BitVec 4) : (failedWith s c).cmdr = s.cmdr := rfl
@[simp] theorem failedWith_busy (s : State) (c : BitVec 4) : (failedWith s c).busy = false := rfl
@[simp] theorem failedWith_done (s : State) (c : BitVec 4) : (failedWith s c).done = true := rfl
@[simp] theorem failedWith_err (s : State) (c : BitVec 4) : (failedWith s c).err = true := rfl
@[simp] theorem failedWith_drop (s : State) (c : BitVec 4) : (failedWith s c).drop = s.drop := rfl
@[simp] theorem failedWith_hzd (s : State) (c : BitVec 4) : (failedWith s c).hzd = s.hzd := rfl
@[simp] theorem failedWith_errcode (s : State) (c : BitVec 4) : (failedWith s c).errcode = c := rfl
@[simp] theorem failedWith_ie (s : State) (c : BitVec 4) : (failedWith s c).ie = s.ie := rfl
@[simp] theorem failedWith_inputs (s : State) (c : BitVec 4) : (failedWith s c).inputs = s.inputs := rfl
@[simp] theorem failedWith_replies (s : State) (c : BitVec 4) : (failedWith s c).replies = s.replies := rfl

/-- A state that a completion without error leaves completes. -/
@[simp] theorem completes_finishedWith (s : State) (d : Data) : completes s (finishedWith s d) := rfl

/-! ### Updates of the data state -/

@[simp] theorem writeField_pinf (r : Fin 16) (v : Nat) (d : Data) : (writeField r v d).pinf = d.pinf := rfl
@[simp] theorem writeField_mem (r : Fin 16) (v : Nat) (d : Data) : (writeField r v d).mem = d.mem := rfl
@[simp] theorem writePinf_f (j : Fin 8) (b : Bool) (d : Data) : (writePinf j b d).f = d.f := rfl
@[simp] theorem writePinf_mem (j : Fin 8) (b : Bool) (d : Data) : (writePinf j b d).mem = d.mem := rfl
@[simp] theorem writeCtx_f (off : Nat) (bs : List Byte) (d : Data) : (writeCtx off bs d).f = d.f := rfl
@[simp] theorem writeCtx_pinf (off : Nat) (bs : List Byte) (d : Data) : (writeCtx off bs d).pinf = d.pinf := rfl
@[simp] theorem writeDat_f (off : Nat) (bs : List Byte) (d : Data) : (writeDat off bs d).f = d.f := rfl
@[simp] theorem writeDat_pinf (off : Nat) (bs : List Byte) (d : Data) : (writeDat off bs d).pinf = d.pinf := rfl
@[simp] theorem clearCtx_f (d : Data) : (clearCtx d).f = d.f := by simp only [clearCtx, writeCtx_f]
@[simp] theorem clearCtx_pinf (d : Data) : (clearCtx d).pinf = d.pinf := by simp only [clearCtx, writeCtx_pinf]
@[simp] theorem writePhase_f (b : Byte) (d : Data) : (writePhase b d).f = d.f := by simp only [writePhase, writeCtx_f]
@[simp] theorem writePhase_pinf (b : Byte) (d : Data) : (writePhase b d).pinf = d.pinf := by
  simp only [writePhase, writeCtx_pinf]
@[simp] theorem writeKindPhase_f (k b : Byte) (d : Data) : (writeKindPhase k b d).f = d.f := by
  simp only [writeKindPhase, writeCtx_f]
@[simp] theorem writeKindPhase_pinf (k b : Byte) (d : Data) : (writeKindPhase k b d).pinf = d.pinf := by
  simp only [writeKindPhase, writeCtx_pinf]
@[simp] theorem writeSponge_f (v : Sponge) (d : Data) : (writeSponge v d).f = d.f := by
  simp only [writeSponge, writeCtx_f]
@[simp] theorem writeSponge_pinf (v : Sponge) (d : Data) : (writeSponge v d).pinf = d.pinf := by
  simp only [writeSponge, writeCtx_pinf]
@[simp] theorem writeSip_f (v : Sip) (b : Byte) (d : Data) : (writeSip v b d).f = d.f := by
  simp only [writeSip, writeCtx_f]
@[simp] theorem writeSip_pinf (v : Sip) (b : Byte) (d : Data) : (writeSip v b d).pinf = d.pinf := by
  simp only [writeSip, writeCtx_pinf]
@[simp] theorem createSponge_f (g : SpongeConfig) (d : Data) : (createSponge g d).f = d.f := by
  simp only [createSponge, writeKindPhase_f, writeCtx_f, clearCtx_f]
@[simp] theorem createSponge_pinf (g : SpongeConfig) (d : Data) : (createSponge g d).pinf = d.pinf := by
  simp only [createSponge, writeKindPhase_pinf, writeCtx_pinf, clearCtx_pinf]

/-- A written field register reads as the value modulo `2^576`. -/
@[simp] theorem readField_writeField_same (r : Fin 16) (v : Nat) (d : Data) :
    readField (writeField r v d) r = v % 2 ^ 576 := by
  have h : (writeField r v d).f[r] = BitVec.ofNat 576 v := by simp [writeField]
  rw [readField, h, BitVec.toNat_ofNat]

/-- The other field registers keep their value. -/
theorem readField_writeField_other {r q : Fin 16} (h : q ≠ r) (v : Nat) (d : Data) :
    (writeField r v d).f[q] = d.f[q] := by
  have : (r : Nat) ≠ q := fun e => h (Fin.ext e.symm)
  simp [writeField, this]

/-- A field register does not depend on `PINF`. -/
@[simp] theorem readField_writePinf (j : Fin 8) (b : Bool) (r : Fin 16) (d : Data) :
    readField (writePinf j b d) r = readField d r := rfl

/-- `PINF` does not depend on a field register. -/
@[simp] theorem readPinf_writeField (r : Fin 16) (v : Nat) (j : Fin 8) (d : Data) :
    readPinf (writeField r v d) j = readPinf d j := rfl

/-- A written identity flag reads back, and the other flags keep their value. -/
theorem readPinf_writePinf (i j : Fin 8) (b : Bool) (d : Data) :
    readPinf (writePinf j b d) i = if i = j then b else readPinf d i := by
  rcases i with ⟨i, hi⟩; rcases j with ⟨j, hj⟩
  cases b <;> simp only [readPinf, writePinf]
  · have : i = 0 ∨ i = 1 ∨ i = 2 ∨ i = 3 ∨ i = 4 ∨ i = 5 ∨ i = 6 ∨ i = 7 := by omega
    have : j = 0 ∨ j = 1 ∨ j = 2 ∨ j = 3 ∨ j = 4 ∨ j = 5 ∨ j = 6 ∨ j = 7 := by omega
    rcases ‹i = 0 ∨ _› with h | h | h | h | h | h | h | h <;>
      rcases ‹j = 0 ∨ _› with g | g | g | g | g | g | g | g <;> subst h <;> subst g <;> simp
  · have : i = 0 ∨ i = 1 ∨ i = 2 ∨ i = 3 ∨ i = 4 ∨ i = 5 ∨ i = 6 ∨ i = 7 := by omega
    have : j = 0 ∨ j = 1 ∨ j = 2 ∨ j = 3 ∨ j = 4 ∨ j = 5 ∨ j = 6 ∨ j = 7 := by omega
    rcases ‹i = 0 ∨ _› with h | h | h | h | h | h | h | h <;>
      rcases ‹j = 0 ∨ _› with g | g | g | g | g | g | g | g <;> subst h <;> subst g <;> simp

/-- The two coordinate registers of a point register are different registers. -/
theorem xReg_ne_yReg (i j : Fin 8) : xReg i ≠ yReg j := by
  intro h
  have := congrArg Fin.val h
  simp only [xReg, yReg] at this
  omega

end Sys2Proof.Machine
end

