-- ==== Sys2Proof/Laws/Operations.lean ====
section
/-! SUPPORT. One lemma per shared operation that says once what it can do. -/

namespace Sys2Proof.Machine

/-! ### Checks and completion -/

@[simp] theorem exceptBind_ok {ε α β : Type} (a : α) (f : α → Except ε β) : (Except.ok a >>= f) = f a := rfl

@[simp] theorem exceptBind_error {ε α β : Type} (e : ε) (f : α → Except ε β) :
    (Except.error e >>= f : Except ε β) = .error e := rfl

@[simp] theorem exceptPure {ε α : Type} (a : α) : (pure a : Except ε α) = .ok a := rfl

@[simp] theorem exceptThrow {ε α : Type} (e : ε) : (throw e : Except ε α) = .error e := rfl

theorem require_true {p : Prop} [Decidable p] (f : Failure) (h : p) : require p f = .ok () := if_pos h

theorem require_false {p : Prop} [Decidable p] (f : Failure) (h : ¬p) : require p f = .error f := if_neg h

/-- A check answers ok exactly when its condition holds. -/
@[simp] theorem require_ok_iff {p : Prop} [Decidable p] (f : Failure) (u : Unit) : require p f = .ok u ↔ p := by
  unfold require
  split <;> simp [*]

@[simp] theorem completeCommand_ok (s : State) (d : Data) : completeCommand s (.ok d) = .next (finishedWith s d) := rfl

@[simp] theorem completeCommand_error (s : State) (f : Failure) :
    completeCommand s (.error f) = .next (failedWith s (errorCode (failureKind f))) := rfl

/-- Everything a completion can answer (20_memory.md R63). -/
theorem completeCommand_cases (s : State) (r : Except Failure Data) :
    (∃ d, r = .ok d ∧ completeCommand s r = .next (finishedWith s d)) ∨
      ∃ f, r = .error f ∧ completeCommand s r = .next (failedWith s (errorCode (failureKind f))) := by
  cases r with
  | ok d => exact .inl ⟨d, rfl, rfl⟩
  | error f => exact .inr ⟨f, rfl, rfl⟩

/-- The code of a check that fails is one of 1 to 5, 7, 8 (60_exceptions.md R311, R313). -/
theorem errorCode_failureKind (f : Failure) : errorCode (failureKind f) ∈ ([1, 2, 3, 4, 5, 7, 8] : List (BitVec 4)) := by
  cases f <;> decide

/-! ### Curves and moduli -/

/-- What the ROM guarantees of every entry: both moduli lie between 3 and `R`, are odd, and `L` is at most 9
(00_scope.md R9, 40_field.md R111). -/
theorem curveAt_bounds {crv : Fin 16} {c : CurveParams} (h : curveAt crv = some c) :
    crv.val < 8 ∧ 3 < c.p ∧ 3 < c.n ∧ c.p < 2 ^ (64 * c.limbs) ∧ c.n < 2 ^ (64 * c.limbs) ∧
      c.p % 2 = 1 ∧ c.n % 2 = 1 ∧ 4 ≤ c.limbs ∧ c.limbs ≤ 9 ∧ c.gx < c.p ∧ c.gy < c.p := by
  have all : ∀ k : Fin 16, (curveAt k).all (fun c => decide (k.val < 8 ∧ 3 < c.p ∧ 3 < c.n ∧
      c.p < 2 ^ (64 * c.limbs) ∧ c.n < 2 ^ (64 * c.limbs) ∧ c.p % 2 = 1 ∧ c.n % 2 = 1 ∧ 4 ≤ c.limbs ∧
      c.limbs ≤ 9 ∧ c.gx < c.p ∧ c.gy < c.p)) = true := by decide +kernel
  have := all crv
  rw [h] at this
  simpa only [Option.all_some, decide_eq_true_eq] using this

/-- `CRV` 8 to 15 select nothing (30_encoding.md R86). -/
theorem curveAt_reserved {crv : Fin 16} (h : 8 ≤ crv.val) : curveAt crv = none := by
  revert h
  revert crv
  decide

/-- A modulus of the ROM is above 3 and below `2^576`. -/
theorem modulusOf_bounds {crv : Fin 16} {c : CurveParams} (h : curveAt crv = some c) (ms : Bool) :
    3 < modulusOf c ms ∧ modulusOf c ms < 2 ^ 576 ∧ modulusOf c ms % 2 = 1 := by
  obtain ⟨-, hp, hn, hpb, hnb, hpo, hno, -, hl, -⟩ := curveAt_bounds h
  have hle : 2 ^ (64 * c.limbs) ≤ 2 ^ 576 := Nat.pow_le_pow_right (by omega) (by omega)
  cases ms
  · exact ⟨hp, lt_of_lt_of_le hpb hle, hpo⟩
  · exact ⟨hn, lt_of_lt_of_le hnb hle, hno⟩

/-- The Montgomery radix is invertible modulo every modulus of the ROM. -/
theorem radix_coprime {crv : Fin 16} {c : CurveParams} (h : curveAt crv = some c) (ms : Bool) :
    Nat.Coprime (radixOf c % modulusOf c ms) (modulusOf c ms) := by
  have ho := (modulusOf_bounds h ms).2.2
  have h2 : Nat.Coprime 2 (modulusOf c ms) := (Nat.coprime_two_left).2 (Nat.odd_iff.2 ho)
  have hr : Nat.Coprime (radixOf c) (modulusOf c ms) := Nat.Coprime.pow_left _ h2
  have hg : Nat.gcd (radixOf c % modulusOf c ms) (modulusOf c ms) = Nat.gcd (radixOf c) (modulusOf c ms) := by
    rw [← Nat.gcd_rec, Nat.gcd_comm]
  exact hg.trans hr

theorem curveOf_ok {crv : Fin 16} {c : CurveParams} (h : curveAt crv = some c) : curveOf crv = .ok c := by
  simp [curveOf, h]

theorem curveOf_reserved {crv : Fin 16} (h : 8 ≤ crv.val) : curveOf crv = .error .reservedValue := by
  simp [curveOf, curveAt_reserved h]

/-! ### Field operands -/

theorem readField_lt (d : Data) (r : Fin 16) : readField d r < 2 ^ 576 := d.f[r].isLt

/-- A value below `2^576` written to a field register reads back. -/
theorem readField_writeField_of_lt {v : Nat} (h : v < 2 ^ 576) (r : Fin 16) (d : Data) :
    readField (writeField r v d) r = v := by
  rw [readField_writeField_same, Nat.mod_eq_of_lt h]

/-- A write of a field register changes nothing else. -/
theorem onlyField_writeField (r : Fin 16) (v : Nat) (d : Data) : onlyField r d (writeField r v d) :=
  ⟨fun _ hq => readField_writeField_other hq v d, rfl, fun _ => rfl⟩

theorem felt_ok {d : Data} {m : Nat} {r : Fin 16} (f : Failure) (h : readField d r < m) :
    felt d m r f = .ok (readField d r) := if_pos h

theorem felt_error {d : Data} {m : Nat} {r : Fin 16} (f : Failure) (h : m ≤ readField d r) :
    felt d m r f = .error f := if_neg (by omega)

/-- A one-source field command whose operand passes its checks is its own rule (40_field.md R112). -/
theorem fieldUnary_ok {crv : Fin 16} {c : CurveParams} (hc : curveAt crv = some c) {s : State} {ms : Bool}
    {ra : Fin 16} (ha : readField s.data ra < modulusOf c ms) (rd : Fin 16)
    (rule : CurveParams → Nat → Except Failure Nat) :
    fieldUnary crv rd ra s ms rule =
      completeCommand s (do return writeField rd (← rule c (readField s.data ra)) s.data) := by
  simp only [fieldUnary, curveOf_ok hc, felt_ok _ ha, exceptBind_ok]

/-- A two-source field command whose operands pass their checks writes its rule's value (40_field.md R112). -/
theorem fieldBinary_ok {crv : Fin 16} {c : CurveParams} (hc : curveAt crv = some c) {s : State} {ms : Bool}
    {ra rb : Fin 16} (ha : readField s.data ra < modulusOf c ms) (hb : readField s.data rb < modulusOf c ms)
    (rd : Fin 16) (rule : CurveParams → Nat → Nat → Nat) :
    fieldBinary crv rd ra rb s ms rule = .next (finishedWith s
      (writeField rd (rule c (readField s.data ra) (readField s.data rb)) s.data)) := by
  simp only [fieldBinary, curveOf_ok hc, felt_ok _ ha, felt_ok _ hb, exceptBind_ok, exceptPure,
    completeCommand_ok]

/-! ### Point operands -/

/-- A point operand is accepted exactly when the register holds that point (41_curves.md R151). -/
theorem pt_ok_iff (c : CurveParams) (d : Data) (j : Fin 8) (f : Failure) (P : Point) :
    pt c d j f = .ok P ↔ holdsPoint c d j P := by
  unfold pt readPoint holdsPoint
  cases hi : readPinf d j <;> cases hf : c.fam <;> simp [validPoint, hf] <;>
    first
    | (constructor
       · intro h
         split at h
         · next hv => exact ⟨(Except.ok.inj h).symm, hv.1.1, hv.1.2, hv.2⟩
         · cases h
       · rintro ⟨rfl, h1, h2, h3⟩
         rw [if_pos ⟨⟨h1, h2⟩, h3⟩])
    | exact ⟨fun h => h.symm, fun h => h.symm⟩

/-- A point operand that the register does not hold is refused with the caller's error. -/
theorem pt_error {c : CurveParams} {d : Data} {j : Fin 8} (f : Failure) (h : ∀ P, ¬holdsPoint c d j P) :
    pt c d j f = .error f := by
  cases hp : pt c d j f with
  | ok P => exact absurd ((pt_ok_iff c d j f P).1 hp) (h P)
  | error g =>
    unfold pt at hp
    split at hp
    · exact hp.symm
    · split at hp
      · cases hp
      · exact hp.symm

/-- A point written to a point register changes nothing else (41_curves.md R152). -/
theorem onlyPoint_setpt (j : Fin 8) (P : Point) (d : Data) : onlyPoint j d (setpt j P d) := by
  cases P with
  | inf =>
    refine ⟨fun r hx hy => ?_, fun i hi => ?_, fun a => rfl⟩
    · exact (readField_writeField_other hy 0 _).trans (readField_writeField_other hx 0 _)
    · simp only [setpt, readPinf_writePinf, if_neg hi, readPinf_writeField]
  | affine x y =>
    refine ⟨fun r hx hy => ?_, fun i hi => ?_, fun a => rfl⟩
    · exact (readField_writeField_other hy y _).trans (readField_writeField_other hx x _)
    · simp only [setpt, readPinf_writePinf, if_neg hi, readPinf_writeField]

/-- The coordinates of a point fit a field register. -/
def Point.fits : Point → Prop
  | .inf => True
  | .affine x y => x < 2 ^ 576 ∧ y < 2 ^ 576

/-- A point whose coordinates fit is stored as it is (41_curves.md R152). -/
theorem storesPoint_setpt (j : Fin 8) {P : Point} (h : P.fits) (d : Data) : storesPoint (setpt j P d) j P := by
  have hne : xReg j ≠ yReg j := xReg_ne_yReg j j
  cases P with
  | inf =>
    refine ⟨?_, readField_writeField_of_lt (by positivity) _ _, ?_⟩
    · rw [setpt, readField_writePinf, readField, readField_writeField_other hne]
      exact readField_writeField_of_lt (by positivity) _ _
    · rw [setpt, readPinf_writePinf, if_pos rfl]
  | affine x y =>
    refine ⟨?_, readField_writeField_of_lt h.2 _ _, ?_⟩
    · rw [setpt, readField_writePinf, readField, readField_writeField_other hne]
      exact readField_writeField_of_lt h.1 _ _
    · rw [setpt, readPinf_writePinf, if_pos rfl]

/-! ### Scalars -/

theorem scalarOf_ok {c : CurveParams} {d : Data} {rk : Bool} {rb : Fin 16} (h : scalarAccepted c d rk rb) :
    scalarOf c d rk rb = .ok (readField d rb) := by
  simp only [scalarOf, require_true _ h.1, require_true _ h.2, exceptBind_ok, exceptPure]

/-- A scalar that is refused is refused with one of the two scalar checks (43_scalar.md R192). -/
theorem scalarOf_error {c : CurveParams} {d : Data} {rk : Bool} {rb : Fin 16} (h : ¬scalarAccepted c d rk rb) :
    scalarOf c d rk rb = .error .scalarWidth ∨ scalarOf c d rk rb = .error .scalarRange := by
  by_cases h1 : readField d rb < 2 ^ (64 * c.limbs)
  · right
    have h2 : ¬(rk = true → 1 ≤ readField d rb ∧ readField d rb < c.n) := fun h2 => h ⟨h1, h2⟩
    simp only [scalarOf, require_true _ h1, require_false _ h2, exceptBind_ok, exceptBind_error]
  · left
    simp only [scalarOf, require_false _ h1, exceptBind_error]

/-! ### Hash contexts -/

/-- The sponge check passes on the contexts the claims call ready (44_keccak.md R219). -/
theorem spctx_ok {need : Nat} {d : Data} (h : spongeReady need d) : spctx need d = .ok (readSponge d) := by
  obtain ⟨hk, hp, h1, h2, h3, h4, h5, h6, h7, h8, h9⟩ := h
  have hr : (readSponge d).rate % 8 = 0 ∧ 8 ≤ (readSponge d).rate ∧ (readSponge d).rate ≤ 192 := ⟨h1, h2, h3⟩
  have hd : 0x01 ≤ (readSponge d).dsuf.toNat ∧ (readSponge d).dsuf.toNat ≤ 0x7F := ⟨h4, h5⟩
  have hn : (readSponge d).nr = 12 ∨ (readSponge d).nr = 24 := h6
  have hl : (readSponge d).dlen ≤ 64 := h7
  have h1 : need = 1 → (readSponge d).pos < (readSponge d).rate := h8
  have h2 : need = 2 → (readSponge d).pos ≤ (readSponge d).rate := h9
  simp only [spctx, require_true _ (And.intro hk hp), require_true _ hr, require_true _ hd, require_true _ hn,
    require_true _ hl, require_true _ h1, require_true _ h2, exceptBind_ok, exceptPure]

/-- A context of another kind or in another phase is refused first. -/
theorem spctx_wrongState {need : Nat} {d : Data} (h : ¬(ctxKind d = 1 ∧ ctxPhase d = need)) :
    spctx need d = .error .wrongState := by
  simp only [spctx, require_false _ h, exceptBind_error]

/-- A context of the right kind and phase with a header out of range is refused next. -/
theorem spctx_badHeader {need : Nat} {d : Data} (hs : ctxKind d = 1 ∧ ctxPhase d = need)
    (h : ¬spongeHeader need d) : spctx need d = .error .badHeader := by
  simp only [spctx, require_true _ hs, exceptBind_ok]
  by_cases h1 : (readSponge d).rate % 8 = 0 ∧ 8 ≤ (readSponge d).rate ∧ (readSponge d).rate ≤ 192
  case neg => simp only [require_false _ h1, exceptBind_error]
  by_cases h2 : 0x01 ≤ (readSponge d).dsuf.toNat ∧ (readSponge d).dsuf.toNat ≤ 0x7F
  case neg => simp only [require_true _ h1, require_false _ h2, exceptBind_ok, exceptBind_error]
  by_cases h3 : (readSponge d).nr = 12 ∨ (readSponge d).nr = 24
  case neg =>
    simp only [require_true _ h1, require_true _ h2, require_false _ h3, exceptBind_ok, exceptBind_error]
  by_cases h4 : (readSponge d).dlen ≤ 64
  case neg =>
    simp only [require_true _ h1, require_true _ h2, require_true _ h3, require_false _ h4, exceptBind_ok,
      exceptBind_error]
  by_cases h5 : need = 1 → (readSponge d).pos < (readSponge d).rate
  case neg =>
    simp only [require_true _ h1, require_true _ h2, require_true _ h3, require_true _ h4, require_false _ h5,
      exceptBind_ok, exceptBind_error]
  by_cases h6 : need = 2 → (readSponge d).pos ≤ (readSponge d).rate
  case neg =>
    simp only [require_true _ h1, require_true _ h2, require_true _ h3, require_true _ h4, require_true _ h5,
      require_false _ h6, exceptBind_ok, exceptBind_error]
  exact absurd ⟨h1.1, h1.2.1, h1.2.2, h2.1, h2.2, h3, h4, h5, h6⟩ h

theorem sipContext_ok {d : Data} (h : sipReady d) : sipContext d = .ok () := by
  simp only [sipContext, require_true _ (And.intro h.1 h.2.1), exceptBind_ok, require_true _ h.2.2]

theorem sipContext_wrongState {d : Data} (h : ¬(ctxKind d = 3 ∧ ctxPhase d = 1)) :
    sipContext d = .error .wrongState := by
  simp only [sipContext, require_false _ h, exceptBind_error]

theorem sipContext_badHeader {d : Data} (hs : ctxKind d = 3 ∧ ctxPhase d = 1) (h : ¬(ctxByte d 33).toNat ≤ 1) :
    sipContext d = .error .badHeader := by
  simp only [sipContext, require_true _ hs, exceptBind_ok, require_false _ h]

/-! ### Host accesses -/

/-- Everything a host read can do: the state stays, or a blocked read sets `HZD` and answers 0
(20_memory.md R56, R58, R59). -/
theorem memRead_cases (a : Int) (n : Nat) (s : State) :
    (∃ r, memRead a n s = (s, r)) ∨ (s.busy = true ∧ memRead a n s = ({ s with hzd := true }, .value 0)) := by
  unfold memRead
  split
  · exact .inl ⟨_, rfl⟩
  · split
    · next h =>
      simp only [Bool.and_eq_true] at h
      exact .inr ⟨h.2, rfl⟩
    · exact .inl ⟨_, rfl⟩

/-- Everything a host write can do (20_memory.md R57). -/
theorem memWrite_cases (a : Int) (n : Nat) (v : Word) (s : State) :
    memWrite a n v s = (s, .busError) ∨
    (locate a n = some .cmd ∧ memWrite a n v s = (submit v s, .ok)) ∨
    (locate a n = some .status ∧ memWrite a n v s = (writeStatus v s, .ok)) ∨
    (locate a n = some .ctrl ∧ memWrite a n v s = (writeCtrl v s, .ok)) ∨
    (s.busy = true ∧ memWrite a n v s = ({ s with hzd := true }, .ok)) ∨
    ∃ l, locate a n = some l ∧ blockedWhileBusy l = true ∧ s.busy = false ∧
      memWrite a n v s = ({ s with data := writeData v s.data l }, .ok) := by
  unfold memWrite
  cases hl : locate a n with
  | none => exact .inl rfl
  | some l =>
    cases l <;> cases hb : s.busy <;> simp [blockedWhileBusy]

/-- The three ways a submission ends up (20_memory.md R61, R62). -/
theorem submit_cases (v : Word) (s : State) :
    (s.busy = false ∧ s.err = false ∧ submit v s = { s with cmdr := v, busy := true, done := false }) ∨
      ((s.busy = true ∨ s.err = true) ∧ submit v s = { s with drop := true }) := by
  unfold submit
  cases hb : s.busy <;> cases he : s.err <;> simp

end Sys2Proof.Machine
end

