-- ==== Sys2Proof/Laws/Exec.lean ====
section
/-! SUPPORT. Every command ends in one of two ways: a result or an error. -/

namespace Sys2Proof.Machine

/-- Every arm of `exec` is the completion of a value or an error that the frozen data state decides. -/
theorem exec_completes (i : Instr) (s : State) : ∃ r, exec i s = completeCommand s r := by
  cases i <;> first | exact ⟨_, rfl⟩ | exact ⟨.ok _, rfl⟩

/-- Everything a decoded command can answer (20_memory.md R63, 60_exceptions.md R316). -/
theorem exec_cases (i : Instr) (s : State) :
    (∃ d, exec i s = .next (finishedWith s d)) ∨
      ∃ f, exec i s = .next (failedWith s (errorCode (failureKind f))) := by
  obtain ⟨r, h⟩ := exec_completes i s
  rw [h]
  rcases completeCommand_cases s r with ⟨d, -, h⟩ | ⟨f, -, h⟩
  · exact .inl ⟨d, h⟩
  · exact .inr ⟨f, h⟩

/-- The two forms of a next state that a command answered. -/
theorem exec_next {i : Instr} {s t : State} (h : exec i s = .next t) :
    (∃ d, t = finishedWith s d) ∨ ∃ f, t = failedWith s (errorCode (failureKind f)) := by
  rcases exec_cases i s with ⟨d, h'⟩ | ⟨f, h'⟩ <;> rw [h'] at h <;> cases h
  · exact .inl ⟨d, rfl⟩
  · exact .inr ⟨f, rfl⟩

/-- A chain of checks answered ok: the first check did, and so did the rest. -/
theorem bind_eq_ok {ε α β : Type} {x : Except ε α} {f : α → Except ε β} {b : β} (h : (x >>= f) = .ok b) :
    ∃ a, x = .ok a ∧ f a = .ok b := by
  cases x with
  | ok a => exact ⟨a, rfl, h⟩
  | error e => cases h

end Sys2Proof.Machine
end

