-- ==== Sys2Proof/Laws/Hash.lean ====
section
/-! SUPPORT. The hash units: lanes, lengths, what a sponge action keeps, and contexts read back. -/

namespace Sys2Proof.Machine

/-! ### Frames of the two buffers -/

theorem onlyBytes_refl (d : Data) : onlyBytes [] d d := ⟨rfl, rfl, fun _ _ => rfl⟩

theorem onlyBytes_writeCtx (off : Nat) (bs : List Byte) (d : Data) :
    onlyBytes [(ctxBase + off, bs.length)] d (writeCtx off bs d) :=
  ⟨rfl, rfl, fun a h => read_writeCtx_other d off bs a (h _ (List.mem_singleton.2 rfl))⟩

theorem onlyBytes_writeDat (off : Nat) (bs : List Byte) (d : Data) :
    onlyBytes [(datBase + off, bs.length)] d (writeDat off bs d) :=
  ⟨rfl, rfl, fun a h => read_writeDat_other d off bs a (h _ (List.mem_singleton.2 rfl))⟩

/-- The frames of two updates in a row. -/
theorem onlyBytes_trans {r1 r2 : List (Nat × Nat)} {d e g : Data} (h1 : onlyBytes r1 d e)
    (h2 : onlyBytes r2 e g) : onlyBytes (r1 ++ r2) d g := by
  refine ⟨h2.1.trans h1.1, h2.2.1.trans h1.2.1, fun a h => ?_⟩
  rw [h2.2.2 a fun r hr => h r (List.mem_append_right _ hr), h1.2.2 a fun r hr => h r (List.mem_append_left _ hr)]

/-- A frame may be widened. -/
theorem onlyBytes_mono {r1 r2 : List (Nat × Nat)} {d e : Data} (h : onlyBytes r1 d e)
    (hs : ∀ a, (∀ r ∈ r2, a < r.1 ∨ r.1 + r.2 ≤ a) → ∀ r ∈ r1, a < r.1 ∨ r.1 + r.2 ≤ a) : onlyBytes r2 d e :=
  ⟨h.1, h.2.1, fun a ha => h.2.2 a (hs a ha)⟩

/-! ### Lanes -/

@[simp] theorem lanesOf_length (f : Nat → Nat → Lane) : (lanesOf f).length = 25 := by simp [lanesOf]

/-- Lane `(x, y)` of a state given lane by lane. -/
theorem lane_lanesOf (f : Nat → Nat → Lane) {x y : Nat} (hx : x < 5) (hy : y < 5) :
    lane (lanesOf f) x y = f x y := by
  have h : 5 * (y % 5) + x % 5 < 25 := by omega
  simp only [lane, lanesOf, List.getD_eq_getElem?_getD, List.getElem?_map, List.getElem?_range h, Option.map_some,
    Option.getD_some]
  congr 1 <;> omega

@[simp] theorem keccakRound_length (A : List Lane) (ir : Nat) : (keccakRound A ir).length = 25 := by
  simp [keccakRound, iota]

theorem foldl_keccakRound_length (rs : List Nat) {A : List Lane} (h : A.length = 25) :
    (rs.foldl keccakRound A).length = 25 := by
  induction rs generalizing A with
  | nil => exact h
  | cons r rs ih => exact ih (keccakRound_length A r)

@[simp] theorem bytesOfLanes_length (A : List Lane) : (bytesOfLanes A).length = 8 * A.length := by
  induction A with
  | nil => rfl
  | cons v A ih =>
    simp only [bytesOfLanes, List.flatMap_cons, List.length_append, leBytes_length, List.length_cons] at ih ⊢
    omega

/-- The permutation answers 200 bytes (44_keccak.md R217). -/
@[simp] theorem keccakP_length (bs : List Byte) (nr : Nat) : (keccakP bs nr).length = 200 := by
  rw [keccakP, bytesOfLanes_length, foldl_keccakRound_length _ (by simp [lanesOfBytes])]

/-! ### Sponge actions (44_keccak.md R218) -/

@[simp] theorem xorByteAt_length (sa : List Byte) (i : Nat) (b : Byte) : (xorByteAt sa i b).length = sa.length := by
  simp [xorByteAt]

/-- Byte `k` after an exclusive-or at `i`. -/
theorem getD_xorByteAt {sa : List Byte} {i : Nat} (b : Byte) (k : Nat) (hi : i < sa.length) :
    (xorByteAt sa i b).getD k 0 = sa.getD k 0 ^^^ (if k = i then b else 0) := by
  unfold xorByteAt
  by_cases h : k = i
  · subst h
    simp [hi]
  · simp [h, Ne.symm h]

/-- What every sponge action keeps: rate, suffix byte, rounds, digest length, and the size of `SA`. -/
def Sponge.sameConfig (v w : Sponge) : Prop :=
  w.rate = v.rate ∧ w.dsuf = v.dsuf ∧ w.nr = v.nr ∧ w.dlen = v.dlen ∧ (v.sa.length = 200 → w.sa.length = 200)

theorem Sponge.sameConfig_refl (v : Sponge) : v.sameConfig v := ⟨rfl, rfl, rfl, rfl, id⟩

theorem Sponge.sameConfig_trans {u v w : Sponge} (h1 : u.sameConfig v) (h2 : v.sameConfig w) : u.sameConfig w :=
  ⟨h2.1.trans h1.1, h2.2.1.trans h1.2.1, h2.2.2.1.trans h1.2.2.1, h2.2.2.2.1.trans h1.2.2.2.1,
    fun h => h2.2.2.2.2 (h1.2.2.2.2 h)⟩

/-- Absorbing a byte keeps the configuration and `POS < RATE`. -/
theorem absorbByte_keeps (v : Sponge) (b : Byte) :
    v.sameConfig (absorbByte v b) ∧ (v.pos < v.rate → (absorbByte v b).pos < v.rate) := by
  simp only [absorbByte]
  split
  · refine ⟨⟨rfl, rfl, rfl, rfl, fun _ => by simp [permuteSponge]⟩, fun h => ?_⟩
    simp only [permuteSponge]
    omega
  · next h => exact ⟨⟨rfl, rfl, rfl, rfl, fun hl => by simpa using hl⟩, fun hp => by simp only at h ⊢; omega⟩

/-- Absorbing bytes keeps the configuration and `POS < RATE`. -/
theorem absorbBytes_keeps (bs : List Byte) (v : Sponge) :
    v.sameConfig (bs.foldl absorbByte v) ∧ (v.pos < v.rate → (bs.foldl absorbByte v).pos < v.rate) := by
  induction bs generalizing v with
  | nil => exact ⟨v.sameConfig_refl, id⟩
  | cons b bs ih =>
    have h1 := absorbByte_keeps v b
    have h2 := ih (absorbByte v b)
    refine ⟨Sponge.sameConfig_trans h1.1 h2.1, fun h => ?_⟩
    have h3 := h1.2 h
    rw [h1.1.1] at h2
    exact h2.2 h3

/-- `finish()` keeps the configuration and leaves `POS = 0`. -/
theorem finishSponge_keeps (v : Sponge) : v.sameConfig (finishSponge v) ∧ (finishSponge v).pos = 0 :=
  ⟨⟨rfl, rfl, rfl, rfl, fun _ => by simp [finishSponge, permuteSponge]⟩, rfl⟩

/-- Squeezing a byte keeps the configuration and, for a positive rate, `POS <= RATE`. -/
theorem squeezeByte_keeps (v : Sponge) :
    v.sameConfig (squeezeByte v).2 ∧ (0 < v.rate → v.pos ≤ v.rate → (squeezeByte v).2.pos ≤ v.rate) := by
  simp only [squeezeByte]
  split
  · exact ⟨⟨rfl, rfl, rfl, rfl, fun _ => by simp [permuteSponge]⟩, fun h _ => by simp only [permuteSponge]; omega⟩
  · next h => exact ⟨⟨rfl, rfl, rfl, rfl, id⟩, fun h0 h1 => show v.pos + 1 ≤ v.rate by omega⟩

@[simp] theorem squeezeBytes_length (n : Nat) (v : Sponge) : (squeezeBytes n v).1.length = n := by
  induction n generalizing v with
  | zero => rfl
  | succ n ih => simp [squeezeBytes, ih]

/-- Squeezing bytes keeps the configuration and, for a positive rate, `POS <= RATE`. -/
theorem squeezeBytes_keeps (n : Nat) (v : Sponge) :
    v.sameConfig (squeezeBytes n v).2 ∧ (0 < v.rate → v.pos ≤ v.rate → (squeezeBytes n v).2.pos ≤ v.rate) := by
  induction n generalizing v with
  | zero => exact ⟨v.sameConfig_refl, fun _ h => h⟩
  | succ n ih =>
    have h1 := squeezeByte_keeps v
    have h2 := ih (squeezeByte v).2
    refine ⟨Sponge.sameConfig_trans h1.1 h2.1, fun h0 hp => ?_⟩
    have h3 := h1.2 h0 hp
    rw [h1.1.1] at h2
    exact h2.2 h0 h3

/-! ### The sponge context -/

/-- `SA` is read as 200 bytes. -/
@[simp] theorem readSponge_sa_length (d : Data) : (readSponge d).sa.length = 200 := by simp [readSponge]

/-- A write-back keeps the canonical form. -/
theorem wf_writeSponge {d : Data} (h : Memory.wf d.mem = true) {v : Sponge} (hl : v.sa.length = 200) :
    Memory.wf (writeSponge v d).mem = true :=
  wf_writeCtx (wf_writeCtx h (by omega)) (by simp)

/-- A write-back changes `SA` and `POS` only. -/
theorem onlyBytes_writeSponge {v : Sponge} (hl : v.sa.length = 200) (d : Data) :
    onlyBytes [(ctxBase, 200), (ctxBase + 203, 1)] d (writeSponge v d) := by
  have h := onlyBytes_trans (onlyBytes_writeCtx 0 v.sa d)
    (onlyBytes_writeCtx 203 [BitVec.ofNat 8 v.pos] (writeCtx 0 v.sa d))
  rw [hl] at h
  exact h

/-- A write-back read again: `SA` and `POS` as written, the rest of the header as it was. -/
theorem readSponge_writeSponge {d : Data} (h : Memory.wf d.mem = true) {v : Sponge} (hl : v.sa.length = 200)
    (hp : v.pos < 256) :
    readSponge (writeSponge v d) = { readSponge d with sa := v.sa, pos := v.pos } := by
  have hw := wf_writeCtx h (off := 0) (bs := v.sa) (by omega)
  have h1 : readCtx (writeSponge v d) 0 200 = v.sa := by
    rw [writeSponge, readCtx_writeCtx_other _ _ _ _ _ (by simp)]
    have := readCtx_writeCtx_same h (off := 0) (bs := v.sa) (by omega)
    rwa [hl] at this
  have h2 : ctxByte (writeSponge v d) 203 = BitVec.ofNat 8 v.pos :=
    ctxByte_writeCtx_same hw (off := 203) (bs := [BitVec.ofNat 8 v.pos]) (by simp) (i := 0) (by simp)
  have h3 : ∀ i, i < 203 ∨ 203 < i → 200 ≤ i → ctxByte (writeSponge v d) i = ctxByte d i := fun i hi h200 => by
    rw [writeSponge, ctxByte_writeCtx_other _ _ _ _ (by simp only [List.length_singleton]; omega),
      ctxByte_writeCtx_other _ _ _ _ (by omega)]
  have hpos : (BitVec.ofNat 8 v.pos).toNat = v.pos := by simp [Nat.mod_eq_of_lt hp]
  simp only [readSponge, h1, h2, hpos, h3 200 (by omega) (by omega), h3 201 (by omega) (by omega),
    h3 202 (by omega) (by omega), h3 204 (by omega) (by omega)]

/-- A write-back leaves kind and phase alone. -/
theorem ctxKindPhase_writeSponge {v : Sponge} (hl : v.sa.length = 200) (d : Data) :
    ctxKind (writeSponge v d) = ctxKind d ∧ ctxPhase (writeSponge v d) = ctxPhase d := by
  constructor <;>
  · simp only [ctxKind, ctxPhase, writeSponge]
    rw [ctxByte_writeCtx_other _ _ _ _ (by simp), ctxByte_writeCtx_other _ _ _ _ (by omega)]

/-! ### SipHash and BLAKE2 contexts -/

@[simp] theorem sipOutput_length (v : Sip) : (sipOutput v).length = 8 := by simp [sipOutput]

@[simp] theorem sipFinish_length (wide : Bool) (v : Sip) :
    (sipFinish wide v).1.length = if wide then 16 else 8 := by
  cases wide <;> simp [sipFinish]

/-- A write of the SipHash words and the length byte keeps the canonical form. -/
theorem wf_writeSip {d : Data} (h : Memory.wf d.mem = true) (v : Sip) (b : Byte) :
    Memory.wf (writeSip v b d).mem = true :=
  wf_writeCtx h (by simp)

/-- It changes `CTX[0..32]` only. -/
theorem onlyBytes_writeSip (v : Sip) (b : Byte) (d : Data) : onlyBytes [(ctxBase, 33)] d (writeSip v b d) := by
  have h := onlyBytes_writeCtx 0 (leBytes v.v0.toNat 8 ++ leBytes v.v1.toNat 8 ++ leBytes v.v2.toNat 8 ++
    leBytes v.v3.toNat 8 ++ [b]) d
  simp only [List.length_append, leBytes_length, List.length_singleton, Nat.reduceAdd] at h
  exact h

@[simp] theorem blake2Bytes_length {w : Nat} (B : Blake2 w) (h : List (BitVec w)) :
    (blake2Bytes B h).length = B.wb * h.length := by
  induction h with
  | nil => rfl
  | cons v h ih =>
    simp only [blake2Bytes, List.flatMap_cons, List.length_append, leBytes_length, List.length_cons] at ih ⊢
    rw [ih]
    ring

@[simp] theorem blake2F_length {w : Nat} (B : Blake2 w) (h : List (BitVec w)) (block : List Byte) (t : Nat)
    (final : Bool) : (blake2F B h block t final).length = 8 := by
  simp [blake2F]

end Sys2Proof.Machine
end

