-- ==== Sys2Proof/Laws/PerInstr.lean ====
section
/-! SUPPORT. The per-instruction family OpcodeByte: the top byte of an instruction's word is the operation
code that the opcode map gives it (30_encoding.md R85). -/

namespace Sys2Proof.Laws

/-- The operation code of the opcode map (30_encoding.md R85), written out apart from the encoder. -/
def opcodeOf : Instr → Nat
  | .nop => 0x00
  | .zeroize => 0x01
  | .fadd .. => 0x10
  | .fsub .. => 0x11
  | .fneg .. => 0x12
  | .fmul .. => 0x13
  | .fsqr .. => 0x14
  | .montmul .. => 0x15
  | .tomont .. => 0x16
  | .frommont .. => 0x17
  | .finv .. => 0x18
  | .fpow .. => 0x19
  | .fred .. => 0x1A
  | .fmov .. => 0x1B
  | .fldc .. => 0x1C
  | .pchk .. => 0x20
  | .padd .. => 0x21
  | .pdbl .. => 0x22
  | .pldc .. => 0x23
  | .smul .. => 0x28
  | .smulG .. => 0x28
  | .smulx .. => 0x29
  | .smulxG .. => 0x29
  | .keccakp .. => 0x40
  | .spinit .. => 0x41
  | .spabs .. => 0x42
  | .spfin => 0x43
  | .spsqz .. => 0x44
  | .spdig => 0x45
  | .b2init .. => 0x50
  | .b2comp .. => 0x51
  | .ghmul .. => 0x58
  | .sipinit .. => 0x60
  | .sipblk .. => 0x61
  | .sipfin .. => 0x62

/-- The top byte of the word of `i` is its operation code. -/
def OpcodeByte.Statement (i : Instr) : Prop := (opcField (encode i)).toNat = opcodeOf i

theorem OpcodeByte.nop : OpcodeByte.Statement .nop :=
  congrArg BitVec.toNat (opcField_formatP ..)

theorem OpcodeByte.zeroize : OpcodeByte.Statement .zeroize :=
  congrArg BitVec.toNat (opcField_formatP ..)

theorem OpcodeByte.fadd (crv ms rd ra rb) : OpcodeByte.Statement (.fadd crv ms rd ra rb) :=
  congrArg BitVec.toNat (opcField_formatP ..)

theorem OpcodeByte.fsub (crv ms rd ra rb) : OpcodeByte.Statement (.fsub crv ms rd ra rb) :=
  congrArg BitVec.toNat (opcField_formatP ..)

theorem OpcodeByte.fneg (crv ms rd ra) : OpcodeByte.Statement (.fneg crv ms rd ra) :=
  congrArg BitVec.toNat (opcField_formatP ..)

theorem OpcodeByte.fmul (crv ms rd ra rb) : OpcodeByte.Statement (.fmul crv ms rd ra rb) :=
  congrArg BitVec.toNat (opcField_formatP ..)

theorem OpcodeByte.fsqr (crv ms rd ra) : OpcodeByte.Statement (.fsqr crv ms rd ra) :=
  congrArg BitVec.toNat (opcField_formatP ..)

theorem OpcodeByte.montmul (crv ms rd ra rb) : OpcodeByte.Statement (.montmul crv ms rd ra rb) :=
  congrArg BitVec.toNat (opcField_formatP ..)

theorem OpcodeByte.tomont (crv ms rd ra) : OpcodeByte.Statement (.tomont crv ms rd ra) :=
  congrArg BitVec.toNat (opcField_formatP ..)

theorem OpcodeByte.frommont (crv ms rd ra) : OpcodeByte.Statement (.frommont crv ms rd ra) :=
  congrArg BitVec.toNat (opcField_formatP ..)

theorem OpcodeByte.finv (crv ms rd ra) : OpcodeByte.Statement (.finv crv ms rd ra) :=
  congrArg BitVec.toNat (opcField_formatP ..)

theorem OpcodeByte.fpow (crv ms rd ra rb) : OpcodeByte.Statement (.fpow crv ms rd ra rb) :=
  congrArg BitVec.toNat (opcField_formatP ..)

theorem OpcodeByte.fred (crv ms rd ra) : OpcodeByte.Statement (.fred crv ms rd ra) :=
  congrArg BitVec.toNat (opcField_formatP ..)

theorem OpcodeByte.fmov (rd ra) : OpcodeByte.Statement (.fmov rd ra) :=
  congrArg BitVec.toNat (opcField_formatP ..)

theorem OpcodeByte.fldc (crv ms rd rc) : OpcodeByte.Statement (.fldc crv ms rd rc) :=
  congrArg BitVec.toNat (opcField_formatP ..)

theorem OpcodeByte.pchk (crv ra) : OpcodeByte.Statement (.pchk crv ra) :=
  congrArg BitVec.toNat (opcField_formatP ..)

theorem OpcodeByte.padd (crv rd ra rb) : OpcodeByte.Statement (.padd crv rd ra rb) :=
  congrArg BitVec.toNat (opcField_formatP ..)

theorem OpcodeByte.pdbl (crv rd ra) : OpcodeByte.Statement (.pdbl crv rd ra) :=
  congrArg BitVec.toNat (opcField_formatP ..)

theorem OpcodeByte.pldc (crv rd rc) : OpcodeByte.Statement (.pldc crv rd rc) :=
  congrArg BitVec.toNat (opcField_formatP ..)

theorem OpcodeByte.smul (crv rk rd ra rb) : OpcodeByte.Statement (.smul crv rk rd ra rb) :=
  congrArg BitVec.toNat (opcField_formatP ..)

theorem OpcodeByte.smulG (crv rk rd rb) : OpcodeByte.Statement (.smulG crv rk rd rb) :=
  congrArg BitVec.toNat (opcField_formatP ..)

theorem OpcodeByte.smulx (crv rk rd ra rb) : OpcodeByte.Statement (.smulx crv rk rd ra rb) :=
  congrArg BitVec.toNat (opcField_formatP ..)

theorem OpcodeByte.smulxG (crv rk rd rb) : OpcodeByte.Statement (.smulxG crv rk rd rb) :=
  congrArg BitVec.toNat (opcField_formatP ..)

theorem OpcodeByte.keccakp (mode) : OpcodeByte.Statement (.keccakp mode) :=
  congrArg BitVec.toNat (opcField_formatH ..)

theorem OpcodeByte.spinit (mode len) : OpcodeByte.Statement (.spinit mode len) :=
  congrArg BitVec.toNat (opcField_formatH ..)

theorem OpcodeByte.spabs (len) : OpcodeByte.Statement (.spabs len) :=
  congrArg BitVec.toNat (opcField_formatH ..)

theorem OpcodeByte.spfin : OpcodeByte.Statement .spfin :=
  congrArg BitVec.toNat (opcField_formatH ..)

theorem OpcodeByte.spsqz (len) : OpcodeByte.Statement (.spsqz len) :=
  congrArg BitVec.toNat (opcField_formatH ..)

theorem OpcodeByte.spdig : OpcodeByte.Statement .spdig :=
  congrArg BitVec.toNat (opcField_formatH ..)

theorem OpcodeByte.b2init (mode) : OpcodeByte.Statement (.b2init mode) :=
  congrArg BitVec.toNat (opcField_formatH ..)

theorem OpcodeByte.b2comp (final len) : OpcodeByte.Statement (.b2comp final len) :=
  congrArg BitVec.toNat (opcField_formatH ..)

theorem OpcodeByte.ghmul (len) : OpcodeByte.Statement (.ghmul len) :=
  congrArg BitVec.toNat (opcField_formatH ..)

theorem OpcodeByte.sipinit (mode) : OpcodeByte.Statement (.sipinit mode) :=
  congrArg BitVec.toNat (opcField_formatH ..)

theorem OpcodeByte.sipblk (len) : OpcodeByte.Statement (.sipblk len) :=
  congrArg BitVec.toNat (opcField_formatH ..)

theorem OpcodeByte.sipfin (len) : OpcodeByte.Statement (.sipfin len) :=
  congrArg BitVec.toNat (opcField_formatH ..)

end Sys2Proof.Laws
end

