-- ==== Sys2Proof/Laws/Window.lean ====
section
/-! SUPPORT. Where the offsets of the window lead, and the word that four bytes make (20_memory.md R51, R52). -/

namespace Sys2Proof.Machine

/-- An access that is not an aligned 32-bit one inside the window reaches nothing. -/
theorem locate_refused {a : Int} {n : Nat} (h : n ≠ 4 ∨ a % 4 ≠ 0 ∨ a < 0 ∨ a > 0xFFC) : locate a n = none := by
  rw [locate, if_pos h]

/-- An aligned 32-bit access inside the window reaches what its word offset names. -/
theorem locate_aligned {a : Nat} (h4 : a % 4 = 0) (h : a ≤ 0xFFC) : locate a 4 = locateWord a := by
  rw [locate, if_neg (by omega)]
  rfl

theorem locateWord_field (i : FReg) (w : Fin 18) :
    locateWord (0x400 + 0x80 * i.val + 4 * w.val) = some (.field i w) := by
  revert i w
  decide +kernel

theorem locateWord_ctx {k : Nat} (h : k < 64) : locateWord (0x100 + 4 * k) = some (.ctx (4 * k)) := by
  revert k
  decide

theorem locateWord_dat {k : Nat} (h : k < 64) : locateWord (0x200 + 4 * k) = some (.dat (4 * k)) := by
  revert k
  decide

/-- Every data offset reaches a location that is frozen while a command runs. -/
theorem locate_dataOffset {a : Nat} (h : dataOffset a) : ∃ l, locate a 4 = some l ∧ blockedWhileBusy l = true := by
  rcases h with rfl | ⟨h1, h2, h3⟩ | ⟨i, w, hi, hw, rfl⟩
  · exact ⟨.pinf, rfl, rfl⟩
  · rw [locate_aligned h3 (by omega)]
    by_cases h : a ≤ 0x1FC
    · obtain ⟨k, rfl⟩ : ∃ k, a = 0x100 + 4 * k := ⟨(a - 0x100) / 4, by omega⟩
      exact ⟨_, locateWord_ctx (by omega), rfl⟩
    · obtain ⟨k, rfl⟩ : ∃ k, a = 0x200 + 4 * k := ⟨(a - 0x200) / 4, by omega⟩
      exact ⟨_, locateWord_dat (by omega), rfl⟩
  · rw [locate_aligned (by omega) (by omega)]
    exact ⟨_, locateWord_field ⟨i, hi⟩ ⟨w, hw⟩, rfl⟩

/-- A buffer word is its four bytes, the first one lowest (20_memory.md R52). -/
theorem leWordAt_readBytes_four (m : Memory) (a : Nat) :
    leWordAt 32 (Memory.readBytes m a 4) 0 4 =
      Memory.read m (a + 3) ++ Memory.read m (a + 2) ++ Memory.read m (a + 1) ++ Memory.read m a := by
  have h : Memory.readBytes m a 4 =
      [Memory.read m a, Memory.read m (a + 1), Memory.read m (a + 2), Memory.read m (a + 3)] := by
    simp [Memory.readBytes, List.range_succ]
  rw [h]
  generalize Memory.read m a = b0
  generalize Memory.read m (a + 1) = b1
  generalize Memory.read m (a + 2) = b2
  generalize Memory.read m (a + 3) = b3
  apply BitVec.eq_of_toNat_eq
  have := b0.isLt
  have := b1.isLt
  have := b2.isLt
  have := b3.isLt
  have key : ∀ (x : Nat) (b : Byte), x <<< 8 ||| b.toNat = x * 256 + b.toNat := by
    intro x b
    have := b.isLt
    rw [← Nat.shiftLeft_add_eq_or_of_lt (by omega), Nat.shiftLeft_eq]
  simp only [leWordAt, List.drop_zero, List.take_succ_cons, List.take_zero, leNat, BitVec.toNat_ofNat,
    BitVec.toNat_append, key]
  omega

end Sys2Proof.Machine
end

