-- ==== Sys2Proof/Tests/Slice0.lean ====
section
/-! SUPPORT. Tests. Expected results are the spec's: words and values of 95_test_vectors.md and of the examples in
the rules; the name in a comment is that of the row or rule. The witnesses at the end meet the hypotheses of the
statements, clause by clause, at boundary values. -/

-- One test at a time: evaluated side by side they need more memory than the check allows.
set_option Elab.async false

namespace Sys2Proof.Tests

open Sys2Proof.Machine

/-! ### Helpers -/

/-- Reset with these field registers written. -/
def withFields (l : List (FReg × Nat)) : State :=
  { State.reset with data := l.foldl (fun d x => writeField x.1 x.2 d) Data.zero }

/-- The same with these bytes at these window offsets. -/
def withBytes (l : List (Nat × List Byte)) : State :=
  { State.reset with data := { Data.zero with mem := l.foldl (fun m x => Memory.writeBytes m x.1 x.2) [] } }

/-- The state that one step leads to on the command word `w`. -/
def run (w : Nat) (s : State) : State :=
  match step (s.withFetchWord 32 w) with
  | .next t => t
  | .fault _ => s
  | .refused _ => s

/-- Completed without error. -/
def done (s : State) : Bool := s.done && !s.err && !s.busy && decide (s.errcode = 0)

/-- Command `w` on `s` completes and leaves `v` in `F[r]`. -/
def gives (w : Nat) (s : State) (r : FReg) (v : Nat) : Bool := done (run w s) && decide (readField (run w s).data r = v)

/-- Command `w` on `s` ends with error `code` and the data state as it was. -/
def fails (w : Nat) (s : State) (code : BitVec 4) : Bool :=
  let t := run w s
  t.done && t.err && !t.busy && decide (t.errcode = code) && decide (t.data = s.data)

/-- Command `w` on `s` completes and leaves the point `P` in `P[j]`. -/
def givesPoint (w : Nat) (s : State) (j : PReg) (P : Point) : Bool :=
  done (run w s) && decide ((run w s).data = setpt j P s.data)

/-- Command `w` on `s` completes and leaves these bytes in `DAT`. -/
def givesDat (w : Nat) (s : State) (bs : List Byte) : Bool :=
  done (run w s) && decide (readDat (run w s).data 0 bs.length = bs)

/-- Command `w` on `s` completes and leaves these bytes at the start of `CTX`. -/
def givesCtx (w : Nat) (s : State) (bs : List Byte) : Bool :=
  done (run w s) && decide (readCtx (run w s).data 0 bs.length = bs)

/-- The prime of secp256k1. -/
def p0 : Nat := secp256k1Params.p

/-- The prime of Curve25519. -/
def p4 : Nat := curve25519Params.p

/-! ### Well-formed and ill-formed terms (30_encoding.md R85) -/

theorem test_wf_preset_with_length : Instr.wellFormed (.spinit 5 1) = false := by decide
theorem test_wf_last_preset_with_length : Instr.wellFormed (.spinit 9 0xFFFF) = false := by decide
theorem test_wf_preset : Instr.wellFormed (.spinit 9 0) = true := by decide
theorem test_wf_raw : Instr.wellFormed (.spinit 10 0x9FA8) = true := by decide

/-! ### Decoding: one word of the spec for every constructor -/

theorem test_decode_nop : decode 0x00000000 = .ok .nop := by decide +kernel
theorem test_decode_zeroize : decode 0x01000000 = .ok .zeroize := by decide +kernel
/-- F3. -/
theorem test_decode_fadd : decode 0x10082010 = .ok (.fadd 0 true 2 0 1) := by decide +kernel
/-- F5. -/
theorem test_decode_fsub : decode 0x11402010 = .ok (.fsub 4 false 2 0 1) := by decide +kernel
/-- F7. -/
theorem test_decode_fneg : decode 0x12701000 = .ok (.fneg 7 false 1 0) := by decide +kernel
/-- F11. -/
theorem test_decode_fmul : decode 0x13183120 = .ok (.fmul 1 true 3 1 2) := by decide +kernel
/-- F12. -/
theorem test_decode_fsqr : decode 0x14201000 = .ok (.fsqr 2 false 1 0) := by decide +kernel
/-- F14. -/
theorem test_decode_montmul : decode 0x15402010 = .ok (.montmul 4 false 2 0 1) := by decide +kernel
/-- F17. -/
theorem test_decode_tomont : decode 0x16301000 = .ok (.tomont 3 false 1 0) := by decide +kernel
/-- F19. -/
theorem test_decode_frommont : decode 0x17301000 = .ok (.frommont 3 false 1 0) := by decide +kernel
/-- F22. -/
theorem test_decode_finv : decode 0x18581000 = .ok (.finv 5 true 1 0) := by decide +kernel
/-- F24. -/
theorem test_decode_fpow : decode 0x19402010 = .ok (.fpow 4 false 2 0 1) := by decide +kernel
/-- Program 4. -/
theorem test_decode_fred : decode 0x1A186400 = .ok (.fred 1 true 6 4) := by decide +kernel
/-- F32. -/
theorem test_decode_fmov : decode 0x1B005000 = .ok (.fmov 5 0) := by decide +kernel
/-- F51. -/
theorem test_decode_fldc : decode 0x1C50000B = .ok (.fldc 5 false 0 11) := by decide +kernel
/-- Q11. -/
theorem test_decode_pchk : decode 0x20000100 = .ok (.pchk 0 1) := by decide +kernel
/-- S8. -/
theorem test_decode_padd : decode 0x21402010 = .ok (.padd 4 2 0 1) := by decide +kernel
/-- S9. -/
theorem test_decode_pdbl : decode 0x22601000 = .ok (.pdbl 6 1 0) := by decide +kernel
/-- Q2. -/
theorem test_decode_pldc : decode 0x23003000 = .ok (.pldc 0 3 0) := by decide +kernel
/-- E6. -/
theorem test_decode_smul : decode 0x28021090 = .ok (.smul 0 true 1 0 9) := by decide +kernel
/-- S16, the pseudo-command PUBKEY. -/
theorem test_decode_smulG : decode 0x28160020 = .ok (.smulG 1 true 0 2) := by decide +kernel
/-- X8. -/
theorem test_decode_smulx : decode 0x29420120 = .ok (.smulx 4 true 0 1 2) := by decide +kernel
/-- X13. -/
theorem test_decode_smulxG : decode 0x29540020 = .ok (.smulxG 5 false 0 2) := by decide +kernel
/-- K3. -/
theorem test_decode_keccakp : decode 0x400C0000 = .ok (.keccakp 12) := by decide +kernel
/-- H17. -/
theorem test_decode_spinit : decode 0x410A9FA8 = .ok (.spinit 10 0x9FA8) := by decide +kernel
/-- H14. -/
theorem test_decode_spabs : decode 0x42000100 = .ok (.spabs 256) := by decide +kernel
theorem test_decode_spfin : decode 0x43000000 = .ok .spfin := by decide +kernel
/-- H9. -/
theorem test_decode_spsqz : decode 0x44000040 = .ok (.spsqz 64) := by decide +kernel
theorem test_decode_spdig : decode 0x45000000 = .ok .spdig := by decide +kernel
/-- B2. -/
theorem test_decode_b2init : decode 0x50010000 = .ok (.b2init 1) := by decide +kernel
/-- B7. -/
theorem test_decode_b2comp : decode 0x51010080 = .ok (.b2comp true 128) := by decide +kernel
/-- M11. -/
theorem test_decode_ghmul : decode 0x58000010 = .ok (.ghmul 16) := by decide +kernel
/-- P8. -/
theorem test_decode_sipinit : decode 0x60010000 = .ok (.sipinit 1) := by decide +kernel
/-- P7. -/
theorem test_decode_sipblk : decode 0x61000038 = .ok (.sipblk 56) := by decide +kernel
/-- P3. -/
theorem test_decode_sipfin : decode 0x62000007 = .ok (.sipfin 7) := by decide +kernel

/-- FR2 to FR5, FR8, FR9, S2, S4, S6, K7, HE22, HE23, BE7, BE13, ME2, PE8: bits that must be zero. -/
theorem test_decode_reserved_bits :
    ([0x10000001, 0x10010000, 0x10040000, 0x12000010, 0x1C000100, 0x1B100000, 0x21008010, 0x28041190, 0x21082010,
      0x40180001, 0x42010000, 0x43000001, 0x50000001, 0x51020000, 0x58010000, 0x60000001] : List Word).all
      (fun w => decode w = .error .reservedBits) = true := by decide +kernel

/-- FR10, and the neighbours of assigned operation codes. -/
theorem test_decode_unassigned :
    ([0x1D000000, 0x02000000, 0x24000000, 0x2A000000, 0x46000000, 0x52000000, 0x63000000, 0xFFFFFFFF] : List Word).all
      (fun w => decode w = .error .unassignedOpcode) = true := by decide +kernel

/-- HE14. -/
theorem test_decode_preset_length : decode 0x41050001 = .error .presetLength := by decide +kernel

/-! ### Steps and the window -/

/-- T2 steps 1 and 2: the inverse of 0 ends with code 4. -/
theorem test_step_error : fails 0x18000100 State.reset 4 = true := by decide +kernel
/-- FR10: a word that spells no command ends with code 8. -/
theorem test_step_illegal : fails 0x1D000000 State.reset 8 = true := by decide +kernel
/-- T1 steps 4, 6, 7, 8, 9: `IE`, accept, `STATUS = 1`, completion, `STATUS = 2`, the line high. -/
theorem test_step_handshake :
    (match Host.Core.run core 5 { State.reset with
        inputs := [.write 0x010 4 1, .write 0x004 4 0, .read 0x008 4, .complete, .read 0x008 4] } with
      | .next t => decide (t.replies = [.value 2, .value 1, .ok, .ok]) && t.irq
      | .fault _ => false
      | .refused _ => false) = true := by decide +kernel
/-- T3 steps 2 and 3: a blocked read answers 0 and sets `HZD`, a blocked write is discarded. -/
theorem test_step_hazard :
    memRead 0x500 4 { withFields [(2, 5)] with busy := true } =
      ({ withFields [(2, 5)] with busy := true, hzd := true }, .value 0) := by decide +kernel
/-- The word order of a field register (20_memory.md R60), T2 steps 13, 18. -/
theorem test_window_field :
    (memRead 0x484 4 (memWrite 0x484 4 0x12345678 State.reset).1).2 = .value 0x12345678 ∧
      readField (memWrite 0x484 4 0x12345678 State.reset).1.data 1 = 0x12345678 * 2 ^ 32 := by decide +kernel
/-- A buffer word is little-endian (20_memory.md R52), program 3. -/
theorem test_window_bytes : readDat (memWrite 0x200 4 0x00636261 State.reset).1.data 0 4 = [0x61, 0x62, 0x63, 0] := by
  decide +kernel

/-! ### System and field commands -/

/-- T1 step 8. -/
theorem test_nop : run 0 State.reset = { State.reset with done := true } := by decide +kernel
/-- Program 4, last command. -/
theorem test_zeroize : (run 0x01000000 (withFields [(3, 7)])).data = Data.zero := by decide +kernel
/-- F1. -/
theorem test_fadd : gives 0x10002010 (withFields [(0, p0 - 1), (1, 2)]) 2 1 = true := by decide +kernel
/-- F2: the destination is a source. -/
theorem test_fadd_in_place : gives 0x10000000 (withFields [(0, p0 - 1)]) 0 (p0 - 2) = true := by decide +kernel
/-- F5. -/
theorem test_fsub : gives 0x11402010 (withFields [(1, 1)]) 2 (p4 - 1) = true := by decide +kernel
/-- F8. -/
theorem test_fneg : gives 0x12701000 (withFields [(0, 1)]) 1 (ed448Params.p - 1) = true := by decide +kernel
/-- F10. -/
theorem test_fmul : gives 0x13102010 (withFields [(0, 2 ^ 255), (1, 2)]) 2
    0xFFFFFFFEFFFFFFFFFFFFFFFFFFFFFFFF000000000000000000000001 = true := by decide +kernel
/-- F12. -/
theorem test_fsqr : gives 0x14201000 (withFields [(0, 2 ^ 200)]) 1 0x100000000FFFFFFFFFFFFFFFF000000010000 = true := by
  decide +kernel
/-- F14. -/
theorem test_montmul : gives 0x15402010 (withFields [(0, 0x26), (1, 5)]) 2 5 = true := by decide +kernel
/-- F16. -/
theorem test_tomont : gives 0x16001000 (withFields [(0, 1)]) 1 0x1000003D1 = true := by decide +kernel
/-- F19. -/
theorem test_frommont : gives 0x17301000 (withFields [(0, 1)]) 1 (2 ^ 466) = true := by decide +kernel
/-- F20. -/
theorem test_finv : gives 0x18001000 (withFields [(0, 2)]) 1
    0x7FFFFFFFFFFFFFFFFFFFFFFFFFFFFFFFFFFFFFFFFFFFFFFFFFFFFFFF7FFFFE18 = true := by decide +kernel
/-- F27: an exponent of 576 ones. -/
theorem test_fpow : gives 0x19002010 (withFields [(0, 3), (1, 2 ^ 576 - 1)]) 2
    0xBCF6D64169CCE58FBFCA58E1310C2ACC5DD1762F530CD2FAA474A5E837337914 = true := by decide +kernel
/-- F25. -/
theorem test_fpow_zero : gives 0x19402010 State.reset 2 1 = true := by decide +kernel
/-- F30. -/
theorem test_fred : gives 0x1A001000 (withFields [(0, 2 ^ 576 - 1)]) 1 0x1000007A2000E90A0FFFFFFFFFFFFFFFF = true := by
  decide +kernel
/-- F32. -/
theorem test_fmov : gives 0x1B005000 (withFields [(0, 2 ^ 576 - 1)]) 5 (2 ^ 576 - 1) = true := by decide +kernel
/-- F47. -/
theorem test_fldc : gives 0x1C080004 State.reset 0
    0x9D671CD581C69BC5E697F5E45BCD07C6741496C20E7CF878896CF21467D7D140 = true := by decide +kernel
/-- F54: the second operand is checked too. -/
theorem test_fadd_operand : fails 0x10002010 (withFields [(1, p0)]) 4 = true := by decide +kernel
/-- FR6: the parameter check comes before the operand check. -/
theorem test_finv_reserved : fails 0x18900000 State.reset 5 = true := by decide +kernel

/-! ### Point and scalar commands -/

/-- The base point of a curve in `P[0]`. -/
def withBase (c : CurveParams) : State := { State.reset with data := setpt 0 (basePoint c) Data.zero }

/-- The double of the base point of secp256k1 (table 3.2). -/
def twoG : Point := .affine 0xC6047F9441ED7D6D3045406E95C07CD85C778E4B8CEF3CA7ABAC09B95C709EE5
  0x1AE168FEA63DC339A3C58419466CEAEEF7F632653266D0E1236431A950CFE52A

/-- Three times the base point of Ed25519 (table 3.2). -/
def threeE : Point := .affine 0x67AE9C4A22928F491FF4AE743EDAC83A6343981981624886AC62485FD3F8E25C
  0x1267B1D177EE69ABA126A18E60269EF79F16EC176724030402C3684878F5B4D4

/-- S1 and Q1: a point of one curve is not a point of another. -/
theorem test_pchk : fails 0x20100000 (withBase secp256k1Params) 2 = true ∧
    done (run 0x20000000 (withBase secp256k1Params)) = true := by decide +kernel
/-- Q7: PADD with equal operands doubles. -/
theorem test_padd : givesPoint 0x21002000 (withBase secp256k1Params) 2 twoG = true := by decide +kernel
/-- S8: the chord on a Montgomery curve. -/
theorem test_padd_montgomery : givesPoint 0x21402010
    { State.reset with data := setpt 1 (basePoint curve25519Params) Data.zero } 2
    (.affine 0x471C71C71C71C71C71C71C71C71C71C71C71C71C71C71C71C71C71C71C71C712
      0x387C4536E46FCBC4E0C9E3FC4A61138A1DCCACDED58FD8DE320CEA98DBAB460B) = true := by decide +kernel
/-- S9: the point of order 2 of Ed25519. -/
theorem test_pdbl : givesPoint 0x22601000 (withFields [(1, ed25519Params.p - 1)]) 1 (.affine 0 1) = true := by
  decide +kernel
/-- S7: the vertical tangent. -/
theorem test_pdbl_vertical : givesPoint 0x22401000 State.reset 1 .inf = true := by decide +kernel
/-- Q2: the identity of a Weierstrass and of an Edwards curve. -/
theorem test_pldc : givesPoint 0x23003000 State.reset 3 .inf = true ∧
    givesPoint 0x23603000 State.reset 3 (.affine 0 1) = true := by decide +kernel
/-- Q17 on Ed25519. -/
theorem test_smul : givesPoint 0x28601090 { withBase ed25519Params with
    data := writeField 9 3 (withBase ed25519Params).data } 1 threeE = true := by decide +kernel
/-- E6: the point is checked before the scalar. -/
theorem test_smul_order : fails 0x28021090 (withFields [(0, secp256k1Params.gx), (1, secp256k1Params.gy + 1)]) 2 = true := by
  decide +kernel
/-- Q12 and E1. -/
theorem test_smulG : givesPoint 0x28041090 (withFields [(9, 1)]) 1 (basePoint secp256k1Params) = true ∧
    fails 0x28061090 State.reset 3 = true := by decide +kernel
/-- X11: `u = 2` lies on the twist. -/
theorem test_smulx : gives 0x29400120 (withFields [(1, 2), (2, 3)]) 0
    0x56F0B3E7E53FED658BF39E9F8691055BA8A58A935482B00B21B5678C16261FEC = true := by decide +kernel
/-- X2. -/
theorem test_smulxG : gives 0x29440020 (withFields [(2, 9)]) 0
    0x192B929197D07748DB44600DA41BAB7499B1C2E6E2F87C6F0E337980668164BA = true := by decide +kernel
/-- X7 and X9. -/
theorem test_smulx_errors : fails 0x29400120 (withFields [(1, p4), (2, 1)]) 2 = true ∧
    fails 0x29100120 State.reset 5 = true := by decide +kernel

/-! ### Hash commands -/

/-- A context header and trailer over zeros: `CTX[200..204]` and `CTX[254..255]` (10_state.md R33, R34). -/
def withSponge (rate dsuf nr pos dlen phase : Byte) : State :=
  withBytes [(0x100 + 200, [rate, dsuf, nr, pos, dlen]), (0x100 + 254, [1, phase])]

/-- K3: the last 12 rounds on the zero state. -/
theorem test_keccakp : givesDat 0x400C0000 State.reset
    [0x17, 0x86, 0xa7, 0xb9, 0x38, 0x54, 0x5e, 0x8e, 0x1e, 0xd0, 0x59, 0xf2, 0x50, 0x6a, 0xcd, 0xd9] = true := by
  decide +kernel
/-- K6. -/
theorem test_keccakp_rounds : fails 0x40170000 State.reset 5 = true := by decide +kernel
/-- Trace of H3: `SPINIT SHA3_256`. -/
theorem test_spinit : (run 0x41050000 (withBytes [(0x100, [9]), (0x1FF, [3])])).data =
    (withSponge 0x88 0x06 0x18 0 0x20 1).data := by decide +kernel
/-- HE17: a RAW rate above 192. -/
theorem test_spinit_rate : fails 0x410A1FC8 State.reset 5 = true := by decide +kernel
/-- Trace of H3: `SPABS 3` takes three bytes of `DAT` and moves `POS`. -/
theorem test_spabs : givesCtx 0x42000003
    (withBytes [(0x100 + 200, [0x88, 0x06, 0x18, 0, 0x20]), (0x1FE, [1, 1]), (0x200, [0x61, 0x62, 0x63, 0x64])])
    [0x61, 0x62, 0x63, 0] = true := by decide +kernel
/-- HE9 and HE21: phase before length, and `POS = RATE` while absorbing. -/
theorem test_spabs_errors : fails 0x42000101 (withSponge 0x88 0x06 0x18 0 0x20 2) 7 = true ∧
    fails 0x42000000 (withSponge 0x88 0x06 0x18 136 0x20 1) 5 = true := by decide +kernel
/-- H17: TurboSHAKE128 of the empty message, 12 rounds; the first lane squeezed. -/
theorem test_spfin : givesCtx 0x43000000 (withSponge 168 0x1F 12 0 0 1)
    [0x1e, 0x41, 0x5f, 0x1c, 0x59, 0x83, 0xaf, 0xf2] = true := by decide +kernel
/-- Squeezing within a block only copies (44_keccak.md R218). -/
theorem test_spsqz : givesDat 0x44000002
    (withBytes [(0x100, [1, 2, 3, 4]), (0x100 + 200, [168, 0x1F, 12, 1, 0]), (0x1FE, [1, 2]), (0x200, [9, 9, 9])])
    [2, 3, 9] = true := by decide +kernel
/-- HE8. -/
theorem test_spsqz_zero : fails 0x44000000 (withSponge 168 0x1F 24 0 0 2) 5 = true := by decide +kernel
/-- H2: the first bytes of the SHA3-256 digest of the empty message. -/
theorem test_spdig : givesDat 0x45000000 (withSponge 0x88 0x06 0x18 0 0x20 1)
    [0xa7, 0xff, 0xc6, 0xf8, 0xbf, 0x1e, 0xd7, 0x66, 0x51, 0xc1, 0x47, 0x56, 0xa0, 0x61, 0xd6, 0x62] = true := by
  decide +kernel
/-- HE7. -/
theorem test_spdig_xof : fails 0x45000000 (withSponge 168 0x1F 24 0 0 1) 5 = true := by decide +kernel

/-- The context that `B2INIT S` makes of the parameter block `20 00 01 01` (B2). -/
def blake2sContext : State := run 0x50010000 (withBytes [(0x200, [32, 0, 1, 1])])

/-- Trace of B1: `h[0] = IV[0] xor 0x01010040`. -/
theorem test_b2init : givesCtx 0x50000000 (withBytes [(0x200, [64, 0, 1, 1])])
    [0x48, 0xc9, 0xbd, 0xf2, 0x67, 0xe6, 0x09, 0x6a] = true := by decide +kernel
/-- BE1 and BE2. -/
theorem test_b2init_errors : fails 0x50000000 (withBytes [(0x200, [65, 0, 1, 1])]) 5 = true ∧
    fails 0x50000000 State.reset 5 = true := by decide +kernel
/-- B2: BLAKE2s of "abc"; the fourth byte of `DAT` is not read. -/
theorem test_b2comp : givesCtx 0x51010003
    { blake2sContext with data := writeDat 0 [0x61, 0x62, 0x63, 0xFF] blake2sContext.data }
    [0x50, 0x8c, 0x5e, 0x8c, 0x32, 0x7c, 0x14, 0xe2, 0xe1, 0xa7, 0x2b, 0xa3, 0x4e, 0xeb, 0x45, 0x2f] = true := by
  decide +kernel
/-- BE11. -/
theorem test_b2comp_length : fails 0x51000041 blake2sContext 1 = true := by decide +kernel

/-- M10: `x * x^127`. -/
theorem test_ghmul : givesCtx 0x58000001 (withBytes [(0x110, [0x40]), (0x20F, [1])])
    [0xe1, 0, 0, 0, 0, 0, 0, 0, 0, 0, 0, 0, 0, 0, 0, 0] = true := by decide +kernel
/-- ME1. -/
theorem test_ghmul_length : fails 0x58000011 State.reset 1 = true := by decide +kernel

/-- The key `00 01 .. 0f` in `DAT`. -/
def withKey : State := withBytes [(0x200, [0, 1, 2, 3, 4, 5, 6, 7, 8, 9, 10, 11, 12, 13, 14, 15])]

/-- The example of 47_siphash.md R285. -/
theorem test_sipRound : sipRound ⟨0x7469686173716475, 0x6B617F6D656E6665, 0x6B7F62616D677361, 0x7B6B696E727E6C7B⟩ =
    ⟨0x6864848C93698C85, 0x41D43F143C94A7DC, 0xF3F94792D7121732, 0x5E52F75805987C12⟩ := by decide +kernel
/-- The example of 47_siphash.md R288. -/
theorem test_sipinit : readSip (run 0x60000000 withKey).data =
    ⟨0x7469686173716475, 0x6B617F6D656E6665, 0x6B7F62616D677361, 0x7B6B696E727E6C7B⟩ := by decide +kernel
/-- After `SIPBLK 8` (95_test_vectors.md section 7). -/
theorem test_sipblk : readSip (run 0x61000008 (run 0x60000000 withKey)).data =
    ⟨0x4A017198DE0A59E0, 0x0D52F6F62A4F59A4, 0x634CB3577B01FD3D, 0xA5224D6F55C7D9C8⟩ := by decide +kernel
/-- PE2. -/
theorem test_sipblk_length : fails 0x61000004 (run 0x60000000 withKey) 1 = true := by decide +kernel
/-- P3: the tail of seven bytes. -/
theorem test_sipfin : givesDat 0x62000007 (run 0x60000000 withKey)
    [0x37, 0xd1, 0x01, 0x8b, 0xf5, 0x00, 0x02, 0xab] = true := by decide +kernel
/-- P8: the 128-bit variant. -/
theorem test_sipfin_wide : givesDat 0x62000000 (run 0x60010000 withKey)
    [0xa3, 0x81, 0x7f, 0x04, 0xba, 0x25, 0xa8, 0xe6, 0x6d, 0xf6, 0x72, 0x14, 0xc7, 0x55, 0x02, 0x93] = true := by
  decide +kernel

/-! ### Witnesses: the hypotheses of each statement are met, each clause at a boundary -/

/-- The step answers a next state. -/
def isNext (o : Host.Outcome State Fault Refusal) : Bool :=
  match o with
  | .next _ => true
  | .fault _ => false
  | .refused _ => false

theorem test_isNext {o : Host.Outcome State Fault Refusal} (h : isNext o = true) : ∃ t, o = .next t := by
  cases o with
  | next t => exact ⟨t, rfl⟩
  | fault _ => cases h
  | refused _ => cases h

/-- A command in flight on operands 5 and 7 (T3). -/
def inFlight : State := { withFields [(2, 5), (3, 7)] with cmdr := 0x10001230, busy := true }

/-- An error is pending (T2 step 3). -/
def pending : State := { State.reset with cmdr := 0x18000100, done := true, err := true, errcode := 4 }

theorem test_witness_ResetState :
    ({ inFlight with inputs := [.hardReset] } : State).inputs = .hardReset :: [] ∧
      (2 : Word).getLsbD 1 = true ∧ (0xFFFFFFFF : Word).getLsbD 1 = true := by decide +kernel

theorem test_witness_StepKeepsGoodState : goodState inFlight = true ∧ goodState pending = true ∧
    (∃ t, step inFlight = .next t) ∧ ∃ t, step pending = .next t :=
  ⟨by decide +kernel, by decide +kernel, test_isNext (by decide +kernel), test_isNext (by decide +kernel)⟩

theorem test_witness_StepRunsCommand :
    (inFlight.inputs = [] ∧ inFlight.busy = true ∧ decode inFlight.cmdr = .ok (.fadd 0 false 1 2 3)) ∧
    decode ({ inFlight with cmdr := 0x1D000000 } : State).cmdr = .error .unassignedOpcode ∧
    ({ inFlight with inputs := [.complete] } : State).inputs = .complete :: [] ∧
    (State.reset.inputs = [] ∧ State.reset.busy = false) ∧
    ({ State.reset with inputs := [.complete] } : State).busy = false ∧
    ({ State.reset with inputs := [.read (-4) 2] } : State).inputs = .read (-4) 2 :: [] ∧
    ({ State.reset with inputs := [.write 0xFFC 4 1] } : State).inputs = .write 0xFFC 4 1 :: [] ∧
    0x6200FFFF < 2 ^ 32 ∧ decode (BitVec.ofNat 32 0x6200FFFF) = .ok (.sipfin 0xFFFF) := by decide +kernel

theorem test_witness_DecodeEncode : Instr.wellFormed (.spinit 9 0) = true ∧ Instr.wellFormed (.spinit 255 0xFFFF) = true ∧
    Instr.wellFormed (.smulG 15 true 7 15) = true := by decide

theorem test_witness_EncodeDecode : decode 0x29F6F0F0 = .ok (.smulxG 15 true 15 15) := by decide +kernel

theorem test_witness_Accept : State.reset.busy = false ∧ State.reset.err = false ∧
    decode 0xFFFFFFFF = .error .unassignedOpcode := by decide +kernel

theorem test_witness_Drop : inFlight.busy = true ∧ (pending.busy = false ∧ pending.err = true) := by decide +kernel

theorem test_witness_ReadMap :
    ((2 : Nat) ≠ 4 ∧ (0x402 : Int) % 4 ≠ 0 ∧ (-4 : Int) < 0 ∧ (0x1000 : Int) > 0xFFC) ∧
    inFlight.busy = true ∧ State.reset.busy = false ∧ (63 : Nat) < 64 := by decide +kernel

/-- The first and last offset of every run of data words, and their neighbours, which are reserved. -/
theorem test_witness_dataOffset :
    (dataOffset 0x014 ∧ dataOffset 0x100 ∧ dataOffset 0x2FC ∧ dataOffset 0x400 ∧ dataOffset 0xBC4) ∧
    ¬dataOffset 0x018 ∧ ¬dataOffset 0x0FC ∧ ¬dataOffset 0x300 ∧ ¬dataOffset 0x448 ∧ ¬dataOffset 0xFFC := by
  refine ⟨⟨.inl rfl, .inr (.inl (by decide)), .inr (.inl (by decide)), .inr (.inr ⟨0, 0, by decide⟩),
    .inr (.inr ⟨15, 17, by decide⟩)⟩, ?_, ?_, ?_, ?_, ?_⟩ <;>
  · rintro (h | h | ⟨i, w, h⟩) <;> omega

theorem test_witness_WriteMap : Memory.wf State.reset.data.mem = true ∧ State.reset.busy = false ∧
    (0xFFFFFFFD : Word).getLsbD 1 = false ∧ (2 : Word).getLsbD 1 = true := by decide +kernel

theorem test_witness_BusyHidesData :
    let s := { inFlight with inputs := [.read 0x500 4, .hardReset] }
    let t := { s with data := Data.zero }
    s.busy = true ∧ sameButData s t ∧ 2 ≤ s.inputs.length ∧ (∀ e ∈ s.inputs.take 2, e ≠ .complete) ∧ s.data ≠ t.data :=
  ⟨rfl, rfl, by decide, by decide, by decide +kernel⟩

theorem test_witness_CommandRegister :
    (∃ t, step { State.reset with inputs := [.write 0x004 4 5] } = .next t ∧ t.cmdr ≠ State.reset.cmdr) ∧
    (∃ t, step { inFlight with inputs := [.hardReset] } = .next t ∧ t.cmdr ≠ inFlight.cmdr) ∧
    ∃ t, step { inFlight with inputs := [.write 0x010 4 2] } = .next t ∧ t.cmdr ≠ inFlight.cmdr :=
  ⟨⟨_, rfl, by decide⟩, ⟨_, rfl, by decide⟩, ⟨_, rfl, by decide⟩⟩

theorem test_witness_PendingError :
    (pending.busy = false ∧ pending.err = true ∧ (∀ rest, pending.inputs ≠ .hardReset :: rest) ∧
      (∀ v rest, pending.inputs = .write 0x010 4 v :: rest → v.getLsbD 1 = false) ∧
      (∀ v rest, pending.inputs = .write 0x008 4 v :: rest → v.getLsbD 2 = false) ∧ ∃ t, step pending = .next t) ∧
    inFlight.err = false ∧ inFlight.errcode = 0 := by
  refine ⟨⟨rfl, rfl, fun _ h => ?_, fun _ _ h => ?_, fun _ _ h => ?_, _, rfl⟩, rfl, rfl⟩ <;> cases h

theorem test_witness_ErrorKinds : Instr.wellFormed (.ghmul 0xFFFF) = true ∧ Instr.wellFormed (.spinit 11 1) = true := by decide

/-- A decoded command, with and without error, a word that spells no command, both forms of the completing step. -/
theorem test_witness_InterruptLine :
    (∃ t, exec (.fadd 0 false 1 2 3) inFlight = .next t) ∧ (∃ t, exec (.finv 0 false 1 0) inFlight = .next t) ∧
    (decode 0x1D000000 = .error .unassignedOpcode ∧
      ∃ t, completeInFlight { inFlight with cmdr := 0x1D000000 } = .next t) ∧
    (inFlight.busy = true ∧ inFlight.inputs = [] ∧ ∃ t, step inFlight = .next t) ∧
    (∃ t, step { inFlight with cmdr := 0x1D000000, inputs := [.complete] } = .next t) ∧
    State.reset.busy = false ∧ State.reset.err = false :=
  ⟨test_isNext (by decide +kernel), test_isNext (by decide +kernel),
    ⟨by decide +kernel, test_isNext (by decide +kernel)⟩, ⟨rfl, rfl, test_isNext (by decide +kernel)⟩,
    test_isNext (by decide +kernel), rfl, rfl⟩

theorem test_witness_UnitsSeparate :
    (∃ t, exec (.spabs 256) State.reset = .next t) ∧ isHash (.spabs 256) = true ∧
    (∃ t, exec (.padd 0 2 0 1) State.reset = .next t) ∧ isHash (.padd 0 2 0 1) = false ∧
    Instr.padd 0 2 0 1 ≠ .zeroize :=
  ⟨test_isNext (by decide +kernel), rfl, test_isNext (by decide +kernel), rfl, by decide⟩

theorem test_witness_PinfWriters : (∃ t, exec (.pldc 0 7 0) State.reset = .next t) ∧ Instr.pldc 0 7 0 ≠ .zeroize ∧
    pointDestination (.pldc 0 7 0) ≠ some 6 ∧ pointDestination (.smulx 4 false 7 0 0) ≠ some 7 :=
  ⟨⟨_, rfl⟩, by decide, by decide, by decide⟩

theorem test_witness_MemoryIsCanonical :
    Memory.wf [(0x100, 1), (0x2FF, 255)] = true ∧
    ∀ a, Memory.read [(0x100, 1), (0x2FF, 255)] a = Memory.read [(0x100, 1), (0x2FF, 255)] a := ⟨by decide, fun _ => rfl⟩

theorem test_witness_LatencyIsPublic :
    (isHashWord 0x28160020 = false ∧ isHashWord 0x28163190 = false ∧ (0x28160020 : Word) >>> 17 = 0x28163190 >>> 17) ∧
    isHashWord 0x3F000000 = false ∧ isHashWord 0x70000000 = false ∧ decode 0x58010000 = .error .reservedBits ∧
    (0x40 ≤ ((0x40180000 : Word) >>> 24).toNat ∧ ((0x45000000 : Word) >>> 24).toNat ≤ 0x45) ∧
    (∀ n ∈ [200, 202, 203, 204, 254, 255],
      ctxByte (withBytes [(0x100, [1]), (0x1C9, [2])]).data n = ctxByte Data.zero n) ∧
    (decode 0x50000000 = .ok (.b2init 0) ∧ decode 0x50FF0000 = .ok (.b2init 255)) ∧
    (decode 0x60000000 = .ok (.sipinit 0) ∧ decode 0x60FF0000 = .ok (.sipinit 255)) ∧
    (decode 0x51000000 = .ok (.b2comp false 0) ∧ decode 0x5101FFFF = .ok (.b2comp true 0xFFFF)) ∧
    (decode 0x62000000 = .ok (.sipfin 0) ∧ decode 0x6200FFFF = .ok (.sipfin 0xFFFF)) ∧
    ctxByte (withBytes [(0x100, [1])]).data 80 = ctxByte Data.zero 80 ∧
    ctxByte (withBytes [(0x100, [1])]).data 33 = ctxByte Data.zero 33 ∧
    decode 0x5800FFFF = .ok (.ghmul 0xFFFF) ∧ decode 0x61000000 = .ok (.sipblk 0) := by decide +kernel

/-! #### Field commands -/

/-- `F[0] = F[1] = p - 1` of secp256k1, the largest operands. -/
def largest : State := withFields [(0, p0 - 1), (1, p0 - 1)]

theorem test_witness_FieldArithmetic :
    (curveAt 0 = some secp256k1Params ∧ readField largest.data 0 < secp256k1Params.p ∧
      readField largest.data 1 < secp256k1Params.p) ∧
    curveAt 7 = some ed448Params ∧ readField State.reset.data 0 < ed448Params.n := by decide +kernel

theorem test_witness_FieldMontgomery : curveAt 3 = some p521Params ∧
    readField (withFields [(0, p521Params.n - 1)]).data 0 < p521Params.n ∧
    readField (withFields [(0, p521Params.n - 1)]).data 1 < p521Params.n := by decide +kernel

theorem test_witness_FieldInverse : curveAt 0 = some secp256k1Params ∧
    readField largest.data 0 < secp256k1Params.p ∧ readField largest.data 0 ≠ 0 ∧
    Nat.Coprime (readField largest.data 0) secp256k1Params.p := by decide +kernel

theorem test_witness_FieldPower : curveAt 4 = some curve25519Params ∧
    readField (withFields [(0, p4 - 1), (1, 2 ^ 576 - 1)]).data 0 < curve25519Params.p := by decide +kernel

theorem test_witness_FieldMoves : curveAt 0 = some secp256k1Params ∧ curveAt 7 = some ed448Params := by decide +kernel

theorem test_witness_FieldConstants : curveAt 3 = some p521Params ∧
    ((11, p521Params.h) : RcField × Nat) ∈ ([(0, 0), (11, p521Params.h)] : List (RcField × Nat)) := by decide +kernel

theorem test_witness_FieldErrors : curveAt 0 = some secp256k1Params ∧
    secp256k1Params.p ≤ readField (withFields [(0, p0)]).data 0 ∧
    (readField (withFields [(0, p0 - 1), (1, p0)]).data 0 < secp256k1Params.p ∧
      secp256k1Params.p ≤ readField (withFields [(0, p0 - 1), (1, p0)]).data 1) ∧
    readField State.reset.data 0 = 0 := by decide +kernel

theorem test_witness_ReservedValues :
    8 ≤ (8 : CrvField).val ∧ 8 ≤ (15 : CrvField).val ∧ curveAt 0 = some secp256k1Params ∧
    (∀ a24, secp256k1Params.fam ≠ .montgomery a24) ∧ 12 ≤ (12 : RcField).val ∧ 2 ≤ (2 : RcField).val ∧
    ((23 : BitVec 8) ≠ 12 ∧ (23 : BitVec 8) ≠ 24) ∧ 10 < (11 : BitVec 8).toNat ∧
    (0x1F04 : BitVec 16).toNat % 256 % 8 ≠ 0 ∧ (0x1F00 : BitVec 16).toNat % 256 < 8 ∧
    192 < (0x1FC8 : BitVec 16).toNat % 256 ∧ (0x80A8 : BitVec 16).toNat / 256 % 128 = 0 ∧
    1 < (2 : BitVec 8).toNat := by
  refine ⟨by decide, by decide, rfl, ?_, by decide⟩
  intro a24
  change Family.weierstrass ≠ .montgomery a24
  exact fun h => Family.noConfusion h

/-! #### Points and scalars -/

theorem test_witness_CurveRom : curveAt 5 = some curve448Params ∧ curve448Params.fam = .montgomery 39081 ∧
    ((0, secp256k1Params) : CrvField × CurveParams) ∈ [((0, secp256k1Params) : CrvField × CurveParams)] ∧
    8 ≤ (8 : CrvField).val := by
  decide +kernel

/-- The base point, and the identity of a curve that has the flag. -/
theorem test_witness_PointCommands :
    curveAt 0 = some secp256k1Params ∧
    holdsPoint secp256k1Params (withBase secp256k1Params).data 0 (basePoint secp256k1Params) ∧
    holdsPoint secp256k1Params (run 0x23003000 State.reset).data 3 .inf ∧
    holdsPoint ed25519Params (withFields [(1, 1)]).data 0 (.affine 0 1) := by
  refine ⟨rfl, .inr ?_, .inl ?_, .inr ?_⟩ <;> decide +kernel

theorem test_witness_PointErrors :
    let e := { State.reset with data := writePinf 0 true Data.zero }
    (readPinf e.data 0 = true ∧ ed448Params.fam = .edwards) ∧
    (readPinf (withFields [(0, p0)]).data 0 = false ∧ secp256k1Params.p ≤ readField (withFields [(0, p0)]).data (xReg 0)) ∧
    secp256k1Params.p ≤ readField (withFields [(15, p0)]).data (yReg 7) ∧
    onCurve secp256k1Params (readField State.reset.data (xReg 1)) (readField State.reset.data (yReg 1)) = false := by
  decide +kernel

theorem test_witness_PointErrors_families : secp256k1Params.fam = .weierstrass ∧
    curve25519Params.fam = .montgomery 121665 ∧ ed25519Params.fam = .edwards := by decide

theorem test_witness_PointErrors_second :
    holdsPoint secp256k1Params (withBase secp256k1Params).data 0 (basePoint secp256k1Params) ∧
    ∀ Q, ¬holdsPoint secp256k1Params (withBase secp256k1Params).data 1 Q := by
  refine ⟨.inr (by decide +kernel), fun Q h => ?_⟩
  have hp : readPinf (withBase secp256k1Params).data 1 = false := by decide +kernel
  have ho : onCurve secp256k1Params (readField (withBase secp256k1Params).data (xReg 1))
      (readField (withBase secp256k1Params).data (yReg 1)) = false := by decide +kernel
  rcases h with h | h
  · rw [hp] at h
    cases h.1
  · rw [ho] at h
    cases h.2.2.2.2

/-- `G` and `2G`, `G` twice, `G` and its negative on secp256k1; the base point of Ed25519. -/
theorem test_witness_AddLaw :
    let g := secp256k1Params
    let e := ed25519Params
    let t : Int := e.cb * e.gx * e.gx * e.gy * e.gy
    (1 < g.p ∧ g.p < 2 ^ 576 ∧ 1 < e.p ∧ e.p < 2 ^ 576) ∧ g.fam ≠ .edwards ∧
    (g.gx ≠ 0xC6047F9441ED7D6D3045406E95C07CD85C778E4B8CEF3CA7ABAC09B95C709EE5 ∧
      Int.gcd (((0xC6047F9441ED7D6D3045406E95C07CD85C778E4B8CEF3CA7ABAC09B95C709EE5 : Nat) : Int) - g.gx) g.p = 1) ∧
    ((g.gy + g.gy) % g.p ≠ 0 ∧ Int.gcd (2 * (g.gy : Int)) g.p = 1) ∧
    (g.gy + (g.p - g.gy)) % g.p = 0 ∧ (0 + 0) % g.p = 0 ∧
    e.fam = .edwards ∧ Int.gcd (1 + t) e.p = 1 ∧ Int.gcd (1 - t) e.p = 1 := by decide +kernel

theorem test_witness_AddIsClosed :
    curveAt 0 = some secp256k1Params ∧ secp256k1Params.fam ≠ .edwards ∧
    validPoint secp256k1Params (basePoint secp256k1Params) = true ∧ validPoint secp256k1Params twoG = true ∧
    validPoint secp256k1Params .inf = true ∧ slopeDefined secp256k1Params (basePoint secp256k1Params) twoG ∧
    slopeDefined secp256k1Params (basePoint secp256k1Params) (basePoint secp256k1Params) ∧
    slopeDefined secp256k1Params .inf twoG := by
  refine ⟨rfl, ?_, ?_, ?_, ?_, ⟨fun _ => ?_, fun h => ?_⟩, ⟨fun h => absurd rfl h, fun _ _ => ⟨rfl, ?_⟩⟩, trivial⟩
  all_goals first | decide +kernel | exact absurd h (by decide +kernel)

theorem test_witness_AddIsClosed_edwards :
    let c := ed448Params
    let t : Int := c.cb * c.gx * c.gx * c.gy * c.gy
    curveAt 7 = some c ∧ c.fam = .edwards ∧ validPoint c (.affine c.gx c.gy) = true ∧
    Int.gcd (1 + t) c.p = 1 ∧ Int.gcd (1 - t) c.p = 1 := by decide +kernel

theorem test_witness_AddIdentity : curveAt 6 = some ed25519Params ∧ curveAt 4 = some curve25519Params ∧
    validPoint ed25519Params (basePoint ed25519Params) = true ∧ validPoint curve25519Params .inf = true ∧
    curve25519Params.fam ≠ .edwards := by decide +kernel

/-- The base points of both Edwards curves, and the point `(0, 1)`, whose negative has first coordinate 0. -/
theorem test_witness_AddIdentity_edwards :
    (∀ c ∈ [ed25519Params, ed448Params], c.fam = .edwards ∧ validPoint c (basePoint c) = true ∧
      basePoint c = .affine c.gx c.gy ∧ validPoint c (.affine 0 1) = true ∧
      Int.gcd (1 - (c.cb : Int) * c.gx * ((c.p - c.gx) % c.p : Nat) * c.gy * c.gy) c.p = 1 ∧
      Int.gcd (1 - (c.cb : Int) * (0 : Nat) * ((c.p - 0) % c.p : Nat) * (1 : Nat) * (1 : Nat)) c.p = 1) := by
  decide +kernel

/-- The largest scalars: `2^(64 L) - 1`, and `n - 1` with the range check. -/
theorem test_witness_ScalarMultiply :
    scalarAccepted secp256k1Params (withFields [(9, 2 ^ 256 - 1)]).data false 9 ∧
    scalarAccepted secp256k1Params (withFields [(9, secp256k1Params.n - 1)]).data true 9 ∧
    holdsPoint secp256k1Params (withBase secp256k1Params).data 0 (basePoint secp256k1Params) :=
  ⟨⟨by decide +kernel, fun h => by cases h⟩, ⟨by decide +kernel, fun _ => by decide +kernel⟩, .inr (by decide +kernel)⟩

/-- The point of order 2 of Curve25519: its multiples alternate, so they add as required. -/
theorem test_witness_MulBitsIsMul :
    (∀ j k, addPoint curve25519Params (mulSpec curve25519Params (.affine 0 0) j)
        (mulSpec curve25519Params (.affine 0 0) k) = mulSpec curve25519Params (.affine 0 0) (j + k)) ∧ 7 < 2 ^ 3 ∧
      2 ^ 256 - 1 < 2 ^ (64 * curve25519Params.limbs) := by
  have hO : addPoint curve25519Params (.affine 0 0) (.affine 0 0) = .inf := rfl
  have hm : ∀ k, mulSpec curve25519Params (.affine 0 0) k = if k % 2 = 0 then .inf else .affine 0 0 := by
    intro k
    induction k with
    | zero => rfl
    | succ k ih =>
      rw [mulSpec, ih]
      rcases Nat.mod_two_eq_zero_or_one k with h | h
      · rw [if_pos h, if_neg (by omega)]
        rfl
      · rw [if_neg (by omega), if_pos (by omega)]
        exact hO
  refine ⟨fun j k => ?_, by decide, by decide +kernel⟩
  rw [hm, hm, hm]
  rcases Nat.mod_two_eq_zero_or_one j with h | h <;> rcases Nat.mod_two_eq_zero_or_one k with h' | h' <;>
    rw [Nat.add_mod, h, h'] <;> rfl

theorem test_witness_SmallScalars : curveAt 7 = some ed448Params ∧
    validPoint ed448Params (basePoint ed448Params) = true := by decide +kernel

theorem test_witness_XOnlyMultiply :
    curveAt 4 = some curve25519Params ∧ curve25519Params.fam = .montgomery 121665 ∧
    scalarAccepted curve25519Params (withFields [(1, p4 - 1), (2, 2 ^ 256 - 1)]).data false 2 ∧
    readField (withFields [(1, p4 - 1), (2, 2 ^ 256 - 1)]).data 1 < curve25519Params.p ∧
    scalarAccepted curve25519Params State.reset.data false 2 ∧ readField State.reset.data 2 = 0 :=
  ⟨rfl, rfl, ⟨by decide +kernel, fun h => by cases h⟩, by decide +kernel, ⟨by decide +kernel, fun h => by cases h⟩,
    by decide +kernel⟩

/-- The first pass of the ladder on Curve25519 for a bit that differs from the one before, and all passes for no limb. -/
theorem test_witness_LadderByFormulas :
    0 < p4 ∧ p4 < 2 ^ 576 ∧
    (((9, 1, 1, 0) : Int × Int × Int × Int) = if false = true then ((1, 0, 9, 1) : Int × Int × Int × Int) else (9, 1, 1, 0)) ∧
    (10 : Int) = 9 + 1 ∧ (8 : Int) = 9 - 1 ∧ (36 : Int) = 10 ^ 2 - 8 ^ 2 ∧ (10 : Int) = (1 - 0) * 10 ∧
    (8 : Int) = (1 + 0) * 8 ∧
    (⟨1, 0, 9, 1, false⟩ : Ladder) = (List.range (64 * 0)).reverse.foldl
      (fun v t => ladderStep p4 121665 9 (Nat.testBit 2 t) v) ⟨1, 0, 9, 1, false⟩ := by decide +kernel

theorem test_witness_ScalarErrors :
    2 ^ (64 * secp256k1Params.limbs) ≤ readField (withFields [(9, 2 ^ 256)]).data 9 ∧
    readField State.reset.data 9 = 0 ∧ secp256k1Params.n ≤ readField (withFields [(9, secp256k1Params.n)]).data 9 ∧
    holdsPoint curve25519Params State.reset.data 0 (.affine 0 0) ∧
    curve25519Params.fam = .montgomery 121665 ∧ readField State.reset.data 1 < curve25519Params.p ∧
    curve25519Params.p ≤ readField (withFields [(1, p4)]).data 1 :=
  ⟨by decide +kernel, by decide +kernel, by decide +kernel, .inr (by decide +kernel), rfl, by decide +kernel,
    by decide +kernel⟩

/-! #### Hash commands -/

theorem test_witness_KeccakCommand : ((12 : BitVec 8) = 12 ∨ (12 : BitVec 8) = 24) ∧
    ((24 : BitVec 8) = 12 ∨ (24 : BitVec 8) = 24) ∧ Memory.wf withKey.data.mem = true ∧
    (List.replicate 25 (5 : Lane)).length = 25 := by decide +kernel

theorem test_witness_KeccakSteps :
    (∀ x, (fun x => lane [1, 2] x 0 ^^^ lane [1, 2] x 1 ^^^ lane [1, 2] x 2 ^^^ lane [1, 2] x 3 ^^^ lane [1, 2] x 4) x =
      lane [1, 2] x 0 ^^^ lane [1, 2] x 1 ^^^ lane [1, 2] x 2 ^^^ lane [1, 2] x 3 ^^^ lane [1, 2] x 4) ∧ 4 < 5 ∧ 23 < 24 ∧
    ((1, 0) : Nat × Nat) = (fun z : Nat × Nat => (z.2, (2 * z.1 + 3 * z.2) % 5))^[0] (1, 0) :=
  ⟨fun _ => rfl, by decide, by decide, rfl⟩

theorem test_witness_SpongeCreate : Memory.wf withKey.data.mem = true ∧ 192 % 8 = 0 ∧ 8 ≤ 8 ∧ 192 ≤ 192 ∧ 1 ≤ 1 ∧
    0x7F ≤ 0x7F := by decide +kernel

/-- Absorbing contexts at both ends of the header's ranges: for SpongeAbsorb, SpongeSqueeze (SPDIG), AbsorbSplit and
DigestIsSqueeze. -/
theorem test_witness_sponge_absorbing :
    Memory.wf (withSponge 192 0x7F 24 191 64 1).data.mem = true ∧ spongeReady 1 (withSponge 192 0x7F 24 191 64 1).data ∧
    spongeReady 1 (withSponge 8 1 12 0 0 1).data ∧ (256 : BitVec 16).toNat ≤ 256 ∧
    64 = (ctxByte (withSponge 192 0x7F 24 191 64 1).data 204).toNat ∧
    ctxByte (withSponge 192 0x7F 24 191 64 1).data 204 ≠ 0 ∧ (0 : BitVec 16).toNat + (256 : BitVec 16).toNat ≤ 256 := by
  unfold spongeReady spongeHeader
  decide +kernel

/-- Squeezing contexts at both ends of the header's ranges: for SpongeSqueeze (SPSQZ) and SqueezeStream. -/
theorem test_witness_sponge_squeezing :
    Memory.wf (withSponge 192 0x7F 24 192 64 2).data.mem = true ∧ spongeReady 2 (withSponge 192 0x7F 24 192 64 2).data ∧
    spongeReady 2 (withSponge 8 1 12 0 0 2).data ∧ (1 : BitVec 16) ≠ 0 ∧
    (255 : BitVec 16) ≠ 0 ∧ (255 : BitVec 16).toNat + (1 : BitVec 16).toNat ≤ 256 := by
  unfold spongeReady spongeHeader
  decide +kernel

/-- A context in mid-block and one at the last byte of the block, for the byte actions of SpongeAbsorb and
SpongeSqueeze. -/
def midBlock (pos : Nat) : Sponge := ⟨List.replicate 200 3, 8, 0x1F, 12, pos, 0⟩

theorem test_witness_SpongeAbsorb_bytes :
    ((midBlock 7).sa.length = 200 ∧ (midBlock 7).pos < (midBlock 7).rate ∧ (midBlock 7).rate ≤ 200) ∧
    ((xorByteAt (midBlock 7).sa 7 5).length = 200 ∧
      ∀ i, i < 200 → (xorByteAt (midBlock 7).sa 7 5).getD i 0 = (midBlock 7).sa.getD i 0 ^^^ (if i = 7 then 5 else 0)) ∧
    ((xorByteAt (midBlock 7).sa 7 0x9F).length = 200 ∧
      ∀ i, i < 200 → (xorByteAt (midBlock 7).sa 7 0x9F).getD i 0 =
        (midBlock 7).sa.getD i 0 ^^^ (if i = 7 then 0x1F else 0) ^^^ (if i = 8 - 1 then 0x80 else 0)) := by
  decide +kernel

theorem test_witness_SpongeSqueeze_bytes :
    (midBlock 0 = if (midBlock 0).pos = (midBlock 0).rate
      then { midBlock 0 with sa := keccakP (midBlock 0).sa 12, pos := 0 } else midBlock 0) ∧
    (midBlock 8).pos = (midBlock 8).rate := by decide +kernel

theorem test_witness_SpongeErrors :
    ctxKind State.reset.data ≠ 1 ∧ ctxPhase (withSponge 8 1 12 0 0 2).data ≠ 1 ∧
    (ctxKind (withSponge 8 1 12 8 0 1).data = 1 ∧ ctxPhase (withSponge 8 1 12 8 0 1).data = 1 ∧
      ¬spongeHeader 1 (withSponge 8 1 12 8 0 1).data) ∧
    (spongeReady 1 (withSponge 8 1 12 0 0 1).data ∧ ctxByte (withSponge 8 1 12 0 0 1).data 204 = 0) ∧
    256 < (257 : BitVec 16).toNat ∧ spongeReady 2 (withSponge 8 1 12 8 0 2).data := by
  unfold spongeReady spongeHeader
  decide +kernel

theorem test_witness_Blake2Create :
    Memory.wf (withBytes [(0x200, [64, 64])]).data.mem = true ∧ 1 ≤ (datByte (withBytes [(0x200, [64, 64])]).data 0).toNat ∧
    (datByte (withBytes [(0x200, [64, 64])]).data 0).toNat ≤ 64 ∧ (datByte (withBytes [(0x200, [64, 64])]).data 1).toNat ≤ 64 ∧
    1 ≤ (datByte (withBytes [(0x200, [1, 32])]).data 0).toNat ∧ (datByte (withBytes [(0x200, [1, 32])]).data 0).toNat ≤ 32 ∧
    (datByte (withBytes [(0x200, [1, 32])]).data 1).toNat ≤ 32 := by decide +kernel

/-- A BLAKE2 context with this variant and digest length. -/
def withBlake2 (var dlen : Byte) : State := withBytes [(0x100 + 80, [var, dlen]), (0x1FE, [2, 1])]

theorem test_witness_Blake2Compress :
    (Memory.wf (withBlake2 0 64).data.mem = true ∧ blake2Ready (withBlake2 0 64).data ∧
      ctxByte (withBlake2 0 64).data 80 = 0 ∧ (128 : BitVec 16).toNat ≤ 128) ∧
    Memory.wf (withBlake2 1 1).data.mem = true ∧ blake2Ready (withBlake2 1 1).data ∧
      ctxByte (withBlake2 1 1).data 80 = 1 ∧ (64 : BitVec 16).toNat ≤ 64 := by
  unfold blake2Ready blake2Header
  decide +kernel

/-- Eight chaining words, round 19 (row 9 of the schedule), and the message words that its first entries name. -/
theorem test_witness_Blake2Compress_rounds :
    (List.replicate 8 (0 : BitVec 32)).length = 8 ∧ 19 % 10 = 9 ∧
    (∀ i, (fun i => wordAt [(7 : BitVec 32)] (([10, 2, 8] : List Nat).getD i 0)) i =
      wordAt [(7 : BitVec 32)] (([10, 2, 8] : List Nat).getD i 0)) :=
  ⟨rfl, rfl, fun _ => rfl⟩

theorem test_witness_Blake2Mix : (List.replicate 16 (0 : BitVec 32)).length = 16 ∧ 3 < 16 ∧ 4 < 16 ∧ 9 < 16 ∧ 14 < 16 ∧
    3 ≠ 4 ∧ 3 ≠ 9 ∧ 3 ≠ 14 ∧ 4 ≠ 9 ∧ 4 ≠ 14 ∧ 9 ≠ 14 := by decide

theorem test_witness_GhashFold : Memory.wf withKey.data.mem = true ∧ (16 : BitVec 16).toNat ≤ 16 ∧
    (15 : BitVec 16).toNat + (1 : BitVec 16).toNat ≤ 16 := by decide +kernel

/-- The first and the last coefficient of a block, and the example of 46_ghash.md R271: `x * x^127`. -/
theorem test_witness_GhashAlgebra :
    ((List.replicate 16 (1 : Byte)).length = 16 ∧ 0 < 128 ∧ 127 < 128) ∧
    (1 : BitVec 128).getLsbD 0 = true ∧ (2 : BitVec 128).getLsbD 0 = false ∧
    gfMul (blockOfBytes (0x40 :: List.replicate 15 0)) 1 = 0xE1#128 <<< 120 := by decide +kernel

theorem test_witness_SipCreate : Memory.wf withKey.data.mem = true ∧
    (0x0706050403020100 : Lane) = leWordAt 64 (readDat withKey.data 0 8) 0 8 ∧
    (0x0F0E0D0C0B0A0908 : Lane) = leWordAt 64 (readDat withKey.data 8 8) 0 8 ∧ 63 < 64 ∧ 63 < 8 * 8 := by decide +kernel

/-- A SipHash context of this variant, 255 bytes absorbed modulo 256. -/
def withSip (var : Byte) : State := withBytes [(0x100 + 32, [255, var]), (0x1FE, [3, 1])]

theorem test_witness_SipAbsorbFinish :
    (Memory.wf (withSip 0).data.mem = true ∧ sipReady (withSip 0).data ∧ ctxByte (withSip 0).data 33 = 0) ∧
    (sipReady (withSip 1).data ∧ ctxByte (withSip 1).data 33 = 1) ∧
    ((256 : BitVec 16).toNat ≤ 256 ∧ (256 : BitVec 16).toNat % 8 = 0) ∧ (7 : BitVec 16).toNat ≤ 7 ∧
    6 = ((ctxByte (withSip 1).data 32).toNat + 7) % 256 ∧
    (0x0600000000000000 : Lane) = BitVec.ofNat 64 (6 * 2 ^ 56 + leNat (readDat (withSip 1).data 0 7)) := by
  unfold sipReady
  decide +kernel

/-- The first assignment of a round on the words of 47_siphash.md R285, and the words after two rounds. -/
theorem test_witness_SipAbsorbFinish_round :
    (0xDFCAE7CED8DFCADA : Lane) = 0x7469686173716475 + 0x6B617F6D656E6665 ∧
    sipRound^[2] ⟨1, 2, 3, 4 ^^^ 5⟩ = sipRound (sipRound ⟨1, 2, 3, 1⟩) := by decide +kernel

theorem test_witness_HashErrors :
    datByte State.reset.data 0 = 0 ∧ 64 < (datByte (withBytes [(0x200, [65])]).data 0).toNat ∧
    32 < (datByte (withBytes [(0x200, [32, 33])]).data 1).toNat ∧
    (ctxKind State.reset.data ≠ 2 ∧ ctxKind State.reset.data ≠ 3) ∧
    (ctxKind (withBlake2 1 33).data = 2 ∧ ctxPhase (withBlake2 1 33).data = 1 ∧ ¬blake2Header (withBlake2 1 33).data) ∧
    (blake2Ready (withBlake2 0 64).data ∧ blake2Block (ctxByte (withBlake2 0 64).data 80).toNat < (129 : BitVec 16).toNat) ∧
    16 < (17 : BitVec 16).toNat ∧
    (ctxKind (withSip 2).data = 3 ∧ ctxPhase (withSip 2).data = 1 ∧ 1 < (ctxByte (withSip 2).data 33).toNat) ∧
    (sipReady (withSip 0).data ∧ 256 < (264 : BitVec 16).toNat ∧ (4 : BitVec 16).toNat % 8 ≠ 0) ∧
    7 < (8 : BitVec 16).toNat := by
  unfold blake2Ready blake2Header sipReady
  decide +kernel

end Sys2Proof.Tests
end

section
/-! PROOFS. Byte strings and their integers, bit by bit (00_scope.md R13). -/

namespace Sys2Proof.Machine

/-- `LE` as a sum over the byte positions (00_scope.md R13). -/
theorem leNat_eq_sum (bs : List Byte) :
    leNat bs = ∑ i ∈ Finset.range bs.length, (bs.getD i 0).toNat * 256 ^ i := by
  induction bs with
  | nil => rfl
  | cons b bs ih =>
    rw [leNat, ih, List.length_cons, Finset.sum_range_succ', Finset.mul_sum, Nat.add_comm]
    congr 1
    · exact Finset.sum_congr rfl fun i _ => by rw [List.getD_cons_succ, pow_succ]; ring
    · simp

/-- Bit `j` of `LE(b)` is bit `j mod 8` of byte `j div 8`. -/
theorem leNat_testBit (bs : List Byte) (j : Nat) :
    (leNat bs).testBit j = (bs.getD (j / 8) 0).getLsbD (j % 8) := by
  induction bs generalizing j with
  | nil => simp [leNat]
  | cons b bs ih =>
    rw [leNat, Nat.add_comm, show 256 = 2 ^ 8 from rfl, Nat.testBit_two_pow_mul_add _ b.isLt]
    split
    · next h => rw [Nat.div_eq_of_lt h, Nat.mod_eq_of_lt h, List.getD_cons_zero, BitVec.testBit_toNat]
    · next h =>
      have hd : j / 8 = (j - 8) / 8 + 1 := by omega
      have hm : j % 8 = (j - 8) % 8 := by omega
      rw [ih, hd, hm, List.getD_cons_succ]

/-- Byte `i` of a piece of a byte string. -/
theorem getD_take_drop (bs : List Byte) (off k : Nat) {i : Nat} (h : i < k) :
    ((bs.drop off).take k).getD i 0 = bs.getD (off + i) 0 := by
  simp only [List.getD_eq_getElem?_getD, List.getElem?_take_of_lt h, List.getElem?_drop]

/-- Bit `j` of a word inside a byte string. -/
theorem leWordAt_getLsbD {w k j : Nat} (off : Nat) (bs : List Byte) (hw : j < w) (hk : j < 8 * k) :
    (leWordAt w bs off k).getLsbD j = (bs.getD (off + j / 8) 0).getLsbD (j % 8) := by
  rw [leWordAt, BitVec.getLsbD_ofNat, decide_eq_true hw, Bool.true_and, leNat_testBit,
    getD_take_drop bs off k (by omega)]

end Sys2Proof.Machine
end

section
/-! PROOFS. Writes to `CTX`: a piece read back, kind and phase, frames (10_state.md R33, 20_memory.md R51). -/

namespace Sys2Proof.Machine

/-- A byte string read back from inside a longer one that was written to `CTX`. -/
theorem readCtx_writeCtx_infix {d : Data} (h : Memory.wf d.mem = true) (xs ys zs : List Byte) {off : Nat}
    (hb : off + (xs ++ ys ++ zs).length ≤ 256) :
    readCtx (writeCtx off (xs ++ ys ++ zs) d) (off + xs.length) ys.length = ys := by
  have hl : (xs ++ ys ++ zs).length = xs.length + ys.length + zs.length := by simp only [List.length_append]
  refine List.ext_getElem (readCtx_length ..) fun i _ hi => ?_
  have hbyte := ctxByte_writeCtx_same h hb (i := xs.length + i) (by omega)
  rw [ctxByte, ← Nat.add_assoc, ← Nat.add_assoc] at hbyte
  rw [Nat.add_assoc ctxBase] at hbyte
  refine ((readBytes_getElem _ _ _ _ hi).trans hbyte).trans ?_
  simp [hi]

/-- Kind and phase that were written read back (10_state.md R33). -/
theorem ctxKindPhase_writeKindPhase {d : Data} (h : Memory.wf d.mem = true) (kind phase : Byte) :
    ctxKind (writeKindPhase kind phase d) = kind.toNat ∧ ctxPhase (writeKindPhase kind phase d) = phase.toNat :=
  ⟨congrArg BitVec.toNat (ctxByte_writeCtx_same h (off := 254) (bs := [kind, phase]) (by simp) (i := 0) (by simp)),
    congrArg BitVec.toNat (ctxByte_writeCtx_same h (off := 254) (bs := [kind, phase]) (by simp) (i := 1) (by simp))⟩

/-- A write inside `CTX` changes `CTX` only. -/
theorem onlyCtx_writeCtx {off : Nat} {bs : List Byte} (hb : off + bs.length ≤ 256) (d : Data) :
    onlyBytes [(ctxBase, 256)] d (writeCtx off bs d) := by
  refine onlyBytes_mono (onlyBytes_writeCtx off bs d) fun a ha => List.forall_mem_singleton.2 ?_
  have hout : a < ctxBase ∨ ctxBase + 256 ≤ a := ha _ (List.mem_singleton.2 rfl)
  show a < ctxBase + off ∨ ctxBase + off + bs.length ≤ a
  omega

/-- Two updates in a row with the same frame. -/
theorem onlyBytes_trans_same {r : List (Nat × Nat)} {d e g : Data} (h1 : onlyBytes r d e) (h2 : onlyBytes r e g) :
    onlyBytes r d g :=
  onlyBytes_mono (onlyBytes_trans h1 h2) fun _ ha _ hr => ha _ ((List.mem_append.1 hr).elim id id)

end Sys2Proof.Machine
end

section
/-! PROOFS. The SipHash context, and SIPINIT (10_state.md R37, 47_siphash.md R288). -/

namespace Sys2Proof.Machine

/-- The SipHash words that were written read back (10_state.md R37). -/
theorem readSip_writeSip {d : Data} (h : Memory.wf d.mem = true) (v : Sip) (mlen : Byte) :
    readSip (writeSip v mlen d) = v := by
  have h0 := readCtx_writeCtx_infix h [] (leBytes v.v0.toNat 8)
    (leBytes v.v1.toNat 8 ++ leBytes v.v2.toNat 8 ++ leBytes v.v3.toNat 8 ++ [mlen]) (off := 0) (by simp)
  have h1 := readCtx_writeCtx_infix h (leBytes v.v0.toNat 8) (leBytes v.v1.toNat 8)
    (leBytes v.v2.toNat 8 ++ leBytes v.v3.toNat 8 ++ [mlen]) (off := 0) (by simp)
  have h2 := readCtx_writeCtx_infix h (leBytes v.v0.toNat 8 ++ leBytes v.v1.toNat 8) (leBytes v.v2.toNat 8)
    (leBytes v.v3.toNat 8 ++ [mlen]) (off := 0) (by simp)
  have h3 := readCtx_writeCtx_infix h (leBytes v.v0.toNat 8 ++ leBytes v.v1.toNat 8 ++ leBytes v.v2.toNat 8)
    (leBytes v.v3.toNat 8) [mlen] (off := 0) (by simp)
  simp only [List.nil_append, List.append_assoc, List.length_nil, List.length_append, leBytes_length, Nat.zero_add,
    Nat.reduceAdd] at h0 h1 h2 h3
  simp only [readSip, writeSip, List.append_assoc, h0, h1, h2, h3, leWordAt_leBytes (w := 64) (k := 8) _ rfl]

/-- The length byte that was written reads back (10_state.md R37). -/
theorem ctxByte_writeSip_mlen {d : Data} (h : Memory.wf d.mem = true) (v : Sip) (mlen : Byte) :
    ctxByte (writeSip v mlen d) 32 = mlen := by
  have hb := ctxByte_writeCtx_same h (off := 0) (i := 32) (bs := leBytes v.v0.toNat 8 ++ leBytes v.v1.toNat 8 ++
    leBytes v.v2.toNat 8 ++ leBytes v.v3.toNat 8 ++ [mlen]) (by simp) (by simp)
  rwa [List.getElem_append_right (by simp), List.getElem_singleton, Nat.zero_add] at hb

/-- Above the length byte a write of the SipHash words leaves `CTX` alone. -/
theorem ctxByte_writeSip_other (v : Sip) (mlen : Byte) (d : Data) {i : Nat} (h : 33 ≤ i) :
    ctxByte (writeSip v mlen d) i = ctxByte d i :=
  ctxByte_writeCtx_other _ _ _ _ (by simp only [List.length_append, leBytes_length, List.length_singleton]; omega)

/-- A write of `CTX` from `off` on keeps the SipHash words when it starts above them. -/
theorem readSip_writeCtx {off : Nat} (h : 32 ≤ off) (bs : List Byte) (d : Data) :
    readSip (writeCtx off bs d) = readSip d := by
  simp only [readSip]
  rw [readCtx_writeCtx_other _ _ _ _ _ (by omega), readCtx_writeCtx_other _ _ _ _ _ (by omega),
    readCtx_writeCtx_other _ _ _ _ _ (by omega), readCtx_writeCtx_other _ _ _ _ _ (by omega)]

/-- The data state with a fresh SipHash context of words `v` and variant `mode` (47_siphash.md R288). -/
def createSip (mode : Byte) (v : Sip) (d : Data) : Data :=
  writeKindPhase 3 1 (writeCtx 33 [mode] (writeSip v 0 (clearCtx d)))

/-- SIPINIT of either variant completes with a fresh context from the key in `DAT` (47_siphash.md R288). -/
theorem exec_sipinit (wide : Bool) (s : State) :
    exec (.sipinit (if wide then 1 else 0)) s = .next (finishedWith s (createSip (if wide then 1 else 0)
      (sipKeyed wide (leWordAt 64 (readDat s.data 0 8) 0 8) (leWordAt 64 (readDat s.data 8 8) 0 8)) s.data)) := by
  cases wide <;> rfl

section
variable {d : Data} (mode : Byte) (v : Sip)

theorem readSip_createSip (h : Memory.wf d.mem = true) : readSip (createSip mode v d) = v := by
  rw [createSip, writeKindPhase, readSip_writeCtx (by omega), readSip_writeCtx (by omega),
    readSip_writeSip (wf_clearCtx h)]

theorem ctxByte_createSip_var (h : Memory.wf d.mem = true) : ctxByte (createSip mode v d) 33 = mode := by
  rw [createSip, writeKindPhase, ctxByte_writeCtx_other _ _ _ _ (by omega)]
  exact ctxByte_writeCtx_same (wf_writeSip (wf_clearCtx h) v 0) (off := 33) (bs := [mode]) (by simp) (i := 0) (by simp)

/-- Between the words and `KIND` a fresh context is 0 but for its variant byte. -/
theorem ctxByte_createSip_zero (h : Memory.wf d.mem = true) {i : Nat} (h1 : 32 ≤ i) (h2 : i < 254) (h3 : i ≠ 33) :
    ctxByte (createSip mode v d) i = 0 := by
  rw [createSip, writeKindPhase, ctxByte_writeCtx_other _ _ _ _ (by omega),
    ctxByte_writeCtx_other _ _ _ _ (by simp only [List.length_singleton]; omega)]
  rcases Nat.eq_or_lt_of_le h1 with rfl | h33
  · exact ctxByte_writeSip_mlen (wf_clearCtx h) v 0
  · rw [ctxByte_writeSip_other _ _ _ h33, ctxByte_clearCtx h (by omega)]

end

/-- A fresh context is a SipHash context that absorbs: kind 3, phase 1. -/
theorem ctxKindPhase_createSip {d : Data} (h : Memory.wf d.mem = true) (mode : Byte) (v : Sip) :
    ctxKind (createSip mode v d) = 3 ∧ ctxPhase (createSip mode v d) = 1 :=
  ctxKindPhase_writeKindPhase (wf_writeCtx (wf_writeSip (wf_clearCtx h) v 0) (by simp)) 3 1

/-- Creating a context changes `CTX` only. -/
theorem onlyCtx_createSip (mode : Byte) (v : Sip) (d : Data) : onlyBytes [(ctxBase, 256)] d (createSip mode v d) := by
  have hclear : onlyBytes [(ctxBase, 256)] d (clearCtx d) :=
    onlyCtx_writeCtx (by rw [Nat.zero_add, List.length_replicate]) d
  have hwords := onlyBytes_trans_same hclear (onlyCtx_writeCtx (by simp) (clearCtx d) : onlyBytes _ _ (writeSip v 0 _))
  have hvar := onlyBytes_trans_same hwords (onlyCtx_writeCtx (off := 33) (bs := [mode]) (by simp) _)
  exact onlyBytes_trans_same hvar (onlyCtx_writeCtx (off := 254) (bs := [3, 1]) (by simp) _)

/-- Settles O57: the byte-string laws, then SIPINIT through the fresh context it leaves. -/
theorem sipCreate : Obligations.SipCreate := by
  refine ⟨leNat_eq_sum, fun v k => ⟨leBytes_length v k, leNat_leBytes v k⟩,
    fun _ off _ _ bs hw hk => leWordAt_getLsbD off bs hw hk, ?_⟩
  rintro s wide _ _ hwf rfl rfl
  obtain ⟨hkind, hphase⟩ := ctxKindPhase_createSip hwf (if wide then 1 else 0)
    (sipKeyed wide (leWordAt 64 (readDat s.data 0 8) 0 8) (leWordAt 64 (readDat s.data 8 8) 0 8))
  refine ⟨_, exec_sipinit wide s, completes_finishedWith _ _, ?_⟩
  simp only [finishedWith_data, readSip_createSip _ _ hwf]
  refine ⟨rfl, ?_, rfl, rfl, ctxByte_createSip_var _ _ hwf, hkind, hphase,
    fun i h1 h2 h3 => ctxByte_createSip_zero _ _ hwf h1 h2 h3, onlyCtx_createSip _ _ _⟩
  cases wide
  · exact (BitVec.xor_zero).symm
  · rfl

end Sys2Proof.Machine
end

section
/-! PROOFS. The curve ROM as a table, and the facts that hold of every entry (41_curves.md R140 to R149). -/

namespace Sys2Proof.Machine

/-- The ROM as a list of rows, `CRV` with its entry (41_curves.md R140). -/
def curveRows : List (CrvField × CurveParams) :=
  [(0, secp256k1Params), (1, p256Params), (2, p384Params), (3, p521Params), (4, curve25519Params),
    (5, curve448Params), (6, ed25519Params), (7, ed448Params)]

/-- The rows are exactly what `CRV` can select. -/
theorem curveAt_eq_some_iff {crv : CrvField} {c : CurveParams} : curveAt crv = some c ↔ (crv, c) ∈ curveRows := by
  constructor
  · intro h
    have all : ∀ k : CrvField, (curveAt k).all (fun c => decide ((k, c) ∈ curveRows)) = true := by decide +kernel
    have hc := all crv
    rw [h] at hc
    simpa only [Option.all_some, decide_eq_true_eq] using hc
  · intro h
    simp only [curveRows, List.mem_cons, Prod.mk.injEq, List.not_mem_nil, or_false] at h
    rcases h with ⟨rfl, rfl⟩ | ⟨rfl, rfl⟩ | ⟨rfl, rfl⟩ | ⟨rfl, rfl⟩ | ⟨rfl, rfl⟩ | ⟨rfl, rfl⟩ | ⟨rfl, rfl⟩ | ⟨rfl, rfl⟩ <;>
      rfl

/-- Only `CRV` 8 to 15 select nothing (30_encoding.md R86). -/
theorem curveAt_eq_none_iff (crv : CrvField) : curveAt crv = none ↔ 8 ≤ crv.val := by
  refine ⟨fun h => ?_, curveAt_reserved⟩
  by_contra hlt
  have all : ∀ k : CrvField, k.val < 8 → (curveAt k).isSome = true := by decide
  simpa [h] using all crv (by omega)

/-- The base point of every entry is on its curve (41_curves.md R149). -/
theorem onCurve_base {crv : CrvField} {c : CurveParams} (h : curveAt crv = some c) : onCurve c c.gx c.gy = true := by
  have all : ∀ row ∈ curveRows, onCurve row.2 row.2.gx row.2.gy = true := by decide +kernel
  exact all _ (curveAt_eq_some_iff.1 h)

/-- `L` is the number of 64-bit words that `p` needs, not more (00_scope.md R9). -/
theorem limbs_minimal {crv : CrvField} {c : CurveParams} (h : curveAt crv = some c) :
    2 ^ (64 * (c.limbs - 1)) ≤ c.p := by
  have all : ∀ row ∈ curveRows, 2 ^ (64 * (row.2.limbs - 1)) ≤ row.2.p := by decide +kernel
  exact all _ (curveAt_eq_some_iff.1 h)

/-- The Montgomery entries have `A = 4 * a24 + 2` and `B = 1` (41_curves.md R140, R149). -/
theorem montgomery_coefficients {crv : CrvField} {c : CurveParams} {a24 : Nat} (h : curveAt crv = some c)
    (hf : c.fam = .montgomery a24) : 4 * a24 + 2 = c.ca ∧ c.cb = 1 := by
  have all : ∀ row ∈ curveRows, row.2.fam = .weierstrass ∨ row.2.fam = .edwards ∨
      row.2.fam = .montgomery ((row.2.ca - 2) / 4) ∧ 4 * ((row.2.ca - 2) / 4) + 2 = row.2.ca ∧ row.2.cb = 1 := by
    decide +kernel
  rcases all _ (curveAt_eq_some_iff.1 h) with hw | he | ⟨hm, hrest⟩
  · cases hf.symm.trans hw
  · cases hf.symm.trans he
  · cases hf.symm.trans hm
    exact hrest

/-- An entry found by a decidable test on what `CRV` selects. -/
theorem exists_curveAt {crv : CrvField} {P : CurveParams → Prop} [DecidablePred P]
    (h : (curveAt crv).any (fun c => decide (P c)) = true) : ∃ c, curveAt crv = some c ∧ P c := by
  obtain ⟨c, hc, hP⟩ := (Option.any_eq_true _ _).1 h
  exact ⟨c, hc, of_decide_eq_true hP⟩

/-- Settles O32: the printed numbers are the rows of the table; what the rules say of them holds row by row. -/
theorem curveRom : Obligations.CurveRom := by
  refine ⟨curveAt_eq_none_iff, fun x (hx : x ∈ curveRows) => curveAt_eq_some_iff.2 hx, fun x hx => ?_, fun x hx => ?_,
    fun _ _ _ h hf => montgomery_coefficients h hf⟩
  · obtain ⟨c, hc, hfam, hp, hlow, hhigh, hlimbs⟩ := exists_curveAt (crv := x.1)
      (P := fun c => c.fam = x.2.1 ∧ c.p = x.2.2.1 ∧ 2 ^ (x.2.2.2.1 - 1) ≤ c.n ∧ c.n < 2 ^ x.2.2.2.1 ∧
        c.limbs = x.2.2.2.2) (by revert x; decide +kernel)
    obtain ⟨-, -, -, hpL, -, hpodd, hnodd, -, -, hgx, hgy⟩ := curveAt_bounds hc
    exact ⟨c, hc, hfam, hp, hlow, hhigh, hlimbs, limbs_minimal hc, hpL, hpodd, hnodd, hgx, hgy, onCurve_base hc⟩
  · exact exists_curveAt (by revert x; decide +kernel)

end Sys2Proof.Machine
end

section
/-! PROOFS. What a command can do to the data state, one constructor per kind of update, and the arm of every
command shown to be one of them (10_state.md R27, R38). -/

namespace Sys2Proof.Machine

/-! ### Updates -/

/-- `e` is `d` after writes inside `CTX` and `DAT`, and nothing else. -/
inductive BufferWrites (d : Data) : Data → Prop where
  | refl : BufferWrites d d
  | ctx {e : Data} (h : BufferWrites d e) {off : Nat} {bs : List Byte} (hb : off + bs.length ≤ 256) :
      BufferWrites d (writeCtx off bs e)
  | dat {e : Data} (h : BufferWrites d e) {off : Nat} {bs : List Byte} (hb : off + bs.length ≤ 256) :
      BufferWrites d (writeDat off bs e)

namespace BufferWrites

variable {d e : Data}

theorem f_eq (h : BufferWrites d e) : e.f = d.f := by
  induction h with
  | refl => rfl
  | ctx _ _ ih => exact ih
  | dat _ _ ih => exact ih

theorem pinf_eq (h : BufferWrites d e) : e.pinf = d.pinf := by
  induction h with
  | refl => rfl
  | ctx _ _ ih => exact ih
  | dat _ _ ih => exact ih

/-- Writes inside the buffers keep the canonical form. -/
theorem wf (h : BufferWrites d e) (hd : Memory.wf d.mem = true) : Memory.wf e.mem = true := by
  induction h with
  | refl => exact hd
  | ctx _ hb ih => exact wf_writeCtx ih hb
  | dat _ hb ih => exact wf_writeDat ih hb

theorem clear (h : BufferWrites d e) : BufferWrites d (clearCtx e) :=
  h.ctx (by rw [Nat.zero_add, List.length_replicate])

theorem phase (h : BufferWrites d e) (b : Byte) : BufferWrites d (writePhase b e) := h.ctx (by simp)

theorem kindPhase (h : BufferWrites d e) (k b : Byte) : BufferWrites d (writeKindPhase k b e) := h.ctx (by simp)

theorem sponge (h : BufferWrites d e) {v : Sponge} (hl : v.sa.length = 200) : BufferWrites d (writeSponge v e) :=
  (h.ctx (by omega)).ctx (by simp)

theorem sip (h : BufferWrites d e) (v : Sip) (mlen : Byte) : BufferWrites d (writeSip v mlen e) := h.ctx (by simp)

end BufferWrites

/-- The data states that command `i` can leave behind `d`. -/
inductive DataUpdate (i : Instr) (d : Data) : Data → Prop where
  | unchanged : DataUpdate i d d
  | zeroed (h : i = .zeroize) : DataUpdate i d Data.zero
  | field (h : isHash i = false) (r : FReg) (v : Nat) : DataUpdate i d (writeField r v d)
  | point (h : isHash i = false) {j : PReg} (hj : pointDestination i = some j) (P : Point) :
      DataUpdate i d (setpt j P d)
  | buffers (h : isHash i = true) {e : Data} (he : BufferWrites d e) : DataUpdate i d e

/-! ### Results of a chain of checks -/

/-- Every data state that the rule of a command, evaluated to `r`, can answer satisfies `P`. -/
def Answers (P : Data → Prop) (r : Except Failure Data) : Prop := ∀ d, r = .ok d → P d

theorem Answers.mono {P Q : Data → Prop} {r : Except Failure Data} (h : Answers P r) (hPQ : ∀ d, P d → Q d) :
    Answers Q r := fun d e => hPQ d (h d e)

theorem answers_ok {P : Data → Prop} {d : Data} (h : P d) : Answers P (.ok d) := fun _ e => Except.ok.inj e ▸ h

theorem answers_error {P : Data → Prop} (f : Failure) : Answers P (.error f) := fun _ e => nomatch e

theorem answers_bind {α : Type} {P : Data → Prop} {x : Except Failure α} {f : α → Except Failure Data}
    (h : ∀ a, x = .ok a → Answers P (f a)) : Answers P (x >>= f) := fun d e => by
  obtain ⟨a, hx, hf⟩ := bind_eq_ok e
  exact h a hx d hf

theorem answers_ite {P : Data → Prop} {c : Prop} [Decidable c] {x y : Except Failure Data} (hx : Answers P x)
    (hy : Answers P y) : Answers P (if c then x else y) := by
  split
  · exact hx
  · exact hy

/-- A check in front of a rule. -/
theorem answers_require {P : Data → Prop} {p : Prop} [Decidable p] {f : Failure} {g : Unit → Except Failure Data}
    (h : p → Answers P (g ())) : Answers P (require p f >>= g) :=
  answers_bind fun u hu => h ((require_ok_iff f u).1 hu)

/-! ### Templates and hash contexts -/

theorem answers_fieldUnary {P : Data → Prop} {crv rd ra : Fin 16} {s : State} {ms : Bool}
    {rule : CurveParams → Nat → Except Failure Nat} (h : ∀ v, P (writeField rd v s.data)) :
    ∃ r, fieldUnary crv rd ra s ms rule = completeCommand s r ∧ Answers P r :=
  ⟨_, rfl, answers_bind fun _ _ => answers_bind fun _ _ => answers_bind fun v _ => answers_ok (h v)⟩

theorem answers_fieldBinary {P : Data → Prop} {crv rd ra rb : Fin 16} {s : State} {ms : Bool}
    {rule : CurveParams → Nat → Nat → Nat} (h : ∀ v, P (writeField rd v s.data)) :
    ∃ r, fieldBinary crv rd ra rb s ms rule = completeCommand s r ∧ Answers P r :=
  ⟨_, rfl, answers_bind fun _ _ => answers_bind fun _ _ => answers_bind fun _ _ => answers_ok (h _)⟩

/-- What the sponge check answers, and what it checked (44_keccak.md R219). -/
theorem spctx_eq_ok {need : Nat} {d : Data} {v : Sponge} (h : spctx need d = .ok v) :
    v = readSponge d ∧ spongeReady need d := by
  by_cases hs : ctxKind d = 1 ∧ ctxPhase d = need
  · by_cases hh : spongeHeader need d
    · have hr : spongeReady need d := ⟨hs.1, hs.2, hh⟩
      exact ⟨Except.ok.inj (h.symm.trans (spctx_ok hr)), hr⟩
    · cases h.symm.trans (spctx_badHeader hs hh)
  · cases h.symm.trans (spctx_wrongState hs)

theorem spctx_sa_length {need : Nat} {d : Data} {v : Sponge} (h : spctx need d = .ok v) : v.sa.length = 200 := by
  rw [(spctx_eq_ok h).1, readSponge_sa_length]

theorem spctx_dlen_le {need : Nat} {d : Data} {v : Sponge} (h : spctx need d = .ok v) : v.dlen ≤ 64 := by
  obtain ⟨hv, -, -, -, -, -, -, -, -, hdlen, -⟩ := spctx_eq_ok h
  rw [hv]
  exact hdlen

theorem bufferWrites_createSponge (cfg : SpongeConfig) (d : Data) : BufferWrites d (createSponge cfg d) :=
  (BufferWrites.refl.clear.ctx (by simp)).kindPhase _ _

theorem answers_blake2Init {w : Nat} {B : Blake2 w} (hB : B.wb ≤ 8) (var : Byte) (d : Data) :
    Answers (BufferWrites d) (blake2Init B var d) :=
  answers_require fun _ => answers_require fun _ => answers_ok
    (((BufferWrites.refl.clear.ctx (by simp; omega)).ctx (by simp)).kindPhase _ _)

theorem answers_blake2Compress {w : Nat} {B : Blake2 w} (hB : B.wb ≤ 8) (final : Bool) (len : BitVec 16) (d : Data) :
    Answers (BufferWrites d) (blake2Compress B final len d) :=
  answers_require fun _ => answers_require fun _ => answers_ok (by
    have h : ∀ t g, BufferWrites d (writeCtx 64 (leBytes t (2 * B.wb)) (writeCtx 0 (blake2Bytes B (blake2F B g
        (readDat d 0 len.toNat ++ List.replicate (B.bs - len.toNat) 0) t final)) d)) := fun t g =>
      (BufferWrites.refl.ctx (by simp; omega)).ctx (by simp; omega)
    cases final
    · exact h _ _
    · exact (h _ _).phase 3)

/-! ### The hash commands -/

/-- A hash command writes inside the buffers and does nothing else (10_state.md R38). -/
theorem exec_hash_answers (i : Instr) (s : State) (hi : isHash i = true) :
    ∃ r, exec i s = completeCommand s r ∧ Answers (BufferWrites s.data) r := by
  cases i with
  | keccakp mode => exact ⟨_, rfl, answers_require fun _ => answers_ok (BufferWrites.refl.dat (by simp))⟩
  | spinit mode len => exact ⟨_, rfl, answers_bind fun cfg _ => answers_ok (bufferWrites_createSponge cfg _)⟩
  | spabs len =>
    refine ⟨_, rfl, answers_bind fun v hv => answers_require fun _ => answers_ok (BufferWrites.refl.sponge ?_)⟩
    exact (absorbBytes_keeps _ v).1.2.2.2.2 (spctx_sa_length hv)
  | spfin =>
    refine ⟨_, rfl, answers_bind fun v hv => answers_ok ((BufferWrites.refl.sponge ?_).phase 2)⟩
    exact (finishSponge_keeps v).1.2.2.2.2 (spctx_sa_length hv)
  | spsqz len =>
    refine ⟨_, rfl, answers_bind fun v hv => answers_require fun _ => answers_require fun hlen =>
      answers_ok ((BufferWrites.refl.sponge ?_).dat (by simpa using hlen))⟩
    exact (squeezeBytes_keeps _ v).1.2.2.2.2 (spctx_sa_length hv)
  | spdig =>
    refine ⟨_, rfl, answers_bind fun v hv => answers_require fun _ =>
      answers_ok (((BufferWrites.refl.sponge ?_).dat ?_).phase 3)⟩
    · exact (squeezeBytes_keeps _ _).1.2.2.2.2 ((finishSponge_keeps v).1.2.2.2.2 (spctx_sa_length hv))
    · have := spctx_dlen_le hv
      simp only [squeezeBytes_length]
      omega
  | b2init mode =>
    exact ⟨_, rfl, answers_require fun _ =>
      answers_ite (answers_blake2Init (by decide) 0 _) (answers_blake2Init (by decide) 1 _)⟩
  | b2comp final len =>
    exact ⟨_, rfl, answers_require fun _ => answers_require fun _ =>
      answers_ite (answers_blake2Compress (by decide) final len _) (answers_blake2Compress (by decide) final len _)⟩
  | ghmul len => exact ⟨_, rfl, answers_require fun _ => answers_ok (BufferWrites.refl.ctx (by simp))⟩
  | sipinit mode =>
    exact ⟨_, rfl, answers_require fun _ =>
      answers_ok (((BufferWrites.refl.clear.sip _ 0).ctx (by simp)).kindPhase 3 1)⟩
  | sipblk len =>
    exact ⟨_, rfl, answers_bind fun _ _ => answers_require fun _ => answers_ok (BufferWrites.refl.sip _ _)⟩
  | sipfin len =>
    refine ⟨_, rfl, answers_bind fun _ _ => answers_require fun _ =>
      answers_ok (((BufferWrites.refl.sip _ _).dat ?_).phase 3)⟩
    rw [sipFinish_length]
    split <;> omega
  | _ => cases hi

/-! ### Every command -/

/-- Every arm of `exec` answers one of the updates (10_state.md R27, R38). -/
theorem exec_answers (i : Instr) (s : State) :
    ∃ r, exec i s = completeCommand s r ∧ Answers (DataUpdate i s.data) r := by
  have hash (hi : isHash i = true) : ∃ r, exec i s = completeCommand s r ∧ Answers (DataUpdate i s.data) r := by
    obtain ⟨r, hr, ha⟩ := exec_hash_answers i s hi
    exact ⟨r, hr, ha.mono fun _ => .buffers hi⟩
  cases i with
  | nop => exact ⟨_, rfl, answers_ok .unchanged⟩
  | zeroize => exact ⟨_, rfl, answers_ok (.zeroed rfl)⟩
  | fadd | fsub | fmul | montmul => exact answers_fieldBinary (.field rfl _)
  | fneg | fsqr | tomont | frommont | finv | fpow => exact answers_fieldUnary (.field rfl _)
  | fred => exact ⟨_, rfl, answers_bind fun _ _ => answers_ok (.field rfl _ _)⟩
  | fmov => exact ⟨_, rfl, answers_ok (.field rfl _ _)⟩
  | fldc crv ms rd rc =>
    refine ⟨_, rfl, answers_bind fun c _ => ?_⟩
    cases fieldConstant c ms rc with
    | some v => exact answers_ok (.field rfl rd v)
    | none => exact answers_error _
  | pchk => exact ⟨_, rfl, answers_bind fun _ _ => answers_bind fun _ _ => answers_ok .unchanged⟩
  | padd =>
    exact ⟨_, rfl, answers_bind fun _ _ => answers_bind fun _ _ => answers_bind fun _ _ =>
      answers_ok (.point rfl rfl _)⟩
  | pdbl => exact ⟨_, rfl, answers_bind fun _ _ => answers_bind fun _ _ => answers_ok (.point rfl rfl _)⟩
  | pldc crv rd rc =>
    refine ⟨_, rfl, answers_bind fun c _ => ?_⟩
    cases constantPoint c rc with
    | some P => exact answers_ok (.point rfl rfl P)
    | none => exact answers_error _
  | smul =>
    exact ⟨_, rfl, answers_bind fun _ _ => answers_bind fun _ _ => answers_bind fun _ _ =>
      answers_ok (.point rfl rfl _)⟩
  | smulG => exact ⟨_, rfl, answers_bind fun _ _ => answers_bind fun _ _ => answers_ok (.point rfl rfl _)⟩
  | smulx =>
    exact ⟨_, rfl, answers_bind fun _ _ => answers_bind fun _ _ => answers_bind fun _ _ => answers_bind fun _ _ =>
      answers_ok (.field rfl _ _)⟩
  | smulxG =>
    exact ⟨_, rfl, answers_bind fun _ _ => answers_bind fun _ _ => answers_bind fun _ _ =>
      answers_ok (.field rfl _ _)⟩
  | keccakp | spinit | spabs | spfin | spsqz | spdig | b2init | b2comp | ghmul | sipinit | sipblk | sipfin =>
    exact hash rfl

/-- The data state that a command leaves is one of the updates; after an error it is unchanged
(60_exceptions.md R316). -/
theorem exec_dataUpdate {i : Instr} {s t : State} (h : exec i s = .next t) : DataUpdate i s.data t.data := by
  obtain ⟨r, hr, ha⟩ := exec_answers i s
  rw [hr] at h
  cases r with
  | ok d => cases h; exact ha d rfl
  | error f => cases h; exact .unchanged

/-! ### The updates by part of the data state -/

@[simp] theorem setpt_mem (j : PReg) (P : Point) (d : Data) : (setpt j P d).mem = d.mem := by
  cases P <;> rfl

namespace DataUpdate

variable {i : Instr} {d e : Data}

/-- Every update keeps the canonical form. -/
theorem wf (h : DataUpdate i d e) (hd : Memory.wf d.mem = true) : Memory.wf e.mem = true := by
  cases h with
  | unchanged => exact hd
  | zeroed => exact wf_zero
  | field => exact hd
  | point => rwa [setpt_mem]
  | buffers _ he => exact he.wf hd

theorem f_pinf_of_hash (h : DataUpdate i d e) (hi : isHash i = true) : e.f = d.f ∧ e.pinf = d.pinf := by
  cases h with
  | unchanged => exact ⟨rfl, rfl⟩
  | zeroed hz => subst hz; cases hi
  | field hn => cases hi.symm.trans hn
  | point hn => cases hi.symm.trans hn
  | buffers _ he => exact ⟨he.f_eq, he.pinf_eq⟩

theorem mem_of_not_hash (h : DataUpdate i d e) (hi : isHash i = false) (hz : i ≠ .zeroize) : e.mem = d.mem := by
  cases h with
  | unchanged => rfl
  | zeroed hz' => exact absurd hz' hz
  | field => rfl
  | point => exact setpt_mem ..
  | buffers hh => cases hi.symm.trans hh

theorem readPinf_eq (h : DataUpdate i d e) (hz : i ≠ .zeroize) {j : PReg} (hj : pointDestination i ≠ some j) :
    readPinf e j = readPinf d j := by
  cases h with
  | unchanged => rfl
  | zeroed hz' => exact absurd hz' hz
  | field => rfl
  | point _ hk P =>
    obtain ⟨-, hpinf, -⟩ := onlyPoint_setpt _ P d
    exact hpinf j fun hjk => hj (hjk ▸ hk)
  | buffers _ he => rw [readPinf, he.pinf_eq, readPinf]

end DataUpdate

/-- Settles O19: each kind of update leaves the other unit's registers alone. -/
theorem unitsSeparate : Obligations.UnitsSeparate := fun _ _ _ h =>
  ⟨(exec_dataUpdate h).f_pinf_of_hash, (exec_dataUpdate h).mem_of_not_hash⟩

/-- Settles O20: among the updates only `setpt` writes an identity flag, that of the destination. -/
theorem pinfWriters : Obligations.PinfWriters := fun _ _ _ hz h _ hj => (exec_dataUpdate h).readPinf_eq hz hj

end Sys2Proof.Machine
end

section
/-! PROOFS. Where each location of the window lies, and what a write to it does (20_memory.md R51, R57). -/

namespace Sys2Proof.Machine

/-! ### The offset of a location -/

/-- The offset at which a location stands (20_memory.md R51). -/
def Location.offset : Location → Nat
  | .id => 0x000
  | .cmd => 0x004
  | .status => 0x008
  | .errcode => 0x00C
  | .ctrl => 0x010
  | .pinf => 0x014
  | .ctx i => 0x100 + i
  | .dat i => 0x200 + i
  | .field i w => 0x400 + 0x80 * i.val + 4 * w.val

/-- A location that an access reaches names a word inside its buffer. -/
def Location.inBuffer : Location → Prop
  | .ctx i | .dat i => i + 4 ≤ 256
  | .id | .cmd | .status | .errcode | .ctrl | .pinf | .field .. => True

/-- A word offset leads to the location that stands there. -/
theorem locateWord_eq_some {k : Nat} {l : Location} (h4 : k % 4 = 0) (h : locateWord k = some l) :
    k = l.offset ∧ l.inBuffer := by
  unfold locateWord at h
  repeat' split at h
  all_goals cases h
  all_goals
    simp only [Location.offset, Location.inBuffer, and_true]
    omega

/-- Only aligned 32-bit accesses reach a location, each the one that stands at its offset. -/
theorem locate_eq_some {a : Int} {n : Nat} {l : Location} (h : locate a n = some l) :
    a = l.offset ∧ n = 4 ∧ l.inBuffer := by
  unfold locate at h
  split at h
  · cases h
  · obtain ⟨hk, hb⟩ := locateWord_eq_some (by omega) h
    exact ⟨by omega, by omega, hb⟩

/-- A location of the control state stands at 0x010 or below, every other one at a data offset. -/
theorem offset_le_or_dataOffset {l : Location} (h4 : l.offset % 4 = 0) (hb : l.inBuffer) :
    l.offset ≤ 0x010 ∨ dataOffset l.offset := by
  cases l with
  | id | cmd | status | errcode | ctrl => exact .inl (by decide)
  | pinf => exact .inr (.inl rfl)
  | ctx i | dat i =>
    simp only [Location.inBuffer] at hb
    simp only [Location.offset] at h4 ⊢
    exact .inr (.inr (.inl ⟨by omega, by omega, h4⟩))
  | field i w => exact .inr (.inr (.inr ⟨i, w, i.isLt, w.isLt, rfl⟩))

/-- The reserved offsets above `CTRL` reach nothing (20_memory.md R51). -/
theorem locate_reserved {a : Nat} (h4 : a % 4 = 0) (hlo : 0x010 < a) (hr : ¬dataOffset a) : locate a 4 = none := by
  cases hl : locate a 4 with
  | none => rfl
  | some l =>
    obtain ⟨ha, -, hb⟩ := locate_eq_some hl
    obtain rfl : a = l.offset := by omega
    rcases offset_le_or_dataOffset h4 hb with hle | hd
    · omega
    · exact absurd hd hr

/-! ### Writes by location -/

theorem memWrite_refused {a : Int} {n : Nat} (h : locate a n = none) (v : Word) (s : State) :
    memWrite a n v s = (s, .busError) := by
  rw [memWrite, h]

theorem memWrite_status (v : Word) (s : State) : memWrite 0x008 4 v s = (writeStatus v s, .ok) := rfl

theorem memWrite_ctrl (v : Word) (s : State) : memWrite 0x010 4 v s = (writeCtrl v s, .ok) := rfl

/-- A write to a frozen location sets `HZD` only (20_memory.md R59). -/
theorem memWrite_blocked {a : Int} {n : Nat} {l : Location} (hl : locate a n = some l) (hd : blockedWhileBusy l = true)
    {s : State} (hs : s.busy = true) (v : Word) : memWrite a n v s = ({ s with hzd := true }, .ok) := by
  rw [memWrite, hl]
  cases l with
  | pinf | ctx | dat | field => exact if_pos hs
  | id | cmd | status | errcode | ctrl => cases hd

/-- A write to a data location that is not frozen changes the data state only (20_memory.md R57). -/
theorem memWrite_data {a : Int} {n : Nat} {l : Location} (hl : locate a n = some l) (hd : blockedWhileBusy l = true)
    {s : State} (hs : s.busy = false) (v : Word) :
    memWrite a n v s = ({ s with data := writeData v s.data l }, .ok) := by
  rw [memWrite, hl]
  cases l with
  | pinf | ctx | dat | field => exact if_neg (by rw [hs]; exact Bool.false_ne_true)
  | id | cmd | status | errcode | ctrl => cases hd

/-- The write-1-to-clear of `STATUS`, flag by flag (10_state.md R29). -/
theorem writeStatus_eq (v : Word) (s : State) :
    writeStatus v s = { s with
      done := s.done && !v.getLsbD 1, err := s.err && !v.getLsbD 2,
      errcode := if v.getLsbD 2 then 0 else s.errcode,
      drop := s.drop && !v.getLsbD 3, hzd := s.hzd && !v.getLsbD 4 } := by
  simp only [writeStatus, clearError]
  split_ifs <;> simp_all

/-- A `CTRL` write with bit 1 set is a soft reset (10_state.md R31). -/
theorem writeCtrl_softReset {v : Word} (h : v.getLsbD 1 = true) (s : State) : writeCtrl v s = resetCore s := by
  rw [writeCtrl, if_pos h]

/-- A `CTRL` write with bit 1 clear stores `IE` (10_state.md R31). -/
theorem writeCtrl_ie {v : Word} (h : v.getLsbD 1 = false) (s : State) :
    writeCtrl v s = { s with ie := v.getLsbD 0 } := by
  rw [writeCtrl, h, if_neg Bool.false_ne_true]

end Sys2Proof.Machine
end

section
/-! PROOFS. The words that a host write puts into the buffers and the field registers (20_memory.md R52, R60). -/

namespace Sys2Proof.Machine

/-! ### A word as four bytes -/

/-- Byte `i` of `le_bytes(v, k)` (00_scope.md R13). -/
theorem leBytes_getElem (v k i : Nat) (h : i < (leBytes v k).length) :
    (leBytes v k)[i] = BitVec.ofNat 8 (v / 256 ^ i) := by
  induction k generalizing v i with
  | zero => simp [leBytes] at h
  | succ k ih =>
    cases i with
    | zero => simp [leBytes]
    | succ i => simp only [leBytes, List.getElem_cons_succ, ih, Nat.div_div_eq_div_mul, pow_succ']

/-- Byte `i` of a word's bytes is its bits `8i+7 : 8i`. -/
theorem leBytes_toNat_getElem {w : Nat} (v : BitVec w) (k i : Nat) (h : i < (leBytes v.toNat k).length) :
    (leBytes v.toNat k)[i] = v.extractLsb' (8 * i) 8 := by
  apply BitVec.eq_of_toNat_eq
  rw [leBytes_getElem, BitVec.toNat_ofNat, BitVec.extractLsb'_toNat, Nat.shiftRight_eq_div_pow, pow_mul]
  rfl

/-- Byte `i` of what was written to `DAT`. -/
theorem datByte_writeDat_same {d : Data} (h : Memory.wf d.mem = true) {off : Nat} {bs : List Byte}
    (hb : off + bs.length ≤ 256) {i : Nat} (hi : i < bs.length) :
    datByte (writeDat off bs d) (off + i) = bs[i] := by
  rw [datByte, ← Nat.add_assoc]
  exact read_writeBytes_same bs h (by simp only [ctxBase, datBase]; omega) (by simp only [datBase, bufferEnd]; omega)
    i hi

/-! ### A word of a field register -/

/-- Bit `i` of a field register after its word `w` was replaced (20_memory.md R60). -/
theorem setFieldWordAt_getLsbD (v : FieldWord) (w : Fin 18) (x : Word) {i : Nat} (hi : i < 576) :
    (setFieldWordAt v w x).getLsbD i =
      if 32 * w.val ≤ i ∧ i < 32 * w.val + 32 then x.getLsbD (i - 32 * w.val) else v.getLsbD i := by
  simp only [setFieldWordAt, BitVec.getLsbD_or, BitVec.getLsbD_and, BitVec.getLsbD_not, BitVec.getLsbD_shiftLeft,
    BitVec.getLsbD_setWidth, BitVec.getLsbD_allOnes, hi, decide_true, Bool.true_and]
  split
  · next h =>
    have h1 : ¬i < 32 * w.val := by omega
    have h2 : i - 32 * w.val < 32 := by omega
    have h3 : i - 32 * w.val < 576 := by omega
    simp [h1, h2, h3]
  · next h =>
    by_cases h1 : i < 32 * w.val
    · simp [h1]
    · have h2 : ¬i - 32 * w.val < 32 := by omega
      have h3 : x.getLsbD (i - 32 * w.val) = false := BitVec.getLsbD_of_ge _ _ (by omega)
      simp [h2, h3]

/-- The replaced word reads back. -/
theorem setFieldWordAt_same (v : FieldWord) (w : Fin 18) (x : Word) :
    (setFieldWordAt v w x).extractLsb' (32 * w.val) 32 = x := by
  apply BitVec.eq_of_getLsbD_eq
  intro j hj
  rw [BitVec.getLsbD_extractLsb', decide_eq_true hj, Bool.true_and, setFieldWordAt_getLsbD _ _ _ (by omega),
    if_pos (by omega), Nat.add_sub_cancel_left]

/-- The other words stay. -/
theorem setFieldWordAt_other (v : FieldWord) {w u : Fin 18} (h : u ≠ w) (x : Word) :
    (setFieldWordAt v w x).extractLsb' (32 * u.val) 32 = v.extractLsb' (32 * u.val) 32 := by
  have hval : u.val ≠ w.val := Fin.val_ne_of_ne h
  apply BitVec.eq_of_getLsbD_eq
  intro j hj
  rw [BitVec.getLsbD_extractLsb', BitVec.getLsbD_extractLsb', setFieldWordAt_getLsbD _ _ _ (by omega),
    if_neg (by omega)]

/-- A word write to a field register is a write of the register. -/
theorem writeData_field (v : Word) (d : Data) (i : FReg) (w : Fin 18) :
    writeData v d (.field i w) = writeField i (setFieldWordAt d.f[i] w v).toNat d := by
  simp [writeData, writeField]

theorem writeData_field_self (v : Word) (d : Data) (i : FReg) (w : Fin 18) :
    (writeData v d (.field i w)).f[i] = setFieldWordAt d.f[i] w v := by
  simp [writeData]

/-! ### The map of the writes -/

section
variable {s : State} (hs : s.busy = false) (v : Word)
include hs

theorem memWrite_ctx (hw : Memory.wf s.data.mem = true) {k : Nat} (hk : k < 64) :
    ∃ d, memWrite (0x100 + 4 * k : Nat) 4 v s = ({ s with data := d }, .ok) ∧
      onlyBytes [(0x100 + 4 * k, 4)] s.data d ∧ ∀ j, j < 4 → ctxByte d (4 * k + j) = v.extractLsb' (8 * j) 8 := by
  have hl := (locate_aligned (by omega) (by omega)).trans (locateWord_ctx hk)
  have hb : 4 * k + (leBytes v.toNat 4).length ≤ 256 := by rw [leBytes_length]; omega
  refine ⟨_, memWrite_data hl rfl hs v, ?_, fun j hj => ?_⟩
  · have h := onlyBytes_writeCtx (4 * k) (leBytes v.toNat 4) s.data
    rw [leBytes_length] at h
    exact h
  · exact (ctxByte_writeCtx_same hw hb (by rwa [leBytes_length])).trans (leBytes_toNat_getElem v 4 j _)

theorem memWrite_dat (hw : Memory.wf s.data.mem = true) {k : Nat} (hk : k < 64) :
    ∃ d, memWrite (0x200 + 4 * k : Nat) 4 v s = ({ s with data := d }, .ok) ∧
      onlyBytes [(0x200 + 4 * k, 4)] s.data d ∧ ∀ j, j < 4 → datByte d (4 * k + j) = v.extractLsb' (8 * j) 8 := by
  have hl := (locate_aligned (by omega) (by omega)).trans (locateWord_dat hk)
  have hb : 4 * k + (leBytes v.toNat 4).length ≤ 256 := by rw [leBytes_length]; omega
  refine ⟨_, memWrite_data hl rfl hs v, ?_, fun j hj => ?_⟩
  · have h := onlyBytes_writeDat (4 * k) (leBytes v.toNat 4) s.data
    rw [leBytes_length] at h
    exact h
  · exact (datByte_writeDat_same hw hb (by rwa [leBytes_length])).trans (leBytes_toNat_getElem v 4 j _)

theorem memWrite_field (i : FReg) (w : Fin 18) :
    ∃ d, memWrite (0x400 + 0x80 * i.val + 4 * w.val : Nat) 4 v s = ({ s with data := d }, .ok) ∧
      onlyField i s.data d ∧ d.f[i].extractLsb' (32 * w.val) 32 = v ∧
      ∀ u : Fin 18, u ≠ w → d.f[i].extractLsb' (32 * u.val) 32 = s.data.f[i].extractLsb' (32 * u.val) 32 := by
  have hl := (locate_aligned (by omega) (by omega)).trans (locateWord_field i w)
  refine ⟨_, memWrite_data hl rfl hs v, ?_, ?_, fun u hu => ?_⟩
  · rw [writeData_field]
    exact onlyField_writeField ..
  · rw [writeData_field_self, setFieldWordAt_same]
  · rw [writeData_field_self, setFieldWordAt_other _ hu]

end

/-- Settles O13: the refused accesses, the control registers, the frozen locations, and the data locations. -/
theorem writeMap : Obligations.WriteMap := fun s v => by
  refine ⟨fun a n h => memWrite_refused (locate_refused h) v s, rfl, rfl, ?_, fun hv => ?_, fun hv => ?_,
    fun hs a ha => ?_, fun hs hw => ⟨?_, fun k hk => memWrite_ctx hs v hw hk, fun k hk => memWrite_dat hs v hw hk,
      memWrite_field hs v⟩, fun a h4 hlo _ hr => memWrite_refused (locate_reserved h4 hlo hr) v s⟩
  · rw [memWrite_status, writeStatus_eq]
  · rw [memWrite_ctrl, writeCtrl_ie hv]
  · rw [memWrite_ctrl, writeCtrl_softReset hv]
    rfl
  · obtain ⟨l, hl, hd⟩ := locate_dataOffset ha
    exact memWrite_blocked hl hd hs v
  · exact memWrite_data (l := .pinf) rfl rfl hs v

end Sys2Proof.Machine
end

section
/-! PROOFS. The invariant: it holds after reset and every step keeps it (10_state.md R29, R30, R42,
60_exceptions.md R313). -/

namespace Sys2Proof.Machine

/-! ### What a step can do -/

/-- A completion with a command in flight: the arm of its instruction, or error code 8. -/
theorem completeInFlight_cases {s t : State} (h : completeInFlight s = .next t) :
    (∃ i, exec i s = .next t) ∨ t = failedWith s (errorCode .illegalCommand) := by
  unfold completeInFlight at h
  split at h
  · exact .inl ⟨_, h⟩
  · cases h
    exact .inr (raiseError_eq_failedWith _ s)

/-- A completion, or nothing when no command is in flight. -/
theorem completeOrIdle_cases {s t : State} (h : completeOrIdle s = .next t) : t = s ∨ completeInFlight s = .next t := by
  unfold completeOrIdle at h
  split at h
  · exact .inr h
  · cases h
    exact .inl rfl

/-- Everything one step can be: a completion or nothing, a host access, a hard reset (20_memory.md R64). -/
theorem step_cases {s t : State} (h : step s = .next t) :
    (∃ rest, completeOrIdle { s with inputs := rest } = .next t) ∨
    (∃ a n rest, s.inputs = .read a n :: rest ∧ t = recordReply (memRead a n { s with inputs := rest })) ∨
    (∃ a n v rest, s.inputs = .write a n v :: rest ∧ t = recordReply (memWrite a n v { s with inputs := rest })) ∨
    (∃ rest, s.inputs = .hardReset :: rest ∧ t = resetCore { s with inputs := rest }) := by
  unfold step stepOnce at h
  split at h
  · next hs => exact .inl ⟨[], hs ▸ h⟩
  · next e rest hs =>
    cases e with
    | read a n => cases h; exact .inr (.inl ⟨a, n, rest, hs, rfl⟩)
    | write a n v => cases h; exact .inr (.inr (.inl ⟨a, n, v, rest, hs, rfl⟩))
    | complete => exact .inl ⟨rest, h⟩
    | hardReset => cases h; exact .inr (.inr (.inr ⟨rest, hs, rfl⟩))

/-! ### The invariant in words -/

theorem goodState_iff (s : State) :
    goodState s = true ↔ (s.busy = true → s.done = false ∧ s.err = false) ∧ (s.err = true ↔ s.errcode ≠ 0) ∧
      legalErrorCode s.errcode = true ∧ Memory.wf s.data.mem = true := by
  unfold goodState flagsAgree
  cases s.busy <;> cases s.err <;> cases s.done <;> simp [and_assoc]

/-- The codes of the checks are legal and not 0 (60_exceptions.md R311, R313). -/
theorem errorCode_failureKind_legal (f : Failure) :
    errorCode (failureKind f) ≠ 0 ∧ legalErrorCode (errorCode (failureKind f)) = true := by
  cases f <;> decide

section Updates
variable {s : State}

theorem goodState_finishedWith (h : goodState s = true) {d : Data} (hd : Memory.wf d.mem = true) :
    goodState (finishedWith s d) = true := by
  obtain ⟨-, herr, hcode, -⟩ := (goodState_iff s).1 h
  exact (goodState_iff _).2 ⟨nofun, herr, hcode, hd⟩

theorem goodState_failedWith (h : goodState s = true) (f : Failure) :
    goodState (failedWith s (errorCode (failureKind f))) = true := by
  obtain ⟨-, -, -, hmem⟩ := (goodState_iff s).1 h
  obtain ⟨hne, hlegal⟩ := errorCode_failureKind_legal f
  exact (goodState_iff _).2 ⟨nofun, iff_of_true rfl hne, hlegal, hmem⟩

/-- The invariant does not read the two protocol flags. -/
theorem goodState_hzd (h : goodState s = true) (b : Bool) : goodState { s with hzd := b } = true := h

theorem goodState_drop (h : goodState s = true) (b : Bool) : goodState { s with drop := b } = true := h

theorem goodState_ie (h : goodState s = true) (b : Bool) : goodState { s with ie := b } = true := h

theorem goodState_inputs (h : goodState s = true) (l : List Event) : goodState { s with inputs := l } = true := h

theorem goodState_recordReply {r : State × Reply} (h : goodState r.1 = true) : goodState (recordReply r) = true := h

theorem goodState_data (h : goodState s = true) {d : Data} (hd : Memory.wf d.mem = true) :
    goodState { s with data := d } = true := by
  obtain ⟨hbusy, herr, hcode, -⟩ := (goodState_iff s).1 h
  exact (goodState_iff _).2 ⟨hbusy, herr, hcode, hd⟩

theorem goodState_clearDone (h : goodState s = true) : goodState { s with done := false } = true := by
  obtain ⟨hbusy, herr, hcode, hmem⟩ := (goodState_iff s).1 h
  exact (goodState_iff _).2 ⟨fun hb => ⟨rfl, (hbusy hb).2⟩, herr, hcode, hmem⟩

theorem goodState_clearError (h : goodState s = true) : goodState (clearError s) = true := by
  obtain ⟨hbusy, -, -, hmem⟩ := (goodState_iff s).1 h
  exact (goodState_iff _).2 ⟨fun hb => ⟨(hbusy hb).1, rfl⟩, by simp, rfl, hmem⟩

theorem goodState_resetCore (s : State) : goodState (resetCore s) = true := rfl

/-- An update under a condition. -/
theorem goodState_ite {c : Bool} {t : State} (hs : goodState s = true) (ht : goodState t = true) :
    goodState (if c then t else s) = true := by
  cases c
  · exact hs
  · exact ht

theorem goodState_writeStatus (h : goodState s = true) (v : Word) : goodState (writeStatus v s) = true := by
  have h1 := goodState_ite (c := v.getLsbD 1) h (goodState_clearDone h)
  have h2 := goodState_ite (c := v.getLsbD 2) h1 (goodState_clearError h1)
  have h3 := goodState_ite (c := v.getLsbD 3) h2 (goodState_drop h2 false)
  exact goodState_ite h3 (goodState_hzd h3 false)

theorem goodState_writeCtrl (h : goodState s = true) (v : Word) : goodState (writeCtrl v s) = true :=
  goodState_ite (goodState_ie h _) (goodState_resetCore s)

/-- A submission is accepted only with no error pending, so `BUSY` excludes `ERR` after it. -/
theorem goodState_submit (h : goodState s = true) (v : Word) : goodState (submit v s) = true := by
  rcases submit_cases v s with ⟨-, herr0, hs⟩ | ⟨-, hs⟩ <;> rw [hs]
  · obtain ⟨-, herr, hcode, hmem⟩ := (goodState_iff s).1 h
    exact (goodState_iff _).2 ⟨fun _ => ⟨rfl, herr0⟩, herr, hcode, hmem⟩
  · exact goodState_drop h true

end Updates

/-! ### Host accesses -/

theorem wf_writeData {d : Data} (h : Memory.wf d.mem = true) (v : Word) {l : Location} (hl : l.inBuffer) :
    Memory.wf (writeData v d l).mem = true := by
  cases l with
  | ctx i => exact wf_writeCtx h (by rwa [leBytes_length])
  | dat i => exact wf_writeDat h (by rwa [leBytes_length])
  | _ => exact h

theorem goodState_memRead {s : State} (h : goodState s = true) (a : Int) (n : Nat) :
    goodState (memRead a n s).1 = true := by
  rcases memRead_cases a n s with ⟨r, hr⟩ | ⟨-, hr⟩ <;> rw [hr]
  · exact h
  · exact goodState_hzd h true

theorem goodState_memWrite {s : State} (h : goodState s = true) (a : Int) (n : Nat) (v : Word) :
    goodState (memWrite a n v s).1 = true := by
  obtain ⟨-, -, -, hmem⟩ := (goodState_iff s).1 h
  rcases memWrite_cases a n v s with hw | ⟨-, hw⟩ | ⟨-, hw⟩ | ⟨-, hw⟩ | ⟨-, hw⟩ | ⟨l, hl, -, -, hw⟩ <;> rw [hw]
  · exact h
  · exact goodState_submit h v
  · exact goodState_writeStatus h v
  · exact goodState_writeCtrl h v
  · exact goodState_hzd h true
  · obtain ⟨-, -, hb⟩ := locate_eq_some hl
    exact goodState_data h (wf_writeData hmem v hb)

/-! ### Completions -/

theorem goodState_exec {i : Instr} {s t : State} (h : goodState s = true) (he : exec i s = .next t) :
    goodState t = true := by
  obtain ⟨-, -, -, hmem⟩ := (goodState_iff s).1 h
  have hd := (exec_dataUpdate he).wf hmem
  rcases exec_next he with ⟨d, rfl⟩ | ⟨f, rfl⟩
  · exact goodState_finishedWith h hd
  · exact goodState_failedWith h f

theorem goodState_completeOrIdle {s t : State} (h : goodState s = true) (hc : completeOrIdle s = .next t) :
    goodState t = true := by
  rcases completeOrIdle_cases hc with rfl | hc
  · exact h
  · rcases completeInFlight_cases hc with ⟨i, he⟩ | rfl
    · exact goodState_exec h he
    · exact goodState_failedWith h .illegalCommand

/-- Settles O3: each kind of step keeps the invariant. -/
theorem stepKeepsGoodState : Obligations.StepKeepsGoodState := fun s t hs h => by
  rcases step_cases h with ⟨rest, hc⟩ | ⟨a, n, rest, -, rfl⟩ | ⟨a, n, v, rest, -, rfl⟩ | ⟨rest, -, rfl⟩
  · exact goodState_completeOrIdle (goodState_inputs hs rest) hc
  · exact goodState_recordReply (goodState_memRead (goodState_inputs hs rest) a n)
  · exact goodState_recordReply (goodState_memWrite (goodState_inputs hs rest) a n v)
  · exact goodState_resetCore _

/-- Settles O2: the state after reset is one that `resetCore` leaves. -/
theorem resetIsGood : Obligations.ResetIsGood := goodState_resetCore State.reset

end Sys2Proof.Machine
end

section
/-! PROOFS. The canonical form of the buffers is determined by what is read (10_state.md R33, R38). -/

namespace Sys2Proof.Machine

/-- A canonical list with a cell at its head. -/
theorem canonicalFrom_cons {lo k : Nat} {b : Byte} {m : Memory} (h : Memory.canonicalFrom lo ((k, b) :: m) = true) :
    lo ≤ k ∧ b ≠ unlistedByte ∧ Memory.canonicalFrom (k + 1) m = true := by
  simp only [Memory.canonicalFrom, Bool.and_eq_true, decide_eq_true_eq] at h
  obtain ⟨⟨⟨hlo, -⟩, hb⟩, hm⟩ := h
  exact ⟨hlo, hb, hm⟩

theorem read_head (k : Nat) (b : Byte) (m : Memory) : Memory.read ((k, b) :: m) k = b := by
  rw [Memory.read, if_pos rfl]

theorem read_tail {k a : Nat} (h : k ≠ a) (b : Byte) (m : Memory) :
    Memory.read ((k, b) :: m) a = Memory.read m a := by
  rw [Memory.read, if_neg h]

/-- The head of a canonical list is the lowest offset that reads as a listed byte. -/
theorem head_le_of_read_ne {lo k a : Nat} {b : Byte} {m : Memory}
    (h : Memory.canonicalFrom lo ((k, b) :: m) = true) (ha : Memory.read ((k, b) :: m) a ≠ unlistedByte) : k ≤ a := by
  obtain ⟨-, -, hm⟩ := canonicalFrom_cons h
  by_contra hlt
  rw [read_tail (by omega)] at ha
  exact ha (read_below hm (by omega))

/-- Two canonical lists that read alike are the same list, cell by cell from the lowest offset up. -/
theorem canonicalFrom_ext {lo lo' : Nat} {m n : Memory} (hm : Memory.canonicalFrom lo m = true)
    (hn : Memory.canonicalFrom lo' n = true) (hread : ∀ a, Memory.read m a = Memory.read n a) : m = n := by
  induction m generalizing n lo lo' with
  | nil =>
    cases n with
    | nil => rfl
    | cons y n =>
      obtain ⟨k, c⟩ := y
      obtain ⟨-, hc, -⟩ := canonicalFrom_cons hn
      exact absurd (read_head k c n ▸ hread k).symm hc
  | cons x m ih =>
    obtain ⟨k, b⟩ := x
    obtain ⟨-, hb, hm'⟩ := canonicalFrom_cons hm
    cases n with
    | nil => exact absurd (read_head k b m ▸ hread k) hb
    | cons y n =>
      obtain ⟨k', c⟩ := y
      obtain ⟨-, hc, hn'⟩ := canonicalFrom_cons hn
      have hle : k ≤ k' := head_le_of_read_ne hm (by rwa [hread, read_head])
      have hge : k' ≤ k := head_le_of_read_ne hn (by rwa [← hread, read_head])
      obtain rfl : k = k' := Nat.le_antisymm hle hge
      have hbc : b = c := by simpa only [read_head] using hread k
      have htail (a : Nat) : Memory.read m a = Memory.read n a := by
        by_cases hak : k = a
        · rw [read_below hm' (by omega), read_below hn' (by omega)]
        · simpa only [read_tail hak] using hread a
      rw [hbc, ih hm' hn' htail]

/-- Settles O21, by induction on the lists. -/
theorem memoryIsCanonical : Obligations.MemoryIsCanonical := fun _ _ => canonicalFrom_ext

end Sys2Proof.Machine
end

section
/-! PROOFS. Reset, and the changes of `CMDR` (10_state.md R26, R42). -/

namespace Sys2Proof.Machine

/-! ### Reset -/

theorem resetValues_resetCore (s : State) : resetValues (resetCore s) := by
  refine ⟨fun r => ?_, rfl, fun _ _ => rfl, fun _ _ => rfl, rfl, rfl, rfl, rfl, rfl, rfl, rfl, rfl⟩
  simp [Data.zero]

theorem step_hardReset {s : State} {rest : List Event} (h : s.inputs = .hardReset :: rest) :
    step s = .next (resetCore { s with inputs := rest }) := by
  rw [step, stepOnce, h]
  rfl

/-- Settles O1: every reset leads to `resetCore`, which has the tabulated values. -/
theorem resetState : Obligations.ResetState := by
  refine ⟨resetValues_resetCore State.reset, fun s rest h => ?_, fun s v hv => ?_, fun s => rfl⟩
  · exact ⟨_, step_hardReset h, resetValues_resetCore _⟩
  · exact ⟨_, memWrite_ctrl v s, writeCtrl_softReset hv s ▸ resetValues_resetCore s⟩

/-! ### The command register -/

@[simp] theorem writeStatus_cmdr (v : Word) (s : State) : (writeStatus v s).cmdr = s.cmdr := by
  rw [writeStatus_eq]

theorem memRead_cmdr (a : Int) (n : Nat) (s : State) : (memRead a n s).1.cmdr = s.cmdr := by
  rcases memRead_cases a n s with ⟨r, hr⟩ | ⟨-, hr⟩ <;> rw [hr]

/-- A completion keeps `CMDR`. -/
theorem completeOrIdle_cmdr {s t : State} (h : completeOrIdle s = .next t) : t.cmdr = s.cmdr := by
  rcases completeOrIdle_cases h with rfl | hc
  · rfl
  · rcases completeInFlight_cases hc with ⟨i, he⟩ | rfl
    · rcases exec_next he with ⟨d, rfl⟩ | ⟨f, rfl⟩ <;> rfl
    · rfl

/-- A host write changes `CMDR` by an accept or a soft reset only (20_memory.md R61, 10_state.md R31). -/
theorem memWrite_cmdr_changed {a : Int} {n : Nat} {v : Word} {s : State} (h : (memWrite a n v s).1.cmdr ≠ s.cmdr) :
    (s.busy = false ∧ s.err = false ∧ a = 0x004 ∧ n = 4 ∧ (memWrite a n v s).1.cmdr = v) ∨
      (a = 0x010 ∧ n = 4 ∧ v.getLsbD 1 = true ∧ (memWrite a n v s).1.cmdr = 0) := by
  rcases memWrite_cases a n v s with hw | ⟨hl, hw⟩ | ⟨-, hw⟩ | ⟨hl, hw⟩ | ⟨-, hw⟩ | ⟨l, -, -, -, hw⟩ <;> rw [hw] at h ⊢
  · exact absurd rfl h
  · obtain ⟨ha, hn, -⟩ := locate_eq_some hl
    rcases submit_cases v s with ⟨hb, he, hs⟩ | ⟨-, hs⟩ <;> rw [hs] at h ⊢
    · exact .inl ⟨hb, he, ha, hn, rfl⟩
    · exact absurd rfl h
  · exact absurd (writeStatus_cmdr v s) h
  · obtain ⟨ha, hn, -⟩ := locate_eq_some hl
    cases hv : v.getLsbD 1 with
    | false => rw [writeCtrl_ie hv] at h; exact absurd rfl h
    | true => exact .inr ⟨ha, hn, rfl, congrArg State.cmdr (writeCtrl_softReset hv s)⟩
  · exact absurd rfl h
  · exact absurd rfl h

/-- Settles O15: of the steps only an accept and the two resets change `CMDR`. -/
theorem commandRegister : Obligations.CommandRegister := fun s t h hne => by
  rcases step_cases h with ⟨rest, hc⟩ | ⟨a, n, rest, -, rfl⟩ | ⟨a, n, v, rest, hs, rfl⟩ | ⟨rest, hs, rfl⟩
  · exact absurd (completeOrIdle_cmdr hc) hne
  · exact absurd (memRead_cmdr a n _) hne
  · rcases memWrite_cmdr_changed hne with ⟨hb, he, rfl, rfl, hv⟩ | ⟨rfl, rfl, hv, h0⟩
    · exact .inl ⟨hb, he, v, rest, hs, hv⟩
    · exact .inr (.inr ⟨h0, v, rest, hs, hv⟩)
  · exact .inr (.inl ⟨rfl, rest, hs⟩)

end Sys2Proof.Machine
end

section
/-! PROOFS. One step, kind by kind of action (20_memory.md R63, R64; 30_encoding.md R84). -/

namespace Sys2Proof.Machine

/-! ### Completions -/

/-- The word in flight spells a command: its arm runs. -/
theorem completeInFlight_decoded {s : State} {i : Instr} (h : decode s.cmdr = .ok i) :
    completeInFlight s = exec i s := by
  rw [completeInFlight, h]

/-- The word in flight spells no command: error code 8 (20_memory.md R61). -/
theorem completeInFlight_illegal {s : State} {e : Illegal} (h : decode s.cmdr = .error e) :
    completeInFlight s = .next (failedWith s 8) := by
  rw [completeInFlight, h, raiseError_eq_failedWith]
  rfl

theorem completeOrIdle_busy {s : State} (h : s.busy = true) : completeOrIdle s = completeInFlight s := if_pos h

theorem completeOrIdle_idle {s : State} (h : s.busy = false) : completeOrIdle s = .next s :=
  if_neg (Bool.eq_false_iff.1 h)

/-- Every accepted command completes (70_reset_and_hazards.md R366). -/
theorem completeInFlight_next (s : State) : ∃ t, completeInFlight s = .next t := by
  cases h : decode s.cmdr with
  | error e => exact ⟨_, completeInFlight_illegal h⟩
  | ok i =>
    rw [completeInFlight_decoded h]
    rcases exec_cases i s with ⟨d, hd⟩ | ⟨f, hf⟩
    · exact ⟨_, hd⟩
    · exact ⟨_, hf⟩

theorem completeOrIdle_next (s : State) : ∃ t, completeOrIdle s = .next t := by
  cases h : s.busy with
  | true => exact completeOrIdle_busy h ▸ completeInFlight_next s
  | false => exact ⟨s, completeOrIdle_idle h⟩

/-! ### Steps -/

/-- With no action left a step offers a completion (log 1). -/
theorem step_of_no_input {s : State} (h : s.inputs = []) : step s = completeOrIdle s := by
  rw [step, stepOnce, h]

theorem step_of_input {s : State} {e : Event} {rest : List Event} (h : s.inputs = e :: rest) :
    step s = applyEvent e { s with inputs := rest } := by
  rw [step, stepOnce, h]

/-- A completion offered while a command is in flight (20_memory.md R63). -/
theorem step_complete_busy {s : State} {rest : List Event} (h : s.inputs = .complete :: rest) (hb : s.busy = true) :
    step s = completeInFlight { s with inputs := rest } :=
  (step_of_input h).trans (completeOrIdle_busy (s := { s with inputs := rest }) hb)

/-- A completion offered with no command in flight is consumed. -/
theorem step_complete_idle {s : State} {rest : List Event} (h : s.inputs = .complete :: rest) (hb : s.busy = false) :
    step s = .next { s with inputs := rest } :=
  (step_of_input h).trans (completeOrIdle_idle (s := { s with inputs := rest }) hb)

theorem applyEvent_next (e : Event) (s : State) : ∃ t, applyEvent e s = .next t := by
  cases e with
  | read | write | hardReset => exact ⟨_, rfl⟩
  | complete => exact completeOrIdle_next s

/-- Settles O4: the completion answers, and so does every other action. -/
theorem stepAnswersNext : Obligations.StepAnswersNext := fun s => by
  cases h : s.inputs with
  | nil => exact step_of_no_input h ▸ completeOrIdle_next s
  | cons e rest => exact step_of_input h ▸ applyEvent_next e _

/-- A placed command is the next thing a step runs (log 2). -/
theorem step_placeCommand {w : Word} {i : Instr} (h : decode w = .ok i) (s : State) :
    step (placeCommand w s) =
      exec i { s with cmdr := w, busy := true, done := false, err := false, errcode := 0 } :=
  (step_complete_busy (s := placeCommand w s) rfl rfl).trans (completeInFlight_decoded h)

/-- Of the number given to `withFetchWord` no bit is lost when it fits. -/
theorem step_withFetchWord {s : State} {w : Nat} {i : Instr} (hw : w < 2 ^ 32)
    (h : decode (BitVec.ofNat 32 w) = .ok i) :
    step (s.withFetchWord 32 w) = exec i
      { s with cmdr := BitVec.ofNat 32 w, busy := true, done := false, err := false, errcode := 0 } := by
  rw [State.withFetchWord, Nat.mod_eq_of_lt hw, step_placeCommand h]

/-- Settles O5: a completion with and without a command in flight, in its two forms, the two accesses, and a
placed word. -/
theorem stepRunsCommand : Obligations.StepRunsCommand := by
  refine ⟨fun s i hs hb hd => ?_, fun s e hs hb hd => ?_, fun s rest i hs hb hd => ?_, fun s rest e hs hb hd => ?_,
    fun s hs hb => ?_, fun s rest hs hb => ?_, fun s rest a n hs => ⟨_, _, rfl, step_of_input hs⟩,
    fun s rest a n v hs => ⟨_, _, rfl, step_of_input hs⟩, fun s w i hw hd => step_withFetchWord hw hd⟩
  · rw [step_of_no_input hs, completeOrIdle_busy hb, completeInFlight_decoded hd]
  · rw [step_of_no_input hs, completeOrIdle_busy hb, completeInFlight_illegal hd]
  · exact (step_complete_busy hs hb).trans (completeInFlight_decoded (s := { s with inputs := rest }) hd)
  · exact (step_complete_busy hs hb).trans (completeInFlight_illegal (s := { s with inputs := rest }) hd)
  · rw [step_of_no_input hs, completeOrIdle_idle hb]
  · exact step_complete_idle hs hb

end Sys2Proof.Machine
end

section
/-! PROOFS. Submission of a command word: accepted or dropped (20_memory.md R61, R62). -/

namespace Sys2Proof.Machine

theorem memWrite_cmd (v : Word) (s : State) : memWrite 0x004 4 v s = (submit v s, .ok) := rfl

theorem submit_accepted {s : State} (hb : s.busy = false) (he : s.err = false) (v : Word) :
    submit v s = { s with cmdr := v, busy := true, done := false } := by
  rw [submit, hb, he]
  rfl

theorem submit_dropped {s : State} (h : s.busy = true ∨ s.err = true) (v : Word) :
    submit v s = { s with drop := true } :=
  if_pos (Bool.or_eq_true_iff.2 h)

/-- Settles O10: the word is stored undecoded, and its completion decodes it. -/
theorem accept : Obligations.Accept := fun s v hb he =>
  ⟨by rw [memWrite_cmd, submit_accepted hb he], fun _ hd => completeInFlight_illegal hd⟩

/-- Settles O11: a `CMD` write is a submission, and this one is dropped. -/
theorem drop : Obligations.Drop := fun s v h => by rw [memWrite_cmd, submit_dropped h]

end Sys2Proof.Machine
end

section
/-! PROOFS. The map of the reads (20_memory.md R56). -/

namespace Sys2Proof.Machine

/-! ### Reads by location -/

theorem memRead_refused {a : Int} {n : Nat} (h : locate a n = none) (s : State) :
    memRead a n s = (s, .busError) := by
  rw [memRead, h]

/-- A read of a frozen location sets `HZD` and answers 0 (20_memory.md R59). -/
theorem memRead_blocked {a : Int} {n : Nat} {l : Location} (hl : locate a n = some l)
    (hd : blockedWhileBusy l = true) {s : State} (hs : s.busy = true) :
    memRead a n s = ({ s with hzd := true }, .value 0) := by
  rw [memRead, hl]
  exact if_pos (by rw [hd, hs]; rfl)

/-- A read of a location that is not frozen answers what the location holds and changes nothing (20_memory.md R55). -/
theorem memRead_open {a : Int} {n : Nat} {l : Location} (hl : locate a n = some l) {s : State}
    (h : blockedWhileBusy l = false ∨ s.busy = false) : memRead a n s = (s, .value (readLocation s l)) := by
  rw [memRead, hl]
  exact if_neg (by rcases h with h | h <;> simp [h])

/-! ### The words of the control registers -/

/-- `STATUS` is the sum of its flags at bits 0 to 4. -/
theorem statusWord_eq_sum (s : State) :
    statusWord s = (if s.busy then 1 else 0) + (if s.done then 2 else 0) + (if s.err then 4 else 0) +
      (if s.drop then 8 else 0) + (if s.hzd then 16 else 0) := by
  have sum : ∀ b d e p z : Bool, (0#27 ++ BitVec.ofBool z ++ BitVec.ofBool p ++ BitVec.ofBool e ++
      BitVec.ofBool d ++ BitVec.ofBool b : Word) = (if b then 1 else 0) + (if d then 2 else 0) +
        (if e then 4 else 0) + (if p then 8 else 0) + (if z then 16 else 0) := by decide
  exact sum s.busy s.done s.err s.drop s.hzd

/-- `CTRL` reads as `IE` in bit 0. -/
theorem ctrlWord_eq_ite (b : Bool) : (BitVec.ofBool b).setWidth 32 = if b then (1 : Word) else 0 := by
  cases b <;> rfl

/-! ### The data locations -/

section
variable {s : State} (hs : s.busy = false)
include hs

theorem memRead_ctx {k : Nat} (hk : k < 64) :
    memRead (0x100 + 4 * k : Nat) 4 s = (s, .value (ctxByte s.data (4 * k + 3) ++ ctxByte s.data (4 * k + 2) ++
      ctxByte s.data (4 * k + 1) ++ ctxByte s.data (4 * k))) := by
  have hl := (locate_aligned (by omega) (by omega)).trans (locateWord_ctx hk)
  rw [memRead_open hl (.inr hs), readLocation, readCtx, leWordAt_readBytes_four]
  rfl

theorem memRead_dat {k : Nat} (hk : k < 64) :
    memRead (0x200 + 4 * k : Nat) 4 s = (s, .value (datByte s.data (4 * k + 3) ++ datByte s.data (4 * k + 2) ++
      datByte s.data (4 * k + 1) ++ datByte s.data (4 * k))) := by
  have hl := (locate_aligned (by omega) (by omega)).trans (locateWord_dat hk)
  rw [memRead_open hl (.inr hs), readLocation, readDat, leWordAt_readBytes_four]
  rfl

theorem memRead_field (i : FReg) (w : Fin 18) :
    memRead (0x400 + 0x80 * i.val + 4 * w.val : Nat) 4 s =
      (s, .value (s.data.f[i].extractLsb' (32 * w.val) 32)) :=
  memRead_open ((locate_aligned (by omega) (by omega)).trans (locateWord_field i w)) (.inr hs)

end

/-- Settles O12: the refused accesses, the control registers, the frozen locations, and the data locations. -/
theorem readMap : Obligations.ReadMap := fun s => by
  refine ⟨fun a n h => memRead_refused (locate_refused h) s, rfl, rfl, ?_, rfl, ?_, fun hs a ha => ?_,
    fun hs => ⟨memRead_open (l := .pinf) rfl (.inr hs), fun k hk => memRead_ctx hs hk, fun k hk => memRead_dat hs hk,
      memRead_field hs⟩, fun a h4 hlo _ hr => memRead_refused (locate_reserved h4 hlo hr) s⟩
  · rw [← statusWord_eq_sum]
    exact memRead_open (l := .status) rfl (.inl rfl)
  · rw [← ctrlWord_eq_ite]
    exact memRead_open (l := .ctrl) rfl (.inl rfl)
  · obtain ⟨l, hl, hd⟩ := locate_dataOffset ha
    exact memRead_blocked hl hd hs

end Sys2Proof.Machine
end

section
/-! PROOFS. What becomes of a pending error (20_memory.md R62, 60_exceptions.md R316, R317). -/

namespace Sys2Proof.Machine

/-- The error on record and the command register are the same in both states, and no command is in flight in the
second. -/
def ErrorKept (s t : State) : Prop :=
  t.err = s.err ∧ t.errcode = s.errcode ∧ t.cmdr = s.cmdr ∧ t.busy = false

/-- A `STATUS` write with bit 2 clear leaves the error (10_state.md R29). -/
theorem errorKept_writeStatus {s : State} (hs : s.busy = false) {v : Word} (hv : v.getLsbD 2 = false) :
    ErrorKept s (writeStatus v s) := by
  rw [writeStatus_eq, hv]
  exact ⟨Bool.and_true _, rfl, rfl, hs⟩

theorem errorKept_memRead {s : State} (hs : s.busy = false) (a : Int) (n : Nat) : ErrorKept s (memRead a n s).1 := by
  rcases memRead_cases a n s with ⟨r, hr⟩ | ⟨-, hr⟩ <;> rw [hr] <;> exact ⟨rfl, rfl, rfl, hs⟩

/-- Of the host's writes only a soft reset and the clearing of `ERR` touch a pending error. -/
theorem errorKept_memWrite {s : State} (hs : s.busy = false) (he : s.err = true) {a : Int} {n : Nat} {v : Word}
    (hreset : a = 0x010 → n = 4 → v.getLsbD 1 = false) (hclear : a = 0x008 → n = 4 → v.getLsbD 2 = false) :
    ErrorKept s (memWrite a n v s).1 := by
  rcases memWrite_cases a n v s with hw | ⟨-, hw⟩ | ⟨hl, hw⟩ | ⟨hl, hw⟩ | ⟨-, hw⟩ | ⟨l, -, -, -, hw⟩ <;> rw [hw]
  · exact ⟨rfl, rfl, rfl, hs⟩
  · rw [submit_dropped (.inr he)]
    exact ⟨rfl, rfl, rfl, hs⟩
  · obtain ⟨ha, hn, -⟩ := locate_eq_some hl
    exact errorKept_writeStatus hs (hclear ha hn)
  · obtain ⟨ha, hn, -⟩ := locate_eq_some hl
    rw [writeCtrl_ie (hreset ha hn)]
    exact ⟨rfl, rfl, rfl, hs⟩
  · exact ⟨rfl, rfl, rfl, hs⟩
  · exact ⟨rfl, rfl, rfl, hs⟩

/-- Only a reset or the clearing of `ERR` ends a pending error: each other kind of step keeps it. -/
theorem step_errorKept {s t : State} (hb : s.busy = false) (he : s.err = true)
    (hhard : ∀ rest, s.inputs ≠ .hardReset :: rest)
    (hsoft : ∀ v rest, s.inputs = .write 0x010 4 v :: rest → v.getLsbD 1 = false)
    (hclear : ∀ v rest, s.inputs = .write 0x008 4 v :: rest → v.getLsbD 2 = false) (h : step s = .next t) :
    ErrorKept s t := by
  rcases step_cases h with ⟨rest, hc⟩ | ⟨a, n, rest, -, rfl⟩ | ⟨a, n, v, rest, hs, rfl⟩ | ⟨rest, hs, rfl⟩
  · rw [completeOrIdle_idle (s := { s with inputs := rest }) hb] at hc
    cases hc
    exact ⟨rfl, rfl, rfl, hb⟩
  · exact errorKept_memRead (s := { s with inputs := rest }) hb a n
  · refine errorKept_memWrite (s := { s with inputs := rest }) hb he (fun ha hn => ?_) (fun ha hn => ?_)
    · subst ha hn
      exact hsoft v rest hs
    · subst ha hn
      exact hclear v rest hs
  · exact absurd hs (hhard rest)

/-- The return from an error: `ERR` and `ERRCODE` go back to 0 (60_exceptions.md R317). -/
theorem writeStatus_failedWith {s : State} (he : s.err = false) (hc : s.errcode = 0) (code : BitVec 4) :
    writeStatus 4 (failedWith s code) = { s with busy := false, done := true } := by
  simp [writeStatus_eq, failedWith, he, hc]

/-- Settles O16: the error outlives each step, and the write of 4 to `STATUS` is the return from it. -/
theorem pendingError : Obligations.PendingError := by
  refine ⟨fun s t hb he hhard hsoft hclear h => ?_, fun s code he hc => ?_⟩
  · obtain ⟨herr, hcode, hcmdr, hbusy⟩ := step_errorKept hb he hhard hsoft hclear h
    exact ⟨herr.trans he, hcode, hcmdr, hbusy⟩
  · rw [memWrite_status, writeStatus_failedWith he hc]

end Sys2Proof.Machine
end

section
/-! PROOFS. What the host sees while a command is in flight (20_memory.md R59, R64 item 3). -/

namespace Sys2Proof.Machine

/-! ### Two machines the host cannot tell apart -/

/-- The invariant of two runs side by side: the machines are busy and differ in the data state at most; after a
reset they are one state. -/
def Alike (s t : State) : Prop := s = t ∨ (s.busy = true ∧ sameButData s t)

/-- Alike machines show the host the same. -/
theorem Alike.visible {s t : State} (h : Alike s t) : s.replies = t.replies ∧ s.busy = t.busy ∧ s.irq = t.irq := by
  rcases h with rfl | ⟨-, hd⟩
  · exact ⟨rfl, rfl, rfl⟩
  · rw [hd]
    exact ⟨rfl, rfl, rfl⟩

theorem Alike.inputs_eq {s t : State} (h : Alike s t) : t.inputs = s.inputs := by
  rcases h with rfl | ⟨-, hd⟩
  · rfl
  · rw [hd]

theorem alike_data {s : State} (hs : s.busy = true) (d : Data) : Alike s { s with data := d } := .inr ⟨hs, rfl⟩

theorem Alike.withInputs {s t : State} (h : Alike s t) (l : List Event) :
    Alike { s with inputs := l } { t with inputs := l } := by
  rcases h with rfl | ⟨hs, hd⟩
  · exact .inl rfl
  · rw [hd]
    exact alike_data (s := { s with inputs := l }) hs t.data

/-- A location that is not frozen holds none of the data state. -/
theorem readLocation_data {l : Location} (h : blockedWhileBusy l = false) (s : State) (d : Data) :
    readLocation { s with data := d } l = readLocation s l := by
  cases l with
  | id | cmd | status | errcode | ctrl => rfl
  | pinf | ctx | dat | field => cases h

/-! ### Actions of the environment -/

/-- Two answers to one access: the same reply, and machines that stay alike. -/
def AlikeAnswers (x y : State × Reply) : Prop := Alike x.1 y.1 ∧ x.2 = y.2

theorem AlikeAnswers.recordReply {x y : State × Reply} (h : AlikeAnswers x y) :
    Alike (recordReply x) (recordReply y) := by
  obtain ⟨s, r⟩ := x
  obtain ⟨t, q⟩ := y
  obtain ⟨hst | ⟨hs, hd⟩, rfl⟩ := h
  · obtain rfl : s = t := hst
    exact .inl rfl
  · rw [show t = { s with data := t.data } from hd]
    exact alike_data (s := { s with replies := r :: s.replies }) hs t.data

section
variable {s : State} (hs : s.busy = true) (d : Data)
include hs

theorem alikeAnswers_memRead_data (a : Int) (n : Nat) :
    AlikeAnswers (memRead a n s) (memRead a n { s with data := d }) := by
  cases hl : locate a n with
  | none =>
    rw [memRead_refused hl, memRead_refused hl]
    exact ⟨alike_data hs d, rfl⟩
  | some l =>
    cases hd : blockedWhileBusy l with
    | true =>
      rw [memRead_blocked hl hd hs, memRead_blocked (s := { s with data := d }) hl hd hs]
      exact ⟨alike_data (s := { s with hzd := true }) hs d, rfl⟩
    | false =>
      rw [memRead_open hl (.inl hd), memRead_open hl (.inl hd), readLocation_data hd s d]
      exact ⟨alike_data hs d, rfl⟩

theorem alike_writeStatus_data (v : Word) : Alike (writeStatus v s) (writeStatus v { s with data := d }) := by
  rw [writeStatus_eq, writeStatus_eq]
  exact .inr ⟨hs, rfl⟩

/-- A soft reset makes the machines one; otherwise `CTRL` takes the same `IE` in both. -/
theorem alike_writeCtrl_data (v : Word) : Alike (writeCtrl v s) (writeCtrl v { s with data := d }) := by
  cases hv : v.getLsbD 1 with
  | true =>
    rw [writeCtrl_softReset hv, writeCtrl_softReset hv]
    exact .inl rfl
  | false =>
    rw [writeCtrl_ie hv, writeCtrl_ie hv]
    exact .inr ⟨hs, rfl⟩

theorem alikeAnswers_memWrite_data (a : Int) (n : Nat) (v : Word) :
    AlikeAnswers (memWrite a n v s) (memWrite a n v { s with data := d }) := by
  cases hl : locate a n with
  | none =>
    rw [memWrite_refused hl, memWrite_refused hl]
    exact ⟨alike_data hs d, rfl⟩
  | some l =>
    cases hd : blockedWhileBusy l with
    | true =>
      rw [memWrite_blocked hl hd hs, memWrite_blocked (s := { s with data := d }) hl hd hs]
      exact ⟨alike_data (s := { s with hzd := true }) hs d, rfl⟩
    | false =>
      obtain ⟨rfl, rfl, -⟩ := locate_eq_some hl
      cases l with
      | id | errcode => exact ⟨alike_data hs d, rfl⟩
      | cmd =>
        refine ⟨?_, rfl⟩
        change Alike (submit v s) (submit v { s with data := d })
        rw [submit_dropped (.inl hs), submit_dropped (s := { s with data := d }) (.inl hs)]
        exact alike_data (s := { s with drop := true }) hs d
      | status => exact ⟨alike_writeStatus_data hs d v, rfl⟩
      | ctrl => exact ⟨alike_writeCtrl_data hs d v, rfl⟩
      | pinf | ctx | dat | field => cases hd

end

/-- Every action but a completion is answered, alike by alike machines. -/
theorem Alike.applyEvent {s t : State} (h : Alike s t) {e : Event} (he : e ≠ .complete) :
    ∃ u v, applyEvent e s = .next u ∧ applyEvent e t = .next v ∧ Alike u v := by
  rcases h with rfl | ⟨hs, hd⟩
  · obtain ⟨u, hu⟩ := applyEvent_next e s
    exact ⟨u, u, hu, hu, .inl rfl⟩
  · rw [hd]
    cases e with
    | read a n => exact ⟨_, _, rfl, rfl, (alikeAnswers_memRead_data hs t.data a n).recordReply⟩
    | write a n v => exact ⟨_, _, rfl, rfl, (alikeAnswers_memWrite_data hs t.data a n v).recordReply⟩
    | complete => exact absurd rfl he
    | hardReset => exact ⟨_, _, rfl, rfl, .inl rfl⟩

/-! ### The environment's list -/

@[simp] theorem writeStatus_inputs (v : Word) (s : State) : (writeStatus v s).inputs = s.inputs := by
  rw [writeStatus_eq]

@[simp] theorem writeCtrl_inputs (v : Word) (s : State) : (writeCtrl v s).inputs = s.inputs := by
  cases hv : v.getLsbD 1 with
  | true => rw [writeCtrl_softReset hv, resetCore_inputs]
  | false => rw [writeCtrl_ie hv]

@[simp] theorem submit_inputs (v : Word) (s : State) : (submit v s).inputs = s.inputs := by
  rcases submit_cases v s with ⟨-, -, h⟩ | ⟨-, h⟩ <;> rw [h]

theorem memRead_inputs (a : Int) (n : Nat) (s : State) : (memRead a n s).1.inputs = s.inputs := by
  rcases memRead_cases a n s with ⟨r, hr⟩ | ⟨-, hr⟩ <;> rw [hr]

theorem memWrite_inputs (a : Int) (n : Nat) (v : Word) (s : State) : (memWrite a n v s).1.inputs = s.inputs := by
  rcases memWrite_cases a n v s with hw | ⟨-, hw⟩ | ⟨-, hw⟩ | ⟨-, hw⟩ | ⟨-, hw⟩ | ⟨l, -, -, -, hw⟩ <;> simp [hw]

/-- An action of the environment other than a completion leaves the later ones. -/
theorem applyEvent_inputs {e : Event} (he : e ≠ .complete) {s t : State} (h : applyEvent e s = .next t) :
    t.inputs = s.inputs := by
  cases e with
  | read a n => cases h; exact memRead_inputs a n s
  | write a n v => cases h; exact memWrite_inputs a n v s
  | complete => exact absurd rfl he
  | hardReset => cases h; rfl

/-! ### Runs -/

/-- A run goes on from the state that its first step answers. -/
theorem core_run_succ {M : Host.Core} {s u : M.State} (h : M.step s = .next u) (k : Nat) :
    M.run (k + 1) s = M.run k u := by
  rw [Host.Core.run, h]

theorem run_succ {s u : State} (h : step s = .next u) (k : Nat) :
    Host.Core.run Sys2Proof.core (k + 1) s = Host.Core.run Sys2Proof.core k u :=
  core_run_succ (M := Sys2Proof.core) h k

/-- Alike machines stay alike over any actions without a completion. -/
theorem Alike.run {k : Nat} {s t : State} (h : Alike s t) (hk : k ≤ s.inputs.length)
    (he : ∀ e ∈ s.inputs.take k, e ≠ .complete) :
    ∃ u v, Host.Core.run Sys2Proof.core k s = .next u ∧ Host.Core.run Sys2Proof.core k t = .next v ∧ Alike u v := by
  induction k generalizing s t with
  | zero => exact ⟨s, t, rfl, rfl, h⟩
  | succ k ih =>
    cases hs : s.inputs with
    | nil => rw [hs] at hk; cases hk
    | cons e rest =>
      rw [hs, List.length_cons] at hk
      rw [hs, List.take_succ_cons, List.forall_mem_cons] at he
      obtain ⟨hfirst, hlater⟩ := he
      obtain ⟨u, v, hu, hv, huv⟩ := (h.withInputs rest).applyEvent hfirst
      have hrest : u.inputs = rest := applyEvent_inputs hfirst hu
      rw [run_succ ((step_of_input hs).trans hu), run_succ ((step_of_input (h.inputs_eq.trans hs)).trans hv)]
      exact ih huv (by rw [hrest]; omega) (by rwa [hrest])

/-- Settles O14: two busy machines that differ in the data state only are alike, and stay so. -/
theorem busyHidesData : Obligations.BusyHidesData := fun k s t hs hd hk he => by
  obtain ⟨u, v, hu, hv, huv⟩ := Alike.run (.inr ⟨hs, hd⟩) hk he
  exact ⟨u, v, hu, hv, huv.visible⟩

end Sys2Proof.Machine
end

section
/-! PROOFS. A command word as the list of its fields, and the two formats under a mask (30_encoding.md R81, R83). -/

namespace Sys2Proof

/-! ### A word and its fields -/

theorem nibble_crvField (w : Word) : nibble (crvField w) = w.extractLsb' 20 4 := rfl

theorem nibble_rdField (w : Word) : nibble (rdField w) = w.extractLsb' 12 4 := rfl

theorem nibble_raField (w : Word) : nibble (raField w) = w.extractLsb' 8 4 := rfl

theorem nibble_rbField (w : Word) : nibble (rbField w) = w.extractLsb' 4 4 := rfl

theorem nibble_rcField (w : Word) : nibble (rcField w) = w.extractLsb' 0 4 := rfl

/-- A word whose bit 16 is clear is the format P word of its fields. -/
theorem formatP_fields {w : Word} (h : w.getLsbD 16 = false) :
    formatP (opcField w) (nibble (crvField w)) (msField w) (w.getLsbD 18) (rkField w) (nibble (rdField w))
      (nibble (raField w)) (nibble (rbField w)) (nibble (rcField w)) = w := by
  simp only [nibble_crvField, nibble_rdField, nibble_raField, nibble_rbField, nibble_rcField, opcField, msField,
    rkField]
  rw [BitVec.getLsbD_eq_getElem (by decide)] at h
  ext i hi
  interval_cases i <;> simp [h]

/-- Every word is the format H word of its fields. -/
theorem formatH_fields (w : Word) : formatH (opcField w) (modeField w) (lenField w) = w := by
  ext i hi
  interval_cases i <;> simp [opcField, modeField, lenField]

/-- A four-bit field with bit 3 clear is the point register number in its low bits (30_encoding.md R81). -/
theorem extractLsb'_and_eight_iff (w : Word) (k : Nat) :
    w.extractLsb' k 4 &&& 8#4 = 0#4 ↔ w.extractLsb' k 4 = pointNibble (w.extractLsb' k 3).toFin := by
  have all : ∀ x : BitVec 4, x &&& 8#4 = 0#4 ↔ x = pointNibble (x.extractLsb' 0 3).toFin := by decide
  have low : (w.extractLsb' k 4).extractLsb' 0 3 = w.extractLsb' k 3 := by
    ext i hi
    simp [show i < 4 by omega]
  rw [all, low]

theorem rdField_and_eight_iff (w : Word) :
    nibble (rdField w) &&& 8#4 = 0#4 ↔ nibble (rdField w) = pointNibble (pdField w) := extractLsb'_and_eight_iff w 12

theorem raField_and_eight_iff (w : Word) :
    nibble (raField w) &&& 8#4 = 0#4 ↔ nibble (raField w) = pointNibble (paField w) := extractLsb'_and_eight_iff w 8

theorem rbField_and_eight_iff (w : Word) :
    nibble (rbField w) &&& 8#4 = 0#4 ↔ nibble (rbField w) = pointNibble (pbField w) := extractLsb'_and_eight_iff w 4

/-- The number of a point register leaves bit 3 of its field clear (30_encoding.md R83). -/
theorem pointNibble_and_eight (j : PReg) : pointNibble j &&& 8#4 = 0#4 := by
  revert j
  decide

/-! ### A word under a mask -/

theorem byte_and_ones (x : BitVec 8) : x &&& 255#8 = x := BitVec.and_allOnes

theorem nibble_and_ones (x : BitVec 4) : x &&& 15#4 = x := BitVec.and_allOnes

theorem half_and_ones (x : BitVec 16) : x &&& 65535#16 = x := BitVec.and_allOnes

/-- A mask on a format P word acts field by field. -/
theorem formatP_and (opc : BitVec 8) (crv : BitVec 4) (ms g rk : Bool) (rd ra rb rc : BitVec 4) (m : Word) :
    formatP opc crv ms g rk rd ra rb rc &&& m =
      formatP (opc &&& m.extractLsb' 24 8) (crv &&& m.extractLsb' 20 4) (ms && m.getLsbD 19) (g && m.getLsbD 18)
        (rk && m.getLsbD 17) (rd &&& m.extractLsb' 12 4) (ra &&& m.extractLsb' 8 4) (rb &&& m.extractLsb' 4 4)
        (rc &&& m.extractLsb' 0 4) := by
  ext i hi
  interval_cases i <;> simp

/-- A mask on a format H word acts field by field. -/
theorem formatH_and (opc mode : BitVec 8) (len : BitVec 16) (m : Word) :
    formatH opc mode len &&& m =
      formatH (opc &&& m.extractLsb' 24 8) (mode &&& m.extractLsb' 16 8) (len &&& m.extractLsb' 0 16) := by
  ext i hi
  interval_cases i <;> simp

/-- A bit that the mask covers is the match's. -/
theorem getLsbD_of_match {w m b : Word} (h : w &&& m = b) {k : Nat} (hk : m.getLsbD k = true) :
    w.getLsbD k = b.getLsbD k := by
  rw [← h, BitVec.getLsbD_and, hk, Bool.and_true]

/-- What a match says of the fields of format P. -/
theorem formatP_fields_of_match {w m b : Word} (h : w &&& m = b) :
    opcField w &&& m.extractLsb' 24 8 = b.extractLsb' 24 8 ∧
    nibble (crvField w) &&& m.extractLsb' 20 4 = b.extractLsb' 20 4 ∧
    (msField w && m.getLsbD 19) = b.getLsbD 19 ∧ (w.getLsbD 18 && m.getLsbD 18) = b.getLsbD 18 ∧
    (rkField w && m.getLsbD 17) = b.getLsbD 17 ∧ (w.getLsbD 16 && m.getLsbD 16) = b.getLsbD 16 ∧
    nibble (rdField w) &&& m.extractLsb' 12 4 = b.extractLsb' 12 4 ∧
    nibble (raField w) &&& m.extractLsb' 8 4 = b.extractLsb' 8 4 ∧
    nibble (rbField w) &&& m.extractLsb' 4 4 = b.extractLsb' 4 4 ∧
    nibble (rcField w) &&& m.extractLsb' 0 4 = b.extractLsb' 0 4 := by
  subst h
  exact ⟨BitVec.extractLsb'_and.symm, BitVec.extractLsb'_and.symm, BitVec.getLsbD_and.symm, BitVec.getLsbD_and.symm,
    BitVec.getLsbD_and.symm, BitVec.getLsbD_and.symm, BitVec.extractLsb'_and.symm, BitVec.extractLsb'_and.symm,
    BitVec.extractLsb'_and.symm, BitVec.extractLsb'_and.symm⟩

/-- What a match says of the fields of format H. -/
theorem formatH_fields_of_match {w m b : Word} (h : w &&& m = b) :
    opcField w &&& m.extractLsb' 24 8 = b.extractLsb' 24 8 ∧
    modeField w &&& m.extractLsb' 16 8 = b.extractLsb' 16 8 ∧
    lenField w &&& m.extractLsb' 0 16 = b.extractLsb' 0 16 := by
  subst h
  exact ⟨BitVec.extractLsb'_and.symm, BitVec.extractLsb'_and.symm, BitVec.extractLsb'_and.symm⟩

end Sys2Proof
end

section
/-! PROOFS. The opcode map row by row: a word that matches a row is the encoding of what the row reads from it, and the
decoder follows the rows (30_encoding.md R83, R85). -/

namespace Sys2Proof

/-! ### The rows -/

/-- The rows of the opcode map: mask, match, and the command that the fields of the word `w` name. -/
inductive MapRow (w : Word) : Word → Word → Instr → Prop where
  | nop : MapRow w 0xFFFFFFFF 0x00000000 .nop
  | zeroize : MapRow w 0xFFFFFFFF 0x01000000 .zeroize
  | fadd : MapRow w 0xFF07000F 0x10000000 (.fadd (crvField w) (msField w) (rdField w) (raField w) (rbField w))
  | fsub : MapRow w 0xFF07000F 0x11000000 (.fsub (crvField w) (msField w) (rdField w) (raField w) (rbField w))
  | fneg : MapRow w 0xFF0700FF 0x12000000 (.fneg (crvField w) (msField w) (rdField w) (raField w))
  | fmul : MapRow w 0xFF07000F 0x13000000 (.fmul (crvField w) (msField w) (rdField w) (raField w) (rbField w))
  | fsqr : MapRow w 0xFF0700FF 0x14000000 (.fsqr (crvField w) (msField w) (rdField w) (raField w))
  | montmul : MapRow w 0xFF07000F 0x15000000 (.montmul (crvField w) (msField w) (rdField w) (raField w) (rbField w))
  | tomont : MapRow w 0xFF0700FF 0x16000000 (.tomont (crvField w) (msField w) (rdField w) (raField w))
  | frommont : MapRow w 0xFF0700FF 0x17000000 (.frommont (crvField w) (msField w) (rdField w) (raField w))
  | finv : MapRow w 0xFF0700FF 0x18000000 (.finv (crvField w) (msField w) (rdField w) (raField w))
  | fpow : MapRow w 0xFF07000F 0x19000000 (.fpow (crvField w) (msField w) (rdField w) (raField w) (rbField w))
  | fred : MapRow w 0xFF0700FF 0x1A000000 (.fred (crvField w) (msField w) (rdField w) (raField w))
  | fmov : MapRow w 0xFFFF00FF 0x1B000000 (.fmov (rdField w) (raField w))
  | fldc : MapRow w 0xFF070FF0 0x1C000000 (.fldc (crvField w) (msField w) (rdField w) (rcField w))
  | pchk : MapRow w 0xFF0FF8FF 0x20000000 (.pchk (crvField w) (paField w))
  | padd : MapRow w 0xFF0F888F 0x21000000 (.padd (crvField w) (pdField w) (paField w) (pbField w))
  | pdbl : MapRow w 0xFF0F88FF 0x22000000 (.pdbl (crvField w) (pdField w) (paField w))
  | pldc : MapRow w 0xFF0F8FF0 0x23000000 (.pldc (crvField w) (pdField w) (rcField w))
  | smul : MapRow w 0xFF0D880F 0x28000000 (.smul (crvField w) (rkField w) (pdField w) (paField w) (rbField w))
  | smulG : MapRow w 0xFF0D8F0F 0x28040000 (.smulG (crvField w) (rkField w) (pdField w) (rbField w))
  | smulx : MapRow w 0xFF0D000F 0x29000000 (.smulx (crvField w) (rkField w) (rdField w) (raField w) (rbField w))
  | smulxG : MapRow w 0xFF0D0F0F 0x29040000 (.smulxG (crvField w) (rkField w) (rdField w) (rbField w))
  | keccakp : MapRow w 0xFF00FFFF 0x40000000 (.keccakp (modeField w))
  | spinit : MapRow w 0xFF000000 0x41000000 (.spinit (modeField w) (lenField w))
  | spabs : MapRow w 0xFFFF0000 0x42000000 (.spabs (lenField w))
  | spfin : MapRow w 0xFFFFFFFF 0x43000000 .spfin
  | spsqz : MapRow w 0xFFFF0000 0x44000000 (.spsqz (lenField w))
  | spdig : MapRow w 0xFFFFFFFF 0x45000000 .spdig
  | b2init : MapRow w 0xFF00FFFF 0x50000000 (.b2init (modeField w))
  | b2comp : MapRow w 0xFFFE0000 0x51000000 (.b2comp (w.getLsbD 16) (lenField w))
  | ghmul : MapRow w 0xFFFF0000 0x58000000 (.ghmul (lenField w))
  | sipinit : MapRow w 0xFF00FFFF 0x60000000 (.sipinit (modeField w))
  | sipblk : MapRow w 0xFFFF0000 0x61000000 (.sipblk (lenField w))
  | sipfin : MapRow w 0xFFFF0000 0x62000000 (.sipfin (lenField w))

/-- The word matches a row that names `i` (30_encoding.md R83). -/
def MatchesRow (w : Word) (i : Instr) : Prop := ∃ m b, MapRow w m b i ∧ w &&& m = b

/-- `MODE` of B2COMP holds `FINAL` in bit 0 and nothing else (45_blake2.md R257). -/
theorem modeField_and_iff (w : Word) :
    modeField w &&& 254#8 = 0#8 ↔ modeField w = 0#7 ++ BitVec.ofBool (w.getLsbD 16) := by
  have all : ∀ x : BitVec 8, x &&& 254#8 = 0#8 ↔ x = 0#7 ++ BitVec.ofBool (x.getLsbD 0) := by decide
  rw [all, show (modeField w).getLsbD 0 = w.getLsbD 16 from BitVec.getLsbD_extractLsb' ..]

/-- No bit of a matching word is ignored: it is the encoding of the command that it names (30_encoding.md R83). -/
theorem MapRow.encode_eq {w m b : Word} {i : Instr} (hr : MapRow w m b i) (h : w &&& m = b) : encode i = w := by
  cases hr with
  | nop | zeroize | fadd | fsub | fneg | fmul | fsqr | montmul | tomont | frommont | finv | fpow | fred | fmov | fldc
  | pchk | padd | pdbl | pldc | smul | smulG | smulx | smulxG =>
    have fields := formatP_fields_of_match h
    simp [byte_and_ones, nibble_and_ones, rdField_and_eight_iff, raField_and_eight_iff, rbField_and_eight_iff] at fields
    refine Eq.trans ?_ (formatP_fields (w := w) (by simp [fields]))
    simp [encode, fields]
  | keccakp | spinit | spabs | spfin | spsqz | spdig | b2init | b2comp | ghmul | sipinit | sipblk | sipfin =>
    have fields := formatH_fields_of_match h
    simp [byte_and_ones, half_and_ones, modeField_and_iff] at fields
    refine Eq.trans ?_ (formatH_fields w)
    simp [encode, fields]

theorem MatchesRow.encode_eq {w : Word} {i : Instr} (h : MatchesRow w i) : encode i = w := by
  obtain ⟨m, b, hr, hm⟩ := h
  exact hr.encode_eq hm

end Sys2Proof
end

section
/-! PROOFS. The decoder follows the rows of the opcode map, and the encoder undoes it (30_encoding.md R83, R85). -/

namespace Sys2Proof

/-! ### Presets -/

/-- SPINIT with a preset and `LEN` other than 0: a row matches, and the word spells no command
(30_encoding.md R85). -/
def PresetWithLength (w : Word) : Prop := opcField w = 0x41 ∧ (modeField w).toNat ≤ 9 ∧ lenField w ≠ 0

/-- SPINIT has its own test after the operation code. -/
theorem decode_spinit {w : Word} (h : opcField w = 0x41) : decode w = decodeSpinit (modeField w) (lenField w) := by
  simp [decode, h]

theorem decode_presetWithLength {w : Word} (h : PresetWithLength w) : decode w = .error .presetLength := by
  obtain ⟨hopc, hpreset⟩ := h
  exact (decode_spinit hopc).trans (if_pos hpreset)

/-- An instruction is well-formed unless its word is a preset with a length. -/
theorem wellFormed_iff (i : Instr) : i.wellFormed = true ↔ ¬PresetWithLength (encode i) := by
  cases i with
  | spinit mode len =>
    simp only [Instr.wellFormed, decide_eq_true_eq, PresetWithLength, encode, opcField_formatH, modeField_formatH,
      lenField_formatH, true_and, not_and, not_not]
  | _ => simp [Instr.wellFormed, PresetWithLength, encode]

/-! ### The decoder -/

theorem decodeRow_eq_ok_iff {w m b : Word} {i j : Instr} : decodeRow w m b i = .ok j ↔ w &&& m = b ∧ i = j := by
  unfold decodeRow
  split <;> simp [*]

theorem decodeSpinit_eq_ok {mode : BitVec 8} {len : BitVec 16} {i : Instr} (h : decodeSpinit mode len = .ok i) :
    .spinit mode len = i := by
  unfold decodeSpinit at h
  split at h
  · cases h
  · exact Except.ok.inj h

/-- The bits under SPINIT's mask are the operation code. -/
theorem and_opcodeMask (w : Word) : w &&& 0xFF000000 = formatH (opcField w) 0 0 := by
  conv_lhs => rw [← formatH_fields w, formatH_and]
  simp [byte_and_ones]

/-- The decoder answers only what a row names. -/
theorem matchesRow_of_decode {w : Word} {i : Instr} (h : decode w = .ok i) : MatchesRow w i := by
  unfold decode at h
  split at h
  -- The operation codes of SMUL and SMULX have two rows each, told apart by `G`.
  case h_20 | h_21 =>
    split at h
    · next hm =>
      cases h
      exact ⟨_, _, by constructor, hm⟩
    · obtain ⟨hm, rfl⟩ := decodeRow_eq_ok_iff.1 h
      exact ⟨_, _, by constructor, hm⟩
  -- SPINIT's row is its operation code alone.
  case h_23 hopc =>
    obtain rfl := decodeSpinit_eq_ok h
    refine ⟨_, _, .spinit, ?_⟩
    rw [and_opcodeMask, BitVec.eq_of_toNat_eq (y := 0x41#8) hopc]
    rfl
  case h_34 => cases h
  all_goals
    obtain ⟨hm, rfl⟩ := decodeRow_eq_ok_iff.1 h
    exact ⟨_, _, by constructor, hm⟩

/-! ### Round trips -/

/-- A word of format P with `G` set matches no row that asks for `G` clear. -/
theorem formatP_and_ne {m b : Word} (hm : m.getLsbD 18 = true) (hb : b.getLsbD 18 = false) (opc : BitVec 8)
    (crv : BitVec 4) (ms rk : Bool) (rd ra rb rc : BitVec 4) : formatP opc crv ms true rk rd ra rb rc &&& m ≠ b := by
  intro h
  have hg := getLsbD_of_match h hm
  rw [formatP_getLsbD _ _ _ _ _ _ _ _ _ _ (by decide), hb] at hg
  cases hg

/-- `FINAL` is all that `MODE` of B2COMP holds (45_blake2.md R257). -/
theorem finalMode (final : Bool) :
    (0#7 ++ BitVec.ofBool final) &&& 254#8 = 0#8 ∧ (0#7 ++ BitVec.ofBool final)[0] = final := by
  cases final <;> decide

/-- Settles O6, by cases on the instruction: its word has its operation code, gives back each field, and matches its
row; under the row's mask only the operation code, and `G` where it is set, is left of it. -/
theorem decodeEncode : Obligations.DecodeEncode := by
  intro i hi
  cases i with
  | nop | zeroize => rfl
  | fadd | fsub | fmul | montmul | fpow | fneg | fsqr | tomont | frommont | finv | fred | fmov | fldc
  | padd | pdbl | pchk | pldc | smul | smulx =>
    simp [decode, encode, decodeRow_eq_ok_iff, formatP_and, pointNibble_and_eight]
    rfl
  | smulG | smulxG =>
    simp [decode, encode, decodeRow_eq_ok_iff, formatP_and_ne]
    simp [formatP_and, pointNibble_and_eight]
    rfl
  | keccakp | spabs | spfin | spsqz | spdig | b2init | b2comp | ghmul | sipinit | sipblk | sipfin =>
    simp [decode, encode, decodeRow_eq_ok_iff, formatH_and, finalMode]
    rfl
  | spinit mode len =>
    simp only [Instr.wellFormed, decide_eq_true_eq] at hi
    rw [encode, decode_spinit (opcField_formatH ..), modeField_formatH, lenField_formatH]
    exact if_neg fun hp => hp.2 (hi hp.1)

/-- Settles O7: the word matches the row of `i`, so it is the encoding of `i`. -/
theorem encodeDecode : Obligations.EncodeDecode := fun w i h => by
  have henc : encode i = w := (matchesRow_of_decode h).encode_eq
  refine ⟨(wellFormed_iff i).2 fun hp => ?_, henc⟩
  rw [henc] at hp
  cases h.symm.trans (decode_presetWithLength hp)

/-- A word decodes exactly when it matches a row and is no preset with a length (30_encoding.md R83, R85). -/
theorem decodes_iff (w : Word) :
    (∃ i, decode w = .ok i) ↔ (∃ i, MatchesRow w i) ∧ ¬PresetWithLength w := by
  constructor
  · rintro ⟨i, h⟩
    exact ⟨⟨i, matchesRow_of_decode h⟩, fun hp => by cases h.symm.trans (decode_presetWithLength hp)⟩
  · rintro ⟨⟨i, hi⟩, hp⟩
    rw [← hi.encode_eq] at hp ⊢
    exact ⟨i, decodeEncode i ((wellFormed_iff i).2 hp)⟩

/-- Settles O8: the printed pairs are the rows. -/
theorem decodeByMask : Obligations.DecodeByMask := fun w => by
  rw [decodes_iff]
  refine and_congr_left fun _ => ⟨?_, ?_⟩
  · rintro ⟨i, m, b, hr, hm⟩
    exact ⟨(m, b), by cases hr <;> decide, hm⟩
  · rintro ⟨r, hr, hm⟩
    fin_cases hr <;> exact ⟨_, _, _, by constructor, hm⟩

/-- A word that is the encoding of a well-formed instruction decodes to it. -/
theorem decode_of_encode_eq {i : Instr} {w : Word} (hw : encode i = w) (hi : i.wellFormed = true) :
    decode w = .ok i := by
  rw [← hw, decodeEncode i hi]

/-- Settles O9: each printed word is the encoding of the command beside it; operation code 0xFF is unassigned. -/
theorem sampleWords : Obligations.SampleWords := by
  have unassigned : decode 0xFFFFFFFF = .error .unassignedOpcode := rfl
  refine ⟨?_, ?_, ?_, ?_, ?_, ?_, ?_, ?_, ?_, ?_, ?_, ?_, fun i h => by cases h.symm.trans unassigned⟩ <;>
    exact decode_of_encode_eq rfl rfl

end Sys2Proof
end

section
/-! PROOFS. Reserved values of the fields: the command fails with `InvalidParameter`, whatever the state
(30_encoding.md R86, 60_exceptions.md R318 step 2). -/

namespace Sys2Proof.Machine

/-! ### A chain of checks that begins with a reserved value -/

/-- A rule whose first check fails ends with that check's error. -/
theorem completeCommand_bind_error {α : Type} {x : Except Failure α} {f : Failure} (h : x = .error f) (s : State)
    (g : α → Except Failure Data) :
    completeCommand s (x >>= g) = .next (failedWith s (errorCode (failureKind f))) := by
  rw [h]
  rfl

/-- A command that finds its curve and then fails for any curve with a reserved value fails with code 5 whatever
`CRV` is. -/
theorem completeCommand_curve_reserved {crv : CrvField} {g : CurveParams → Except Failure Data}
    (h : ∀ c, curveAt crv = some c → g c = .error .reservedValue) (s : State) :
    completeCommand s (curveOf crv >>= g) = .next (failedWith s 5) := by
  cases hc : curveAt crv with
  | none => rw [curveOf_reserved ((curveAt_eq_none_iff crv).1 hc)]; rfl
  | some c => rw [curveOf_ok hc, exceptBind_ok, h c hc]; rfl

/-! ### The reserved values of the other fields -/

/-- Only Montgomery curves have a ladder constant (43_scalar.md R195). -/
theorem ladderConstant_error {c : CurveParams} (h : ∀ a24, c.fam ≠ .montgomery a24) :
    ladderConstant c = .error .reservedValue := by
  unfold ladderConstant
  split
  · next a24 hf => exact absurd hf (h a24)
  · rfl
  · rfl

/-- FLDC's selectors 12 to 15 name nothing (40_field.md R126). -/
theorem fieldConstant_reserved {rc : RcField} (h : 12 ≤ rc.val) (c : CurveParams) (ms : Bool) :
    fieldConstant c ms rc = none := by
  unfold fieldConstant
  split
  case h_13 => rfl
  all_goals omega

/-- PLDC's selectors 2 to 15 name nothing (42_point.md R174). -/
theorem constantPoint_reserved {rc : RcField} (h : 2 ≤ rc.val) (c : CurveParams) : constantPoint c rc = none := by
  unfold constantPoint
  split
  case h_3 => rfl
  all_goals omega

/-- SPINIT modes above 10 name no configuration (44_keccak.md R221). -/
theorem spinitConfig_reserved {mode : BitVec 8} (h : 10 < mode.toNat) (len : BitVec 16) :
    spinitConfig mode len = .error .reservedValue := by
  have hpreset : spongePreset mode = none := by
    unfold spongePreset
    split
    case h_11 => rfl
    all_goals omega
  have hraw : mode ≠ 10 := fun he => by
    rw [he] at h
    exact absurd h (by decide)
  rw [spinitConfig, hpreset]
  exact if_neg hraw

/-- A RAW configuration whose rate is no multiple of 8 from 8 to 192, or whose suffix is 0, is refused
(44_keccak.md R222). -/
theorem rawConfig_reserved {len : BitVec 16}
    (h : len.toNat % 256 % 8 ≠ 0 ∨ len.toNat % 256 < 8 ∨ 192 < len.toNat % 256 ∨ len.toNat / 256 % 128 = 0) :
    rawConfig len = .error .reservedValue := by
  have hrate : (len.extractLsb' 0 8).toNat = len.toNat % 256 := by
    rw [BitVec.extractLsb'_toNat, Nat.shiftRight_zero]
  by_cases hr : (len.extractLsb' 0 8).toNat % 8 = 0 ∧ 8 ≤ (len.extractLsb' 0 8).toNat ∧
      (len.extractLsb' 0 8).toNat ≤ 192
  · have hsuffix : len.extractLsb' 8 7 = 0#7 := BitVec.eq_of_toNat_eq (by
      rw [BitVec.extractLsb'_toNat, Nat.shiftRight_eq_div_pow]
      change len.toNat / 256 % 128 = 0
      omega)
    simp only [rawConfig, require_true _ hr, hsuffix, exceptBind_ok]
    rfl
  · simp only [rawConfig, require_false _ hr, exceptBind_error]

/-- Settles O31: in each command the check of the reserved field comes first, after the curve where there is one. -/
theorem reservedValues : Obligations.ReservedValues := by
  refine ⟨fun s crv ms rk rd ra rb rc pd pa pb hc i hi => ?_, fun s crv c rk rd ra rb hc hfam => ?_,
    fun s crv ms rd rc hrc => ?_, fun s crv pd rc hrc => ?_, fun s mode h12 h24 => ?_, fun s mode len hmode => ?_,
    fun s len hlen => ?_, fun s mode hmode => ⟨?_, ?_⟩⟩
  · fin_cases hi <;> exact completeCommand_bind_error (curveOf_reserved hc) s _
  · have hladder : ∀ c', curveAt crv = some c' → ladderConstant c' = .error .reservedValue := fun c' hc' => by
      cases hc.symm.trans hc'
      exact ladderConstant_error hfam
    intro i hi
    fin_cases hi <;>
      exact completeCommand_curve_reserved (fun c' hc' => by rw [hladder c' hc', exceptBind_error]) s
  · exact completeCommand_curve_reserved (fun c _ => by rw [fieldConstant_reserved hrc]; rfl) s
  · exact completeCommand_curve_reserved (fun c _ => by rw [constantPoint_reserved hrc]; rfl) s
  · exact completeCommand_bind_error (require_false _ (not_or.2 ⟨h12, h24⟩)) s _
  · exact completeCommand_bind_error (spinitConfig_reserved hmode len) s _
  · exact completeCommand_bind_error (rawConfig_reserved hlen) s _
  · exact completeCommand_bind_error (require_false _ (by omega)) s _
  · exact completeCommand_bind_error (require_false _ (by omega)) s _

end Sys2Proof.Machine
end

section
/-! PROOFS. The residues that the field commands compute (40_field.md R115 to R128). -/

namespace Sys2Proof.Machine

variable {m a b : Nat}

/-- A sum of residues needs at most one subtraction of the modulus (40_field.md R115). -/
theorem add_mod_eq_sub (ha : a < m) (hb : b < m) : (a + b) % m = if m ≤ a + b then a + b - m else a + b := by
  rw [Nat.add_mod_eq_ite, Nat.mod_eq_of_lt ha, Nat.mod_eq_of_lt hb]

/-- A difference of residues needs at most one addition of the modulus (40_field.md R116). -/
theorem imod_sub_eq (ha : a < m) (hb : b < m) : imod ((a : Int) - b) m = if a < b then a + m - b else a - b := by
  split
  · next hlt =>
    have hshift : (a : Int) - b ≡ ((a + m - b : Nat) : Int) [ZMOD m] := by
      rw [show ((a + m - b : Nat) : Int) = (a : Int) - b + m by omega]
      exact (Int.add_modEq_right).symm
    rw [imod_congr hshift, imod_natCast, Nat.mod_eq_of_lt (by omega)]
  · next hle =>
    rw [show (a : Int) - b = ((a - b : Nat) : Int) by omega, imod_natCast, Nat.mod_eq_of_lt (by omega)]

/-- A negation is the difference from 0 (40_field.md R117). -/
theorem imod_neg_eq (ha : a < m) : imod (0 - (a : Int)) m = if a = 0 then 0 else m - a := by
  have h : imod (0 - (a : Int)) m = _ := imod_sub_eq (a := 0) (by omega) ha
  rw [h]
  split <;> split <;> omega

/-- The factor `inv(R mod m, m)` is undone by a product with `R` (40_field.md R122, R128). -/
theorem mul_invMod_mod_mul {r : Nat} (hm : 1 < m) (hw : m < 2 ^ 576) (hr : Nat.Coprime (r % m) m) (x : Nat) :
    x * invMod (r % m) m % m * r % m = x % m := by
  have hinv : r * invMod (r % m) m ≡ 1 [MOD m] := by
    have h := mul_invMod hm hw hr
    rw [Nat.mod_mul_mod] at h
    rw [Nat.ModEq, h, Nat.mod_eq_of_lt hm]
  calc x * invMod (r % m) m % m * r % m = x * (r * invMod (r % m) m) % m := by
        rw [Nat.mod_mul_mod]; ring_nf
    _ = x * 1 % m := hinv.mul_left x
    _ = x % m := by rw [Nat.mul_one]

/-- An inverse is not 0 (40_field.md R123). -/
theorem invMod_pos (hm : 1 < m) (hw : m < 2 ^ 576) (hc : Nat.Coprime a m) : 1 ≤ invMod a m := by
  by_contra h0
  have h := mul_invMod hm hw hc
  rw [show invMod a m = 0 by omega, Nat.mul_zero, Nat.zero_mod] at h
  omega

end Sys2Proof.Machine
end

section
/-! PROOFS. The field commands: what each writes to `F[RD]`, and what each refuses (40_field.md R111 to R131). -/

namespace Sys2Proof.Machine

/-! ### A command that writes one field register -/

/-- Outcome `o` is a completion of `s` without error that leaves `v` in `F[rd]` and changes nothing else of the data
state. -/
def StoresField (s : State) (rd : FReg) (v : Nat) (o : Host.Outcome State Fault Refusal) : Prop :=
  ∃ t, o = .next t ∧ completes s t ∧ readField t.data rd = v ∧ onlyField rd s.data t.data

theorem storesField_writeField {v : Nat} (hv : v < 2 ^ 576) (s : State) (rd : FReg) :
    StoresField s rd v (.next (finishedWith s (writeField rd v s.data))) :=
  ⟨_, rfl, completes_finishedWith s _, readField_writeField_of_lt hv rd s.data, onlyField_writeField rd v s.data⟩

section Accepted

variable {crv : CrvField} {c : CurveParams} (hc : curveAt crv = some c) {s : State} {ms : Bool} {rd ra rb : FReg}
  {i : Instr} {v : Nat}
include hc

theorem modulusOf_pos : 0 < modulusOf c ms := by
  have := (modulusOf_bounds hc ms).1
  omega

theorem mod_modulusOf_lt (x : Nat) : x % modulusOf c ms < modulusOf c ms := Nat.mod_lt x (modulusOf_pos hc)

theorem one_lt_modulusOf : 1 < modulusOf c ms := by
  have := (modulusOf_bounds hc ms).1
  omega

theorem modulusOf_lt : modulusOf c ms < 2 ^ 576 := (modulusOf_bounds hc ms).2.1

/-- A one-source command with an accepted operand writes the residue that its rule gives (40_field.md R112, R131). -/
theorem storesField_unary (ha : readField s.data ra < modulusOf c ms) {rule : CurveParams → Nat → Except Failure Nat}
    (hi : exec i s = fieldUnary crv rd ra s ms rule) (hrule : rule c (readField s.data ra) = .ok v)
    (hv : v < modulusOf c ms) : StoresField s rd v (exec i s) := by
  rw [hi, fieldUnary_ok hc ha, hrule]
  exact storesField_writeField (hv.trans (modulusOf_lt hc)) s rd

/-- A two-source command with accepted operands writes the residue that its rule gives (40_field.md R112, R131). -/
theorem storesField_binary (ha : readField s.data ra < modulusOf c ms) (hb : readField s.data rb < modulusOf c ms)
    {rule : CurveParams → Nat → Nat → Nat} (hi : exec i s = fieldBinary crv rd ra rb s ms rule)
    (hrule : rule c (readField s.data ra) (readField s.data rb) = v) (hv : v < modulusOf c ms) :
    StoresField s rd v (exec i s) := by
  rw [hi, fieldBinary_ok hc ha hb, hrule]
  exact storesField_writeField (hv.trans (modulusOf_lt hc)) s rd

end Accepted

/-- Settles O24: each rule's value is the residue of the statement. -/
theorem fieldArithmetic : Obligations.FieldArithmetic := by
  intro s crv c ms rd ra rb m a b hc hm ha hb ham
  obtain rfl : m = modulusOf c ms := hm
  subst ha hb
  refine ⟨fun hbm => ?_, fun hbm => ?_, ?_, fun hbm => ?_, ?_⟩
  · exact storesField_binary hc ham hbm rfl (add_mod_eq_sub ham hbm) (by split <;> omega)
  · exact storesField_binary hc ham hbm rfl (imod_sub_eq ham hbm) (by split <;> omega)
  · exact storesField_unary hc ham rfl (congrArg Except.ok (imod_neg_eq ham)) (by split <;> omega)
  · exact storesField_binary hc ham hbm rfl rfl (mod_modulusOf_lt hc _)
  · exact storesField_unary hc ham rfl (by rw [Nat.pow_two]) (mod_modulusOf_lt hc _)

/-- Settles O25: a product with `R` undoes the factor `inv(R mod m, m)`. -/
theorem fieldMontgomery : Obligations.FieldMontgomery := by
  intro s crv c ms rd ra rb m r a b hc hm hr ha hb ham
  obtain rfl : m = modulusOf c ms := hm
  obtain rfl : r = radixOf c := hr
  subst ha hb
  have hundo := mul_invMod_mod_mul (one_lt_modulusOf hc) (modulusOf_lt hc) (radix_coprime hc ms)
  refine ⟨fun hbm => ?_, ?_, ?_⟩
  · obtain ⟨t, ht, hdone, hv, honly⟩ := storesField_binary hc (i := .montmul crv ms rd ra rb) ham hbm rfl rfl
      (mod_modulusOf_lt hc _)
    exact ⟨t, ht, hdone, hv ▸ mod_modulusOf_lt hc _, hv ▸ hundo _, honly⟩
  · exact storesField_unary hc ham rfl rfl (mod_modulusOf_lt hc _)
  · obtain ⟨t, ht, hdone, hv, honly⟩ := storesField_unary hc (i := .frommont crv ms rd ra) ham rfl rfl
      (mod_modulusOf_lt hc _)
    exact ⟨t, ht, hdone, hv ▸ mod_modulusOf_lt hc _, hv ▸ (hundo _).trans (Nat.mod_eq_of_lt ham), honly⟩

/-- Settles O26: the operand passes the check for 0, and the Euclidean loop gives the inverse where there is one. -/
theorem fieldInverse : Obligations.FieldInverse := by
  intro s crv c ms rd ra m a hc hm ha ham h0
  obtain rfl : m = modulusOf c ms := hm
  subst ha
  have hm1 : 1 < modulusOf c ms := one_lt_modulusOf hc
  have hw : modulusOf c ms < 2 ^ 576 := modulusOf_lt hc
  have hlt := invMod_lt (readField s.data ra) hm1 hw
  obtain ⟨t, ht, hdone, hv, honly⟩ := storesField_unary hc (i := .finv crv ms rd ra) ham rfl
    (by rw [require_true _ h0]; rfl) hlt
  refine ⟨t, ht, hdone, ?_, ?_, honly⟩ <;> rw [hv]
  · exact hlt
  · exact fun hco => ⟨invMod_pos hm1 hw hco, mul_invMod hm1 hw hco⟩

/-- Settles O27: square and multiply over 576 bits covers every exponent that a register holds. -/
theorem fieldPower : Obligations.FieldPower := by
  intro s crv c ms rd ra rb m a hc hm ha ham
  obtain rfl : m = modulusOf c ms := hm
  subst ha
  exact storesField_unary hc ham rfl (congrArg Except.ok (powMod_eq _ _ (readField_lt s.data rb)))
    (mod_modulusOf_lt hc _)

/-! ### Moves and constants -/

/-- FRED needs a curve and nothing else (40_field.md R125). -/
theorem exec_fred {crv : CrvField} {c : CurveParams} (hc : curveAt crv = some c) (ms : Bool) (rd ra : FReg) (s : State) :
    exec (.fred crv ms rd ra) s =
      .next (finishedWith s (writeField rd (readField s.data ra % modulusOf c ms) s.data)) := by
  change completeCommand s (curveOf crv >>= _) = _
  rw [curveOf_ok hc]
  rfl

/-- FLDC needs a curve and a selector that names a constant (40_field.md R126). -/
theorem exec_fldc {crv : CrvField} {c : CurveParams} (hc : curveAt crv = some c) {ms : Bool} {rc : RcField} {v : Nat}
    (hv : fieldConstant c ms rc = some v) (rd : FReg) (s : State) :
    exec (.fldc crv ms rd rc) s = .next (finishedWith s (writeField rd v s.data)) := by
  change completeCommand s (curveOf crv >>= _) = _
  rw [curveOf_ok hc, exceptBind_ok, hv]
  rfl

/-- Settles O28: a residue is below `2^576`, and a register value reads back as it is. -/
theorem fieldMoves : Obligations.FieldMoves := by
  refine fun s rd ra => ⟨fun crv c ms hc => ?_, ?_⟩
  · rw [exec_fred hc]
    exact storesField_writeField ((mod_modulusOf_lt hc _).trans (modulusOf_lt hc)) s rd
  · obtain ⟨t, ht, hdone, hv, honly⟩ := storesField_writeField (readField_lt s.data ra) s rd
    exact ⟨t, ht, hdone, BitVec.eq_of_toNat_eq hv, honly⟩

/-- Every number of the ROM fits a field register (41_curves.md R141 to R148). -/
theorem curveAt_fits {crv : CrvField} {c : CurveParams} (h : curveAt crv = some c) :
    c.p < 2 ^ 576 ∧ c.ca < 2 ^ 576 ∧ c.cb < 2 ^ 576 ∧ c.gx < 2 ^ 576 ∧ c.gy < 2 ^ 576 ∧ c.n < 2 ^ 576 ∧
      c.h < 2 ^ 576 := by
  have all : ∀ row ∈ curveRows, row.2.p < 2 ^ 576 ∧ row.2.ca < 2 ^ 576 ∧ row.2.cb < 2 ^ 576 ∧ row.2.gx < 2 ^ 576 ∧
      row.2.gy < 2 ^ 576 ∧ row.2.n < 2 ^ 576 ∧ row.2.h < 2 ^ 576 := by decide +kernel
  exact all _ (curveAt_eq_some_iff.1 h)

/-- Settles O29: the selectors name the constants in the order of the list, and each fits a field register. -/
theorem fieldConstants : Obligations.FieldConstants := by
  intro s crv c ms rd m r hc hm hr x hx
  obtain rfl : m = modulusOf c ms := hm
  obtain rfl : r = radixOf c := hr
  obtain ⟨hp, hca, hcb, hgx, hgy, hn, hh⟩ := curveAt_fits hc
  have hconst : fieldConstant c ms x.1 = some x.2 ∧ x.2 < 2 ^ 576 := by
    fin_cases hx
    · exact ⟨rfl, Nat.zero_lt_of_lt hn⟩
    · exact ⟨rfl, (one_lt_modulusOf hc (ms := ms)).trans (modulusOf_lt hc)⟩
    · exact ⟨rfl, modulusOf_lt hc⟩
    · exact ⟨rfl, (mod_modulusOf_lt hc _).trans (modulusOf_lt hc)⟩
    · exact ⟨rfl, (mod_modulusOf_lt hc _).trans (modulusOf_lt hc)⟩
    · exact ⟨rfl, hca⟩
    · exact ⟨rfl, hcb⟩
    · exact ⟨rfl, hgx⟩
    · exact ⟨rfl, hgy⟩
    · exact ⟨rfl, hn⟩
    · exact ⟨rfl, hp⟩
    · exact ⟨rfl, hh⟩
  rw [exec_fldc hc hconst.1]
  exact storesField_writeField hconst.2 s rd

/-! ### Refused operands -/

section Refused

variable {crv : CrvField} {c : CurveParams} (hc : curveAt crv = some c) {s : State} {ms : Bool} {ra rb : FReg}
include hc

/-- Curve, then `RA`: an operand that is no residue ends the command, whatever comes after (40_field.md R112, R113). -/
theorem completeCommand_operandA_error (ha : modulusOf c ms ≤ readField s.data ra)
    (g : CurveParams → Nat → Except Failure Data) :
    completeCommand s (curveOf crv >>= fun c => felt s.data (modulusOf c ms) ra .operandA >>= g c) =
      .next (failedWith s 4) := by
  rw [curveOf_ok hc, exceptBind_ok]
  exact completeCommand_bind_error (felt_error _ ha) s _

/-- Curve, `RA`, then `RB`: the second operand is looked at once the first has passed (40_field.md R112, R113). -/
theorem completeCommand_operandB_error (ha : readField s.data ra < modulusOf c ms)
    (hb : modulusOf c ms ≤ readField s.data rb) (g : CurveParams → Nat → Nat → Except Failure Data) :
    completeCommand s (curveOf crv >>= fun c => felt s.data (modulusOf c ms) ra .operandA >>= fun a =>
      felt s.data (modulusOf c ms) rb .operandB >>= g c a) = .next (failedWith s 4) := by
  rw [curveOf_ok hc, exceptBind_ok, felt_ok _ ha, exceptBind_ok]
  exact completeCommand_bind_error (felt_error _ hb) s _

/-- 0 is a residue, so it passes the operand check, and has no inverse (40_field.md R123). -/
theorem exec_finv_zero (h0 : readField s.data ra = 0) (rd : FReg) :
    exec (.finv crv ms rd ra) s = .next (failedWith s 4) := by
  have ha : readField s.data ra < modulusOf c ms := h0 ▸ modulusOf_pos hc
  have hrule : require (readField s.data ra ≠ 0) .inverseOfZero = .error .inverseOfZero := require_false _ (not_not.2 h0)
  change fieldUnary crv rd ra s ms _ = _
  rw [fieldUnary_ok hc ha, hrule]
  rfl

end Refused

/-- Settles O30: the checks come in the order of the commands' templates. -/
theorem fieldErrors : Obligations.FieldErrors := by
  intro s crv c ms rd ra rb m hc hm
  obtain rfl : m = modulusOf c ms := hm
  refine ⟨fun ha i hi => ?_, fun ha hb i hi => ?_, fun h0 => exec_finv_zero hc h0 rd⟩
  · fin_cases hi <;> exact completeCommand_operandA_error hc ha _
  · fin_cases hi <;> exact completeCommand_operandB_error hc ha hb _

end Sys2Proof.Machine
end

section
/-! PROOFS. Quotients modulo `p`: the inverse is used in `divMod` and nowhere else (41_curves.md R153 to R155). -/

namespace Sys2Proof.Machine

theorem divMod_lt (num den : Int) {p : Nat} (hp : 0 < p) : divMod num den p < p := imod_lt _ hp

/-- A quotient depends on the residue of its divisor only. -/
theorem divMod_congr {den den' : Int} {p : Nat} (h : den ≡ den' [ZMOD p]) (num : Int) :
    divMod num den p = divMod num den' p := by
  rw [divMod, divMod, imod_congr h]

/-- A dividend that is 0 modulo `p` has the quotient 0, whatever the divisor. -/
theorem divMod_eq_zero {num : Int} {p : Nat} (h : num ≡ 0 [ZMOD p]) (den : Int) : divMod num den p = 0 := by
  have hzero : num * (invMod (imod den p) p : Int) ≡ 0 [ZMOD p] := by simpa using h.mul_right (invMod (imod den p) p : Int)
  rw [divMod, imod_congr hzero]
  rfl

section Coprime

variable {p : Nat} (hp : 1 < p) (hw : p < 2 ^ 576) {den : Int} (hden : Int.gcd den p = 1)
include hp hw hden

/-- The factor of `divMod` is the inverse of every divisor coprime to `p`, also of a negative one (00_scope.md R11). -/
theorem mul_invMod_imod_modEq : den * (invMod (imod den p) p : Int) ≡ 1 [ZMOD p] := by
  have hcast : ((imod den p : Nat) : Int) = den % p := imod_cast den (by omega)
  have hco : Nat.Coprime (imod den p) p := by
    rw [Nat.Coprime, ← Int.gcd_natCast_natCast, hcast, Int.gcd_emod, hden]
  have hinv : ((imod den p * invMod (imod den p) p : Nat) : Int) ≡ (1 : Nat) [ZMOD p] := by
    rw [Int.natCast_modEq_iff, Nat.ModEq, mul_invMod hp hw hco, Nat.mod_eq_of_lt hp]
  push_cast at hinv
  exact ((imod_modEq den (by omega)).symm.mul_right _).trans hinv

/-- A quotient times its divisor is the dividend. -/
theorem divMod_mul_modEq (num : Int) : (divMod num den p : Int) * den ≡ num [ZMOD p] :=
  calc (divMod num den p : Int) * den
      ≡ num * invMod (imod den p) p * den [ZMOD p] := (imod_modEq _ (by omega)).mul_right den
    _ = num * (den * invMod (imod den p) p) := by ring
    _ ≡ num * 1 [ZMOD p] := (mul_invMod_imod_modEq hp hw hden).mul_left num
    _ = num := mul_one num

/-- A quotient is the only residue that does so. -/
theorem divMod_eq_of_mul_modEq {num : Int} {v : Nat} (hv : v < p) (h : v * den ≡ num [ZMOD p]) :
    divMod num den p = v := by
  have hmod : num * (invMod (imod den p) p : Int) ≡ v [ZMOD p] :=
    calc num * (invMod (imod den p) p : Int)
        ≡ v * den * invMod (imod den p) p [ZMOD p] := h.symm.mul_right _
      _ = v * (den * invMod (imod den p) p) := by ring
      _ ≡ v * 1 [ZMOD p] := (mul_invMod_imod_modEq hp hw hden).mul_left _
      _ = v := mul_one _
  rw [divMod, imod_congr hmod, imod_natCast, Nat.mod_eq_of_lt hv]

end Coprime

end Sys2Proof.Machine
end

section
/-! PROOFS. The group laws case by case, and the slopes and quotients of each case (41_curves.md R153 to R155). -/

namespace Sys2Proof.Machine

variable {c : CurveParams} {x1 y1 x2 y2 : Nat}

/-! ### The cases of the law -/

@[simp] theorem addPoint_inf_left (c : CurveParams) (Q : Point) : addPoint c .inf Q = Q := by
  cases hf : c.fam <;> simp only [addPoint, hf, addW, addM, addE]

@[simp] theorem addPoint_inf_right (c : CurveParams) (P : Point) : addPoint c P .inf = P := by
  cases P <;> cases hf : c.fam <;> simp only [addPoint, hf, addW, addM, addE]

/-- `chord` takes its shift as a natural number. -/
theorem chordShift_toNat (c : CurveParams) : ((chordShift c).toNat : Int) = chordShift c := by
  cases hf : c.fam <;> simp [chordShift, hf]

/-- Different first coordinates: the chord. -/
theorem addPoint_chord (hf : c.fam ≠ .edwards) (hx : x1 ≠ x2) : addPoint c (.affine x1 y1) (.affine x2 y2) =
    chord c.p (chordShift c).toNat x1 y1 x2 ((y2 : Int) - y1) ((x2 : Int) - x1) := by
  cases hfam : c.fam with
  | weierstrass => simp [addPoint, addW, chordShift, hfam, hx]
  | montgomery a24 => simp [addPoint, addM, chordShift, hfam, hx]
  | edwards => exact absurd hfam hf

/-- Equal first coordinates of points that are not opposite: the tangent at the first point. -/
theorem addPoint_tangent (hf : c.fam ≠ .edwards) (hy : (y1 + y2) % c.p ≠ 0) :
    addPoint c (.affine x1 y1) (.affine x1 y2) =
      chord c.p (chordShift c).toNat x1 y1 x1 (tangentNumerator c x1) (2 * y1) := by
  cases hfam : c.fam with
  | weierstrass => simp [addPoint, addW, chordShift, tangentNumerator, hfam, hy]
  | montgomery a24 => simp [addPoint, addM, chordShift, tangentNumerator, hfam, hy]
  | edwards => exact absurd hfam hf

/-- Opposite points. -/
theorem addPoint_opposite (hf : c.fam ≠ .edwards) (x1 : Nat) (hy : (y1 + y2) % c.p = 0) :
    addPoint c (.affine x1 y1) (.affine x1 y2) = .inf := by
  cases hfam : c.fam with
  | weierstrass => simp [addPoint, addW, hfam, hy]
  | montgomery a24 => simp [addPoint, addM, hfam, hy]
  | edwards => exact absurd hfam hf

/-- The Edwards law; the reduction of `t` before the divisions does not show. -/
theorem addPoint_edwards (hf : c.fam = .edwards) (x1 y1 x2 y2 : Nat) {t : Int} (ht : t = c.cb * x1 * x2 * y1 * y2) :
    addPoint c (.affine x1 y1) (.affine x2 y2) =
      .affine (divMod ((x1 : Int) * y2 + y1 * x2) (1 + t) c.p)
        (divMod ((y1 : Int) * y2 - c.ca * x1 * x2) (1 - t) c.p) := by
  have hmod : ((c.cb * x1 * x2 * y1 * y2 % c.p : Nat) : Int) ≡ t [ZMOD c.p] := by
    rw [ht]
    push_cast
    exact Int.mod_modEq _ _
  simp only [addPoint, hf, addE]
  rw [divMod_congr (hmod.add_left 1), divMod_congr (hmod.sub_left 1)]

/-- The sum on an Edwards curve is the only reduced point whose coordinates are the two quotients. -/
theorem addPoint_edwards_eq (hp : 1 < c.p) (hw : c.p < 2 ^ 576) (hf : c.fam = .edwards) {t : Int}
    (ht : t = c.cb * x1 * x2 * y1 * y2) (hplus : Int.gcd (1 + t) c.p = 1) (hminus : Int.gcd (1 - t) c.p = 1)
    {x3 y3 : Nat} (hx3 : x3 < c.p) (hy3 : y3 < c.p) (hx : x3 * (1 + t) ≡ x1 * y2 + y1 * x2 [ZMOD c.p])
    (hy : y3 * (1 - t) ≡ y1 * y2 - c.ca * x1 * x2 [ZMOD c.p]) :
    addPoint c (.affine x1 y1) (.affine x2 y2) = .affine x3 y3 := by
  rw [addPoint_edwards hf x1 y1 x2 y2 ht, divMod_eq_of_mul_modEq hp hw hplus hx3 hx,
    divMod_eq_of_mul_modEq hp hw hminus hy3 hy]

/-! ### Slopes -/

/-- The third point of a line with slope `num / den`, by congruences. -/
theorem chord_spec {p : Nat} (hp : 1 < p) (hw : p < 2 ^ 576) {den : Int} (hden : Int.gcd den p = 1) (num : Int)
    (shift x1 y1 x2 : Nat) :
    ∃ (l : Int) (x3 y3 : Nat), chord p shift x1 y1 x2 num den = .affine x3 y3 ∧ x3 < p ∧ y3 < p ∧
      l * den ≡ num [ZMOD p] ∧ (x3 : Int) ≡ l ^ 2 - shift - x1 - x2 [ZMOD p] ∧
      (y3 : Int) ≡ l * (x1 - x3) - y1 [ZMOD p] := by
  have hp0 : 0 < p := by omega
  exact ⟨divMod num den p, _, _, rfl, imod_lt _ hp0, imod_lt _ hp0, divMod_mul_modEq hp hw hden num,
    imod_modEq _ hp0, imod_modEq _ hp0⟩

/-- Settles O35: a case of the law each; its slope or its quotients times their divisors are the dividends. -/
theorem addLaw : Obligations.AddLaw := by
  refine fun c hp hw x1 y1 x2 y2 => ⟨fun hf hx hden => ?_, fun hf hy hden => ?_, fun hf hy => ?_,
    fun t hf ht hplus hminus => ?_⟩
  · rw [addPoint_chord hf hx, ← chordShift_toNat c]
    exact chord_spec hp hw hden _ _ _ _ _
  · rw [addPoint_tangent hf hy, ← chordShift_toNat c]
    exact chord_spec hp hw hden _ _ _ _ _
  · exact addPoint_opposite hf x1 hy
  · exact ⟨_, _, addPoint_edwards hf x1 y1 x2 y2 ht, divMod_lt _ _ (by omega), divMod_lt _ _ (by omega),
      divMod_mul_modEq hp hw hplus _, divMod_mul_modEq hp hw hminus _⟩

end Sys2Proof.Machine
end

section
/-! PROOFS. Reduced points: the sums of the law are reduced, so they fit the registers, and the identity is neutral
among them (41_curves.md R152, R156, R158). -/

namespace Sys2Proof.Machine

/-! ### Reduced points -/

/-- `P` is written as the points of curve `c` are: coordinates below `p`, and `INF` on curves that have it. -/
def Point.Reduced (c : CurveParams) : Point → Prop
  | .inf => c.fam ≠ .edwards
  | .affine x y => x < c.p ∧ y < c.p

theorem validPoint_inf_iff (c : CurveParams) : validPoint c .inf = true ↔ c.fam ≠ .edwards := decide_eq_true_iff

theorem validPoint_affine_iff (c : CurveParams) (x y : Nat) :
    validPoint c (.affine x y) = true ↔ x < c.p ∧ y < c.p ∧ onCurve c x y = true := by
  simp [validPoint, and_assoc]

theorem reduced_of_validPoint {c : CurveParams} {P : Point} (h : validPoint c P = true) : P.Reduced c := by
  cases P with
  | inf => exact (validPoint_inf_iff c).1 h
  | affine x y =>
    obtain ⟨hx, hy, -⟩ := (validPoint_affine_iff c x y).1 h
    exact ⟨hx, hy⟩

/-- A register holds reduced points only. -/
theorem reduced_of_holdsPoint {c : CurveParams} {d : Data} {j : PReg} {P : Point} (h : holdsPoint c d j P) :
    P.Reduced c := by
  rcases h with ⟨-, hf, rfl⟩ | ⟨-, rfl, hx, hy, -⟩
  · exact hf
  · exact ⟨hx, hy⟩

theorem fits_of_reduced {c : CurveParams} (hw : c.p < 2 ^ 576) {P : Point} (h : P.Reduced c) : P.fits := by
  cases P with
  | inf => trivial
  | affine x y => exact ⟨h.1.trans hw, h.2.trans hw⟩

theorem identity_eq (c : CurveParams) : identity c = if c.fam = .edwards then .affine 0 1 else .inf := by
  cases hf : c.fam <;> simp [identity, hf]

theorem identity_reduced {c : CurveParams} (hp : 1 < c.p) : (identity c).Reduced c := by
  rw [identity_eq]
  split
  · exact ⟨by omega, hp⟩
  · assumption

theorem basePoint_reduced {crv : CrvField} {c : CurveParams} (hc : curveAt crv = some c) : (basePoint c).Reduced c := by
  obtain ⟨-, -, -, -, -, -, -, -, -, hgx, hgy⟩ := curveAt_bounds hc
  exact ⟨hgx, hgy⟩

theorem addPoint_reduced {c : CurveParams} (hp : 0 < c.p) {P Q : Point} (hP : P.Reduced c) (hQ : Q.Reduced c) :
    (addPoint c P Q).Reduced c := by
  rcases P with - | ⟨x1, y1⟩
  · rwa [addPoint_inf_left]
  rcases Q with - | ⟨x2, y2⟩
  · rwa [addPoint_inf_right]
  by_cases hf : c.fam = .edwards
  · rw [addPoint_edwards hf x1 y1 x2 y2 rfl]
    exact ⟨divMod_lt _ _ hp, divMod_lt _ _ hp⟩
  by_cases hx : x1 = x2
  · subst hx
    by_cases hy : (y1 + y2) % c.p = 0
    · rw [addPoint_opposite hf x1 hy]
      exact hf
    · rw [addPoint_tangent hf hy]
      exact ⟨imod_lt _ hp, imod_lt _ hp⟩
  · rw [addPoint_chord hf hx]
    exact ⟨imod_lt _ hp, imod_lt _ hp⟩

/-! ### The identity and the negative -/

section Neutral

variable {c : CurveParams} (hp : 1 < c.p) (hw : c.p < 2 ^ 576) {P : Point} (hP : P.Reduced c)
include hp hw hP

theorem addPoint_identity_right : addPoint c P (identity c) = P := by
  rw [identity_eq]
  split
  · next hf =>
    rcases P with - | ⟨x, y⟩
    · exact absurd hf hP
    · exact addPoint_edwards_eq hp hw hf (t := 0) (by simp) (by simp) (by simp) hP.1 hP.2 (by simp [Int.ModEq])
        (by simp [Int.ModEq])
  · exact addPoint_inf_right c P

theorem addPoint_identity_left : addPoint c (identity c) P = P := by
  rw [identity_eq]
  split
  · next hf =>
    rcases P with - | ⟨x, y⟩
    · exact absurd hf hP
    · exact addPoint_edwards_eq hp hw hf (t := 0) (by simp) (by simp) (by simp) hP.1 hP.2 (by simp [Int.ModEq])
        (by simp [Int.ModEq])
  · exact addPoint_inf_left c P

end Neutral

theorem dblPoint_identity {c : CurveParams} (hp : 1 < c.p) (hw : c.p < 2 ^ 576) :
    dblPoint c (identity c) = identity c :=
  addPoint_identity_right hp hw (identity_reduced hp)

theorem negPoint_inf (c : CurveParams) : negPoint c .inf = .inf := rfl

theorem negPoint_affine (c : CurveParams) (x y : Nat) : negPoint c (.affine x y) =
    if c.fam = .edwards then .affine ((c.p - x) % c.p) y else .affine x ((c.p - y) % c.p) := by
  cases hf : c.fam <;> simp [negPoint, hf]

/-- The negative of a residue, as R157 writes it. -/
theorem sub_mod_modEq_neg {p x : Nat} (hx : x < p) : (((p - x) % p : Nat) : Int) ≡ -x [ZMOD p] := by
  rw [Int.natCast_mod, Int.natCast_sub hx.le]
  exact (Int.mod_modEq _ _).trans (Int.modEq_iff_dvd.2 ⟨-1, by ring⟩)

/-! ### The curve equations modulo `p` (41_curves.md R149) -/

section Equations

variable {c : CurveParams}

theorem onCurve_weierstrass_iff (hf : c.fam = .weierstrass) (x y : Nat) :
    onCurve c x y = true ↔ (y : Int) ^ 2 ≡ x ^ 3 + c.ca * x + c.cb [ZMOD c.p] := by
  simp only [onCurve, hf, decide_eq_true_eq]
  exact_mod_cast (Int.natCast_modEq_iff (a := y ^ 2) (b := x ^ 3 + c.ca * x + c.cb)).symm

theorem onCurve_montgomery_iff {a24 : Nat} (hf : c.fam = .montgomery a24) (x y : Nat) :
    onCurve c x y = true ↔ (y : Int) ^ 2 ≡ x ^ 3 + c.ca * x ^ 2 + x [ZMOD c.p] := by
  simp only [onCurve, hf, decide_eq_true_eq]
  exact_mod_cast (Int.natCast_modEq_iff (a := y ^ 2) (b := x ^ 3 + c.ca * x ^ 2 + x)).symm

theorem onCurve_edwards_iff (hf : c.fam = .edwards) (x y : Nat) :
    onCurve c x y = true ↔ (c.ca : Int) * x ^ 2 + y ^ 2 ≡ 1 + c.cb * x ^ 2 * y ^ 2 [ZMOD c.p] := by
  simp only [onCurve, hf, decide_eq_true_eq]
  exact_mod_cast (Int.natCast_modEq_iff (a := c.ca * x ^ 2 + y ^ 2) (b := 1 + c.cb * x ^ 2 * y ^ 2)).symm

end Equations

/-! ### A point and its negative -/

section Opposite

variable {c : CurveParams} {x y : Nat}

/-- On the curves with a point at infinity the sum is the case of opposite points. -/
theorem addPoint_negPoint (hf : c.fam ≠ .edwards) {P : Point} (hP : P.Reduced c) :
    addPoint c P (negPoint c P) = identity c := by
  rw [identity_eq, if_neg hf]
  rcases P with - | ⟨x, y⟩
  · rw [negPoint_inf, addPoint_inf_left]
  · have hsum : (y + (c.p - y) % c.p) % c.p = 0 := by
      rw [Nat.add_mod_mod, Nat.add_sub_cancel' hP.2.le, Nat.mod_self]
    rw [negPoint_affine, if_neg hf, addPoint_opposite hf x hsum]

/-- On an Edwards curve the first numerator is 0, and the curve equation makes the second one equal to its divisor. -/
theorem addPoint_negPoint_edwards (hp : 1 < c.p) (hw : c.p < 2 ^ 576) (hf : c.fam = .edwards)
    (hP : validPoint c (.affine x y) = true) {u : Nat} (hu : u = (c.p - x) % c.p)
    (hminus : Int.gcd (1 - (c.cb : Int) * x * u * y * y) c.p = 1) :
    addPoint c (.affine x y) (negPoint c (.affine x y)) = identity c := by
  obtain ⟨hx, -, hcurve⟩ := (validPoint_affine_iff c x y).1 hP
  have hneg : (u : Int) ≡ -x [ZMOD c.p] := hu ▸ sub_mod_modEq_neg hx
  have hfirst : (x : Int) * y + y * u ≡ 0 [ZMOD c.p] :=
    calc (x : Int) * y + y * u ≡ x * y + y * -x [ZMOD c.p] := (hneg.mul_left _).add_left _
      _ = 0 := by ring
  have hsecond : ((1 : Nat) : Int) * (1 - c.cb * x * u * y * y) ≡ y * y - c.ca * x * u [ZMOD c.p] :=
    calc ((1 : Nat) : Int) * (1 - c.cb * x * u * y * y) = 1 - c.cb * x * y * y * u := by push_cast; ring
      _ ≡ 1 - c.cb * x * y * y * -x [ZMOD c.p] := (hneg.mul_left _).sub_left _
      _ = 1 + c.cb * x ^ 2 * y ^ 2 := by ring
      _ ≡ c.ca * x ^ 2 + y ^ 2 [ZMOD c.p] := ((onCurve_edwards_iff hf x y).1 hcurve).symm
      _ = y * y - c.ca * x * -x := by ring
      _ ≡ y * y - c.ca * x * u [ZMOD c.p] := (hneg.symm.mul_left _).sub_left _
  rw [negPoint_affine, if_pos hf, ← hu, identity_eq, if_pos hf, addPoint_edwards hf x y u y rfl,
    divMod_eq_zero hfirst, divMod_eq_of_mul_modEq hp hw hminus hp hsecond]

end Opposite

/-- Settles O37: a valid point is reduced, and for reduced points the quotients of the law with the identity are their
own coordinates. -/
theorem addIdentity : Obligations.AddIdentity := by
  refine ⟨fun c => ⟨identity_eq c, negPoint_inf c, negPoint_affine c⟩, fun crv c P hc hP => ?_⟩
  have hp : 1 < c.p := one_lt_modulusOf hc (ms := false)
  have hw : c.p < 2 ^ 576 := modulusOf_lt hc (ms := false)
  have hred := reduced_of_validPoint hP
  refine ⟨addPoint_identity_right hp hw hred, addPoint_identity_left hp hw hred, dblPoint_identity hp hw,
    fun hf => addPoint_negPoint hf hred, ?_⟩
  rintro x y u hf rfl hu hminus
  exact addPoint_negPoint_edwards hp hw hf hP hu hminus

end Sys2Proof.Machine
end

section
/-! PROOFS. The sum of two points of a curve is on the curve (41_curves.md R158 fact 1): two identities of polynomials
over any commutative ring, carried to the law through the residues modulo `p`. -/

namespace Sys2Proof.Machine

/-! ### The identities -/

section Ring

variable {R : Type} [CommRing R]

/-- What is left of the cubic minus the square of the line through `(x1, y1)` with slope `l` when the factor `x - x1` is
divided out; its zeros are the first coordinates of the other two points of the line. -/
def lineResidual (A B l x1 y1 x : R) : R := x ^ 2 + x * x1 + x1 ^ 2 + A * (x + x1) + B - l ^ 2 * (x - x1) - 2 * l * y1

variable {A B C l x1 y1 x2 y2 : R}

/-- The chord: the second point is on the line and on the cubic. -/
theorem lineResidual_chord (hx : IsUnit (x2 - x1)) (hl : l * (x2 - x1) = y2 - y1)
    (h1 : y1 ^ 2 = x1 ^ 3 + A * x1 ^ 2 + B * x1 + C) (h2 : y2 ^ 2 = x2 ^ 3 + A * x2 ^ 2 + B * x2 + C) :
    lineResidual A B l x1 y1 x2 = 0 := by
  refine (hx.mul_right_eq_zero).1 ?_
  unfold lineResidual
  linear_combination h1 - h2 - (l * (x2 - x1) + y1 + y2) * hl

/-- The tangent: the first point counts twice. -/
theorem lineResidual_tangent (hl : l * (2 * y1) = 3 * x1 ^ 2 + 2 * A * x1 + B) : lineResidual A B l x1 y1 x1 = 0 := by
  unfold lineResidual
  linear_combination -hl

/-- The third point of the line is on the cubic. -/
theorem cubic_third_point {x3 y3 : R} (h1 : y1 ^ 2 = x1 ^ 3 + A * x1 ^ 2 + B * x1 + C)
    (h2 : lineResidual A B l x1 y1 x2 = 0) (hx3 : x3 = l ^ 2 - A - x1 - x2) (hy3 : y3 = l * (x1 - x3) - y1) :
    y3 ^ 2 = x3 ^ 3 + A * x3 ^ 2 + B * x3 + C := by
  have h3 : lineResidual A B l x1 y1 x3 = 0 := by
    rw [hx3, ← h2]
    unfold lineResidual
    ring
  unfold lineResidual at h3
  rw [hy3]
  linear_combination h1 - (x3 - x1) * h3

/-- The quotients of the Edwards law satisfy the equation: times the square of both divisors it is a combination of the
equations of the two points. -/
theorem edwards_sum {a d t x3 y3 : R} (h1 : a * x1 ^ 2 + y1 ^ 2 = 1 + d * x1 ^ 2 * y1 ^ 2)
    (h2 : a * x2 ^ 2 + y2 ^ 2 = 1 + d * x2 ^ 2 * y2 ^ 2) (ht : t = d * x1 * x2 * y1 * y2) (hplus : IsUnit (1 + t))
    (hminus : IsUnit (1 - t)) (hx3 : x3 * (1 + t) = x1 * y2 + y1 * x2)
    (hy3 : y3 * (1 - t) = y1 * y2 - a * x1 * x2) :
    a * x3 ^ 2 + y3 ^ 2 = 1 + d * x3 ^ 2 * y3 ^ 2 := by
  have hleft : (a * x1 ^ 2 + y1 ^ 2) - d * x1 ^ 2 * y1 ^ 2 * (a * x2 ^ 2 + y2 ^ 2) = 1 - t ^ 2 := by
    rw [h2, ht]
    linear_combination h1
  have hright : (a * x2 ^ 2 + y2 ^ 2) - d * x2 ^ 2 * y2 ^ 2 * (a * x1 ^ 2 + y1 ^ 2) = 1 - t ^ 2 := by
    rw [h1, ht]
    linear_combination h2
  refine (((hplus.mul hminus).pow 2).mul_left_inj).1 ?_
  calc (a * x3 ^ 2 + y3 ^ 2) * ((1 + t) * (1 - t)) ^ 2
      = a * (x3 * (1 + t)) ^ 2 * (1 - t) ^ 2 + (y3 * (1 - t)) ^ 2 * (1 + t) ^ 2 := by ring
    _ = ((a * x1 ^ 2 + y1 ^ 2) - d * x1 ^ 2 * y1 ^ 2 * (a * x2 ^ 2 + y2 ^ 2)) *
          ((a * x2 ^ 2 + y2 ^ 2) - d * x2 ^ 2 * y2 ^ 2 * (a * x1 ^ 2 + y1 ^ 2)) +
          d * (x1 * y2 + y1 * x2) ^ 2 * (y1 * y2 - a * x1 * x2) ^ 2 := by rw [hx3, hy3, ht]; ring
    _ = (1 - t ^ 2) * (1 - t ^ 2) + d * (x3 * (1 + t)) ^ 2 * (y3 * (1 - t)) ^ 2 := by rw [hleft, hright, hx3, hy3]
    _ = (1 + d * x3 ^ 2 * y3 ^ 2) * ((1 + t) * (1 - t)) ^ 2 := by ring

end Ring

/-! ### Residues modulo `p` -/

/-- A divisor coprime to `p` is a unit of the residues. -/
theorem isUnit_intCast_of_gcd {p : Nat} {den : Int} (h : Int.gcd den p = 1) : IsUnit ((den : Int) : ZMod p) :=
  (ZMod.coe_int_isUnit_iff_isCoprime den p).2 (Int.isCoprime_iff_gcd_eq_one.2 (Int.gcd_comm den p ▸ h))

/-- The coefficient of `x` in the equation of a Weierstrass or Montgomery curve (41_curves.md R149). -/
def linearCoefficient (c : CurveParams) : Int :=
  match c.fam with
  | .weierstrass => c.ca
  | .montgomery _ => 1
  | .edwards => 0

/-- The constant of the equation of a Weierstrass or Montgomery curve (41_curves.md R149). -/
def constantCoefficient (c : CurveParams) : Int :=
  match c.fam with
  | .weierstrass => c.cb
  | .montgomery _ => 0
  | .edwards => 0

section Cubic

variable {c : CurveParams} (hf : c.fam ≠ .edwards)
include hf

/-- Both equations are one cubic; its coefficient of `x^2` is what the law subtracts from `lam^2`. -/
theorem onCurve_cubic_iff (x y : Nat) : onCurve c x y = true ↔
    (y : ZMod c.p) ^ 2 = x ^ 3 + chordShift c * x ^ 2 + linearCoefficient c * x + constantCoefficient c := by
  cases hfam : c.fam with
  | weierstrass =>
    rw [onCurve_weierstrass_iff hfam, ← ZMod.intCast_eq_intCast_iff]
    simp [chordShift, linearCoefficient, constantCoefficient, hfam]
  | montgomery a24 =>
    rw [onCurve_montgomery_iff hfam, ← ZMod.intCast_eq_intCast_iff]
    simp [chordShift, linearCoefficient, constantCoefficient, hfam]
  | edwards => exact absurd hfam hf

/-- The numerator of the tangent's slope is the derivative of the cubic. -/
theorem tangentNumerator_eq (x : Int) :
    tangentNumerator c x = 3 * x ^ 2 + 2 * chordShift c * x + linearCoefficient c := by
  cases hfam : c.fam with
  | weierstrass => simp [tangentNumerator, chordShift, linearCoefficient, hfam]
  | montgomery a24 => simp [tangentNumerator, chordShift, linearCoefficient, hfam]
  | edwards => exact absurd hfam hf

variable (hp : 1 < c.p) (hw : c.p < 2 ^ 576)
include hp hw

/-- A line through a point of the curve gives a valid point, if its slope makes it meet the curve at `x2`. -/
theorem validPoint_chord {x1 y1 x2 : Nat} {num den : Int} (h1 : onCurve c x1 y1 = true) (hden : Int.gcd den c.p = 1)
    (h2 : ∀ l : ZMod c.p, l * den = num →
      lineResidual (chordShift c : ZMod c.p) (linearCoefficient c) l x1 y1 x2 = 0) :
    validPoint c (chord c.p (chordShift c).toNat x1 y1 x2 num den) = true := by
  obtain ⟨l, x3, y3, hchord, hx3, hy3, hl, hx, hy⟩ := chord_spec hp hw hden num (chordShift c).toNat x1 y1 x2
  rw [chordShift_toNat] at hx
  rw [hchord, validPoint_affine_iff, onCurve_cubic_iff hf]
  rw [← ZMod.intCast_eq_intCast_iff] at hl hx hy
  push_cast at hl hx hy
  exact ⟨hx3, hy3, cubic_third_point ((onCurve_cubic_iff hf x1 y1).1 h1) (h2 l hl) hx hy⟩

/-- Closure on the Weierstrass and Montgomery curves. -/
theorem validPoint_addPoint {P Q : Point} (hP : validPoint c P = true) (hQ : validPoint c Q = true)
    (hslope : slopeDefined c P Q) : validPoint c (addPoint c P Q) = true := by
  rcases P with - | ⟨x1, y1⟩
  · rwa [addPoint_inf_left]
  rcases Q with - | ⟨x2, y2⟩
  · rwa [addPoint_inf_right]
  obtain ⟨-, -, h1⟩ := (validPoint_affine_iff c x1 y1).1 hP
  obtain ⟨-, -, h2⟩ := (validPoint_affine_iff c x2 y2).1 hQ
  obtain ⟨hchord, htangent⟩ := hslope
  by_cases hx : x1 = x2
  · subst hx
    by_cases hy : (y1 + y2) % c.p = 0
    · rw [addPoint_opposite hf x1 hy]
      exact (validPoint_inf_iff c).2 hf
    · rw [addPoint_tangent hf hy]
      refine validPoint_chord hf hp hw h1 (htangent rfl hy).2 fun l hl => lineResidual_tangent ?_
      rw [tangentNumerator_eq hf] at hl
      exact_mod_cast hl
  · rw [addPoint_chord hf hx]
    have hunit := isUnit_intCast_of_gcd (hchord hx)
    refine validPoint_chord hf hp hw h1 (hchord hx) fun l hl => lineResidual_chord ?_ ?_
      ((onCurve_cubic_iff hf x1 y1).1 h1) ((onCurve_cubic_iff hf x2 y2).1 h2)
    · exact_mod_cast hunit
    · exact_mod_cast hl

end Cubic

/-- Closure on the Edwards curves. -/
theorem validPoint_addPoint_edwards {c : CurveParams} (hp : 1 < c.p) (hw : c.p < 2 ^ 576) (hf : c.fam = .edwards)
    {x1 y1 x2 y2 : Nat} (hP : validPoint c (.affine x1 y1) = true) (hQ : validPoint c (.affine x2 y2) = true) {t : Int}
    (ht : t = c.cb * x1 * x2 * y1 * y2) (hplus : Int.gcd (1 + t) c.p = 1) (hminus : Int.gcd (1 - t) c.p = 1) :
    validPoint c (addPoint c (.affine x1 y1) (.affine x2 y2)) = true := by
  obtain ⟨-, -, h1⟩ := (validPoint_affine_iff c x1 y1).1 hP
  obtain ⟨-, -, h2⟩ := (validPoint_affine_iff c x2 y2).1 hQ
  obtain ⟨-, -, -, hlaw⟩ := addLaw c hp hw x1 y1 x2 y2
  obtain ⟨x3, y3, hsum, hx3, hy3, hx, hy⟩ := hlaw t hf ht hplus hminus
  have hplus' := isUnit_intCast_of_gcd hplus
  have hminus' := isUnit_intCast_of_gcd hminus
  rw [onCurve_edwards_iff hf] at h1 h2
  rw [hsum, validPoint_affine_iff, onCurve_edwards_iff hf]
  rw [← ZMod.intCast_eq_intCast_iff] at h1 h2 hx hy ⊢
  push_cast at h1 h2 hx hy hplus' hminus' ⊢
  exact ⟨hx3, hy3, edwards_sum h1 h2 (by rw [ht]; push_cast; rfl) hplus' hminus' hx hy⟩

/-- Settles O36: every case of the law is one of the two identities, read modulo `p`. -/
theorem addIsClosed : Obligations.AddIsClosed :=
  ⟨fun _ _ _ _ hc hf => validPoint_addPoint hf (one_lt_modulusOf hc (ms := false)) (modulusOf_lt hc (ms := false)),
    fun _ _ _ _ _ _ _ hc hf hP hQ => validPoint_addPoint_edwards (one_lt_modulusOf hc (ms := false))
      (modulusOf_lt hc (ms := false)) hf hP hQ⟩

end Sys2Proof.Machine
end

section
/-! PROOFS. Double-and-add (41_curves.md R157, 43_scalar.md R193, R203). -/

namespace Sys2Proof.Machine

variable {c : CurveParams} {P : Point}

/-- One bit more: the doubled multiple by the upper bits, and one addition for an odd scalar. -/
theorem mulBits_succ (c : CurveParams) (P : Point) (bits k : Nat) : mulBits c P (bits + 1) k =
    if k % 2 = 1 then addPoint c (dblPoint c (mulBits c P bits (k / 2))) P
    else dblPoint c (mulBits c P bits (k / 2)) := rfl

/-- Where multiples add, `k = 2 * (k / 2) + k % 2` is the induction over the bits. -/
theorem mulBits_eq_mulSpec (hadd : ∀ j k, addPoint c (mulSpec c P j) (mulSpec c P k) = mulSpec c P (j + k))
    (bits k : Nat) (hk : k < 2 ^ bits) : mulBits c P bits k = mulSpec c P k := by
  induction bits generalizing k with
  | zero =>
    obtain rfl : k = 0 := by omega
    rfl
  | succ bits ih =>
    have hdbl : dblPoint c (mulBits c P bits (k / 2)) = mulSpec c P (k / 2 + k / 2) := by
      rw [ih (k / 2) (by rw [pow_succ] at hk; omega), dblPoint, hadd]
    rw [mulBits_succ, hdbl]
    split
    · next hodd =>
      have hk2 : k = k / 2 + k / 2 + 1 := by omega
      conv_rhs => rw [hk2]
      rfl
    · next heven => rw [show k / 2 + k / 2 = k by omega]

/-- Settles O39: the induction over the bits, also for the `64 L` bits that the commands use. -/
theorem mulBitsIsMul : Obligations.MulBitsIsMul := fun c _ =>
  ⟨⟨rfl, fun _ => rfl⟩, fun hadd => ⟨mulBits_eq_mulSpec hadd, mulBits_eq_mulSpec hadd (64 * c.limbs)⟩⟩

/-! ### Small scalars -/

section SmallScalars

variable (hp : 1 < c.p) (hw : c.p < 2 ^ 576)
include hp hw

theorem mulBits_zero (P : Point) (bits : Nat) : mulBits c P bits 0 = identity c := by
  induction bits with
  | zero => rfl
  | succ bits ih => rw [mulBits_succ, if_neg (by decide), Nat.zero_div, ih, dblPoint_identity hp hw]

theorem mulBits_one (hP : P.Reduced c) (bits : Nat) : mulBits c P (bits + 1) 1 = P := by
  rw [mulBits_succ, if_pos rfl, show 1 / 2 = 0 from rfl, mulBits_zero hp hw, dblPoint_identity hp hw,
    addPoint_identity_left hp hw hP]

theorem mulBits_two (hP : P.Reduced c) (bits : Nat) : mulBits c P (bits + 2) 2 = addPoint c P P := by
  rw [mulBits_succ, if_neg (by decide), show 2 / 2 = 1 from rfl, mulBits_one hp hw hP, dblPoint]

end SmallScalars

/-- Settles O40: the doublings of the leading zero bits stay at the identity. -/
theorem smallScalars : Obligations.SmallScalars := by
  intro crv c P hc hP
  have hp : 1 < c.p := one_lt_modulusOf hc (ms := false)
  have hw : c.p < 2 ^ 576 := modulusOf_lt hc (ms := false)
  have hred := reduced_of_validPoint hP
  obtain ⟨-, -, -, -, -, -, -, hlimbs, -, -, -⟩ := curveAt_bounds hc
  obtain ⟨bits, hbits⟩ : ∃ bits, 64 * c.limbs = bits + 2 := ⟨64 * c.limbs - 2, by omega⟩
  simp only [mulPoint, hbits]
  exact ⟨mulBits_zero hp hw P _, mulBits_one hp hw hred _, mulBits_two hp hw hred _⟩

end Sys2Proof.Machine
end

section
/-! PROOFS. The point commands: what each writes to `P[RD]`, and what each refuses (42_point.md R170 to R174). -/

namespace Sys2Proof.Machine

/-! ### A command that writes one point register -/

/-- Outcome `o` is a completion of `s` without error that stores `P` in `P[rd]` and changes nothing else of the data
state. -/
def StoresPoint (s : State) (rd : PReg) (P : Point) (o : Host.Outcome State Fault Refusal) : Prop :=
  ∃ t, o = .next t ∧ completes s t ∧ storesPoint t.data rd P ∧ onlyPoint rd s.data t.data

/-- A reduced point is stored as it is (41_curves.md R152). -/
theorem storesPoint_finishedWith {crv : CrvField} {c : CurveParams} (hc : curveAt crv = some c) {P : Point}
    (hP : P.Reduced c) (s : State) (rd : PReg) : StoresPoint s rd P (.next (finishedWith s (setpt rd P s.data))) :=
  ⟨_, rfl, completes_finishedWith s _, storesPoint_setpt rd (fits_of_reduced (modulusOf_lt hc (ms := false)) hP) s.data,
    onlyPoint_setpt rd P s.data⟩

section Operands

variable {crv : CrvField} {c : CurveParams} (hc : curveAt crv = some c) {s : State} {ra : PReg}
include hc

/-- Curve, then `RA`: a point operand that passes is handed to the rest of the command (42_point.md R170). -/
theorem completeCommand_pointA {P : Point} (hP : holdsPoint c s.data ra P)
    (g : CurveParams → Point → Except Failure Data) :
    completeCommand s (curveOf crv >>= fun c => pt c s.data ra .pointA >>= g c) = completeCommand s (g c P) := by
  rw [curveOf_ok hc, exceptBind_ok, (pt_ok_iff c s.data ra .pointA P).2 hP, exceptBind_ok]

/-- Curve, then `RA`: a register without a valid point ends the command, whatever comes after (42_point.md R170). -/
theorem completeCommand_pointA_error (hP : ∀ P, ¬holdsPoint c s.data ra P)
    (g : CurveParams → Point → Except Failure Data) :
    completeCommand s (curveOf crv >>= fun c => pt c s.data ra .pointA >>= g c) = .next (failedWith s 2) := by
  rw [curveOf_ok hc, exceptBind_ok]
  exact completeCommand_bind_error (pt_error _ hP) s _

/-- PLDC needs a curve and a selector that names a point (42_point.md R174). -/
theorem exec_pldc {rc : RcField} {P : Point} (hP : constantPoint c rc = some P) (rd : PReg) :
    exec (.pldc crv rd rc) s = .next (finishedWith s (setpt rd P s.data)) := by
  change completeCommand s (curveOf crv >>= _) = _
  rw [curveOf_ok hc, exceptBind_ok, hP]
  rfl

/-- PADD on two valid points (42_point.md R172). -/
theorem exec_padd {rb : PReg} {P Q : Point} (hP : holdsPoint c s.data ra P) (hQ : holdsPoint c s.data rb Q)
    (rd : PReg) : exec (.padd crv rd ra rb) s = .next (finishedWith s (setpt rd (addPoint c P Q) s.data)) := by
  refine (completeCommand_pointA hc hP fun c P => pt c s.data rb .pointB >>= fun Q =>
    pure (setpt rd (addPoint c P Q) s.data)).trans ?_
  rw [(pt_ok_iff c s.data rb .pointB Q).2 hQ]
  rfl

/-- PADD looks at `RB` once `RA` has passed (42_point.md R170, R172). -/
theorem exec_padd_error {rb : PReg} {P : Point} (hP : holdsPoint c s.data ra P)
    (hQ : ∀ Q, ¬holdsPoint c s.data rb Q) (rd : PReg) : exec (.padd crv rd ra rb) s = .next (failedWith s 2) :=
  (completeCommand_pointA hc hP _).trans (completeCommand_bind_error (pt_error .pointB hQ) s _)

end Operands

/-- Settles O33: sums, doubles and the ROM's points are reduced, so each is stored as it is. -/
theorem pointCommands : Obligations.PointCommands := by
  intro s crv c rd ra rb P Q hc
  have hp : 1 < c.p := one_lt_modulusOf hc (ms := false)
  have hsum {P Q : Point} (hP : P.Reduced c) (hQ : Q.Reduced c) := addPoint_reduced (by omega) hP hQ
  refine ⟨fun hP => ?_, fun hP hQ => ?_, fun hP => ?_, ?_, ?_⟩
  · exact completeCommand_pointA hc hP fun _ _ => pure s.data
  · rw [exec_padd hc hP hQ]
    exact storesPoint_finishedWith hc (hsum (reduced_of_holdsPoint hP) (reduced_of_holdsPoint hQ)) s rd
  · rw [show exec (.pdbl crv rd ra) s = .next (finishedWith s (setpt rd (addPoint c P P) s.data)) from
      completeCommand_pointA hc hP fun c P => pure (setpt rd (dblPoint c P) s.data)]
    exact storesPoint_finishedWith hc (hsum (reduced_of_holdsPoint hP) (reduced_of_holdsPoint hP)) s rd
  · rw [exec_pldc hc rfl, ← identity_eq]
    exact storesPoint_finishedWith hc (identity_reduced hp) s rd
  · rw [exec_pldc hc rfl]
    exact storesPoint_finishedWith hc (basePoint_reduced hc) s rd

/-! ### Refused operands -/

/-- The three ways in which a register holds no point of the curve (41_curves.md R150, R151). -/
theorem not_holdsPoint {c : CurveParams} {d : Data} {j : PReg}
    (h : (readPinf d j = true ∧ c.fam = .edwards) ∨
      (readPinf d j = false ∧ (c.p ≤ readField d (xReg j) ∨ c.p ≤ readField d (yReg j) ∨
        onCurve c (readField d (xReg j)) (readField d (yReg j)) = false))) (P : Point) : ¬holdsPoint c d j P := by
  rintro (⟨hinf, hf, -⟩ | ⟨hinf, -, hx, hy, hcurve⟩)
  · rcases h with ⟨-, hf'⟩ | ⟨hinf', -⟩
    · exact hf hf'
    · exact absurd (hinf.symm.trans hinf') (by decide)
  · rcases h with ⟨hinf', -⟩ | ⟨-, hx' | hy' | hcurve'⟩
    · exact absurd (hinf.symm.trans hinf') (by decide)
    · omega
    · omega
    · exact absurd (hcurve.symm.trans hcurve') (by decide)

/-- Settles O34: the four commands check `RA` first, after the curve. -/
theorem pointErrors : Obligations.PointErrors := by
  refine ⟨fun c x y => ⟨fun hf => onCurve_weierstrass_iff hf x y, fun _ hf => onCurve_montgomery_iff hf x y,
    fun hf => onCurve_edwards_iff hf x y, validPoint_affine_iff c x y, validPoint_inf_iff c⟩,
    fun s crv c rk rd ra rb k hc => ⟨fun h i hi => ?_, fun P hP hQ => exec_padd_error hc hP hQ rd⟩⟩
  have hP := not_holdsPoint h
  fin_cases hi <;> exact completeCommand_pointA_error hc hP _

end Sys2Proof.Machine
end

section
/-! PROOFS. The x-only ladder: one pass, the loop over the bits, the quotient at the end (43_scalar.md R196). -/

namespace Sys2Proof.Machine

/-! ### One pass -/

@[simp] theorem ladderSwap_false (v : Ladder) : ladderSwap false v = v := rfl

@[simp] theorem ladderSwap_true (v : Ladder) : ladderSwap true v = ⟨v.x3, v.z3, v.x2, v.z2, v.swap⟩ := rfl

/-- The residue of an integer, as an element of the ring. -/
theorem imod_zmod (a : Int) {p : Nat} (hp : 0 < p) : ((imod a p : Nat) : ZMod p) = a := by
  have h := (ZMod.intCast_eq_intCast_iff _ _ p).2 (imod_modEq a hp)
  rwa [Int.cast_natCast] at h

section Pass

variable {p : Nat} (hp : 0 < p) (a24 x1 : Nat) (kt : Bool) (v : Ladder)
include hp

/-- The four values of a pass are reduced. -/
theorem ladderStep_lt : (ladderStep p a24 x1 kt v).x2 < p ∧ (ladderStep p a24 x1 kt v).z2 < p ∧
    (ladderStep p a24 x1 kt v).x3 < p ∧ (ladderStep p a24 x1 kt v).z3 < p :=
  ⟨Nat.mod_lt _ hp, Nat.mod_lt _ hp, Nat.mod_lt _ hp, Nat.mod_lt _ hp⟩

variable {kt v} {w : Ladder} (hw : ladderSwap (v.swap ^^ kt) v = w)
include hw

/-- `x2 = AA * BB`. -/
theorem ladderStep_x2 : ((ladderStep p a24 x1 kt v).x2 : ZMod p) = (w.x2 + w.z2) ^ 2 * (w.x2 - w.z2) ^ 2 := by
  simp [ladderStep, hw, imod_zmod _ hp]

/-- `z2 = E * (AA + a24 * E)`, with `E = AA - BB`. -/
theorem ladderStep_z2 : ((ladderStep p a24 x1 kt v).z2 : ZMod p) =
    ((w.x2 + w.z2) ^ 2 - (w.x2 - w.z2) ^ 2) *
      ((w.x2 + w.z2) ^ 2 + a24 * ((w.x2 + w.z2) ^ 2 - (w.x2 - w.z2) ^ 2)) := by
  simp [ladderStep, hw, imod_zmod _ hp]

/-- `x3 = (DA + CB)^2`. -/
theorem ladderStep_x3 : ((ladderStep p a24 x1 kt v).x3 : ZMod p) =
    ((w.x3 - w.z3) * (w.x2 + w.z2) + (w.x3 + w.z3) * (w.x2 - w.z2)) ^ 2 := by
  simp [ladderStep, hw, imod_zmod _ hp]

/-- `z3 = x1 * (DA - CB)^2`. -/
theorem ladderStep_z3 : ((ladderStep p a24 x1 kt v).z3 : ZMod p) =
    x1 * ((w.x3 - w.z3) * (w.x2 + w.z2) - (w.x3 + w.z3) * (w.x2 - w.z2)) ^ 2 := by
  simp [ladderStep, hw, imod_zmod _ hp]

/-- `E = 4 * x2 * z2`: a pair with a zero in it is followed by one with `z2 = 0`. -/
theorem ladderStep_z2_eq_zero (h : w.x2 * w.z2 = 0) : (ladderStep p a24 x1 kt v).z2 = 0 := by
  have hE : ((w.x2 : ZMod p) + w.z2) ^ 2 - (w.x2 - w.z2) ^ 2 = 0 := by
    have h' : (w.x2 : ZMod p) * w.z2 = 0 := by exact_mod_cast congrArg (Nat.cast (R := ZMod p)) h
    linear_combination 4 * h'
  have hz := ladderStep_z2 hp a24 x1 hw
  rw [hE, zero_mul, ZMod.natCast_eq_zero_iff] at hz
  exact Nat.eq_zero_of_dvd_of_lt hz (ladderStep_lt hp a24 x1 kt v).2.1

end Pass

/-! ### All passes -/

/-- The passes in the order of the bits, from the top. -/
theorem ladderLoop_eq_foldl (p a24 x1 k t : Nat) (v : Ladder) : ladderLoop p a24 x1 k t v =
    (List.range t).reverse.foldl (fun v t => ladderStep p a24 x1 (k.testBit t) v) v := by
  induction t generalizing v with
  | zero => rfl
  | succ t ih => rw [ladderLoop, ih, List.range_succ, List.reverse_append]; rfl

/-- What every pass keeps, all passes keep. -/
theorem ladderLoop_keeps {p a24 x1 k : Nat} {I : Ladder → Prop}
    (hI : ∀ t v, I v → I (ladderStep p a24 x1 (k.testBit t) v)) (t : Nat) {v : Ladder} (hv : I v) :
    I (ladderLoop p a24 x1 k t v) := by
  induction t generalizing v with
  | zero => exact hv
  | succ t ih => exact ih (hI t v hv)

/-- The variables after all passes and the last exchange. -/
def ladderEnd (p a24 limbs k u : Nat) : Ladder :=
  let v := ladderLoop p a24 u k (64 * limbs) ⟨1, 0, u, 1, false⟩
  ladderSwap v.swap v

/-- The ladder answers `x2 * z2^(p-2)`. -/
theorem ladder_eq {p : Nat} (hp : p < 2 ^ 576) (a24 limbs k u : Nat) : ladder p a24 limbs k u =
    (ladderEnd p a24 limbs k u).x2 * (ladderEnd p a24 limbs k u).z2 ^ (p - 2) % p := by
  change _ * powMod p _ (p - 2) % p = _
  rw [powMod_eq _ _ (by omega), Nat.mul_mod_mod]
  rfl

theorem ladder_lt {p : Nat} (hp : 0 < p) (a24 limbs k u : Nat) : ladder p a24 limbs k u < p := Nat.mod_lt _ hp

/-! ### Where the ladder answers 0 -/

/-- For a scalar of 0 no pass exchanges the pairs, and `z2` stays 0. -/
theorem ladderEnd_zero_scalar {p : Nat} (hp : 0 < p) (a24 limbs u : Nat) : (ladderEnd p a24 limbs 0 u).z2 = 0 := by
  have hkept := ladderLoop_keeps (p := p) (a24 := a24) (x1 := u) (k := 0) (I := fun v => v.swap = false ∧ v.z2 = 0)
    (fun t v ⟨hswap, hz⟩ => by
      have hv : ladderSwap (v.swap ^^ false) v = v := by rw [hswap, Bool.xor_self, ladderSwap_false]
      rw [Nat.zero_testBit]
      exact ⟨rfl, ladderStep_z2_eq_zero hp a24 u hv (by rw [hz, Nat.mul_zero])⟩)
    (64 * limbs) (v := ⟨1, 0, u, 1, false⟩) ⟨rfl, rfl⟩
  rw [ladderEnd, hkept.1]
  exact hkept.2

/-- Both pairs have a zero in them, as they do before the first pass of the ladder for `u = 0`. -/
def Ladder.Degenerate (v : Ladder) : Prop := v.x2 * v.z2 = 0 ∧ v.x3 * v.z3 = 0

theorem Ladder.Degenerate.swap {v : Ladder} (h : v.Degenerate) (b : Bool) : (ladderSwap b v).Degenerate := by
  cases b with
  | false => exact h
  | true => exact And.symm h

/-- For `u = 0` a pass gives `z3 = 0`, and `z2 = 0` from pairs with a zero in them. -/
theorem Ladder.Degenerate.step {p : Nat} (hp : 0 < p) (a24 : Nat) (kt : Bool) {v : Ladder} (h : v.Degenerate) :
    (ladderStep p a24 0 kt v).Degenerate := by
  have hz2 := ladderStep_z2_eq_zero hp a24 0 rfl (h.swap (v.swap ^^ kt)).1
  have hz3 : (ladderStep p a24 0 kt v).z3 = 0 := by simp [ladderStep]
  exact ⟨by rw [hz2, Nat.mul_zero], by rw [hz3, Nat.mul_zero]⟩

theorem ladderEnd_degenerate {p : Nat} (hp : 0 < p) (a24 limbs k : Nat) : (ladderEnd p a24 limbs k 0).Degenerate :=
  (ladderLoop_keeps (I := Ladder.Degenerate) (fun _ _ h => h.step hp a24 _) (64 * limbs)
    (v := ⟨1, 0, 0, 1, false⟩) ⟨rfl, rfl⟩).swap _

/-- `z2^(p-2)` is 0 for `z2 = 0`, so that one zero in the pair is enough (43_scalar.md R195). -/
theorem ladder_eq_zero {p : Nat} (hp : 2 < p) (hw : p < 2 ^ 576) (a24 limbs : Nat) {k u : Nat} (h : k = 0 ∨ u = 0) :
    ladder p a24 limbs k u = 0 := by
  have hpair : (ladderEnd p a24 limbs k u).x2 * (ladderEnd p a24 limbs k u).z2 = 0 := by
    rcases h with rfl | rfl
    · rw [ladderEnd_zero_scalar (by omega), Nat.mul_zero]
    · exact (ladderEnd_degenerate (by omega) a24 limbs k).1
  rw [ladder_eq hw]
  rcases Nat.mul_eq_zero.1 hpair with hx | hz
  · rw [hx, Nat.zero_mul, Nat.zero_mod]
  · rw [hz, Nat.zero_pow (by omega), Nat.mul_zero, Nat.zero_mod]

/-- Settles O60: the pass by its four formulas, the loop as the fold, and the last exchange as the choice of the
pair. -/
theorem ladderByFormulas : Obligations.LadderByFormulas := by
  refine ⟨fun p a24 x1 kt swap x2 z2 x3 z3 X2 Z2 X3 Z3 A B E DA CB hp hX hA hB hE hDA hCB => ?_,
    fun p a24 limbs k u v hp hv => ?_⟩
  · obtain ⟨w, hw, hXw⟩ : ∃ w, ladderSwap (swap ^^ kt) ⟨x2, z2, x3, z3, swap⟩ = w ∧
        (X2, Z2, X3, Z3) = ((w.x2, w.z2, w.x3, w.z3) : Int × Int × Int × Int) := by
      refine ⟨_, rfl, hX.trans ?_⟩
      split
      · next heq => rw [heq, Bool.xor_self, ladderSwap_false]
      · next hne => rw [Bool.xor_iff_ne.2 hne, ladderSwap_true]
    obtain ⟨rfl, rfl, rfl, rfl⟩ : X2 = w.x2 ∧ Z2 = w.z2 ∧ X3 = w.x3 ∧ Z3 = w.z3 := by
      simpa only [Prod.mk.injEq] using hXw
    obtain ⟨hx2, hz2, hx3, hz3⟩ := ladderStep_lt hp a24 x1 kt ⟨x2, z2, x3, z3, swap⟩
    subst hA hB hE hDA hCB
    refine ⟨_, rfl, rfl, hx2, hz2, hx3, hz3, ?_, ?_, ?_, ?_⟩ <;> rw [← ZMod.intCast_eq_intCast_iff] <;> push_cast
    · exact ladderStep_x3 hp a24 x1 hw
    · exact ladderStep_z3 hp a24 x1 hw
    · exact ladderStep_x2 hp a24 x1 hw
    · exact ladderStep_z2 hp a24 x1 hw
  · have hend : ladderEnd p a24 limbs k u = ladderSwap v.swap v := by rw [hv, ← ladderLoop_eq_foldl]; rfl
    rw [ladder_eq hp, hend]
    cases v.swap <;> rfl

end Sys2Proof.Machine
end

section
/-! PROOFS. The scalar commands: what each stores, and what each refuses (43_scalar.md R190 to R196). -/

namespace Sys2Proof.Machine

/-! ### The multiples of a reduced point -/

theorem mulBits_reduced {c : CurveParams} (hp : 1 < c.p) {P : Point} (hP : P.Reduced c) (bits k : Nat) :
    (mulBits c P bits k).Reduced c := by
  induction bits generalizing k with
  | zero => exact identity_reduced hp
  | succ bits ih =>
    have hdbl : (dblPoint c (mulBits c P bits (k / 2))).Reduced c := addPoint_reduced (by omega) (ih _) (ih _)
    rw [mulBits_succ]
    split
    · exact addPoint_reduced (by omega) hdbl hP
    · exact hdbl

theorem mulPoint_reduced {crv : CrvField} {c : CurveParams} (hc : curveAt crv = some c) {P : Point}
    (hP : P.Reduced c) (k : Nat) : (mulPoint c k P).Reduced c :=
  mulBits_reduced (one_lt_modulusOf hc (ms := false)) hP _ k

/-! ### The scalar, which every command checks last -/

section Check

variable {c : CurveParams} {s : State} {rk : Bool} {rb : FReg}

/-- A command whose last check is the scalar, and the scalar passes (43_scalar.md R190, R192). -/
theorem completeCommand_scalar (h : scalarAccepted c s.data rk rb) (g : Nat → Data) :
    completeCommand s (scalarOf c s.data rk rb >>= fun k => pure (g k)) =
      .next (finishedWith s (g (readField s.data rb))) := by
  rw [scalarOf_ok h]
  rfl

/-- Both scalar checks have code 3 (43_scalar.md R192, 60_exceptions.md R311). -/
theorem completeCommand_scalar_error (h : ¬scalarAccepted c s.data rk rb) (g : Nat → Except Failure Data) :
    completeCommand s (scalarOf c s.data rk rb >>= g) = .next (failedWith s 3) := by
  rcases scalarOf_error h with hw | hr
  · exact completeCommand_bind_error hw s g
  · exact completeCommand_bind_error hr s g

theorem not_scalarAccepted (h : 2 ^ (64 * c.limbs) ≤ readField s.data rb ∨
    (rk = true ∧ (readField s.data rb = 0 ∨ c.n ≤ readField s.data rb))) : ¬scalarAccepted c s.data rk rb := by
  rintro ⟨hwidth, hrange⟩
  rcases h with hwide | ⟨hrk, hout⟩
  · omega
  · obtain ⟨hlow, hhigh⟩ := hrange hrk
    omega

end Check

/-! ### Each command up to the scalar -/

theorem ladderConstant_ok {c : CurveParams} {a24 : Nat} (h : c.fam = .montgomery a24) : ladderConstant c = .ok a24 := by
  rw [ladderConstant, h]

section UpToScalar

variable {crv : CrvField} {c : CurveParams} (hc : curveAt crv = some c) (s : State) (rk : Bool) (rb : FReg)
include hc

/-- SMUL, once `RA` has passed (43_scalar.md R190, R191). -/
theorem exec_smul {ra : PReg} {P : Point} (hP : holdsPoint c s.data ra P) (rd : PReg) :
    exec (.smul crv rk rd ra rb) s =
      completeCommand s (scalarOf c s.data rk rb >>= fun k => pure (setpt rd (mulPoint c k P) s.data)) :=
  completeCommand_pointA hc hP fun c P => scalarOf c s.data rk rb >>= fun k => pure (setpt rd (mulPoint c k P) s.data)

/-- SMUL.G has no point operand to check (43_scalar.md R191). -/
theorem exec_smulG (rd : PReg) : exec (.smulG crv rk rd rb) s =
    completeCommand s (scalarOf c s.data rk rb >>= fun k => pure (setpt rd (mulPoint c k (basePoint c)) s.data)) := by
  change completeCommand s (curveOf crv >>= _) = _
  rw [curveOf_ok hc]
  rfl

variable {a24 : Nat} (hf : c.fam = .montgomery a24)
include hf

/-- SMULX on a Montgomery curve checks `u`, then the scalar (43_scalar.md R190, R195). -/
theorem exec_smulx_felt (rd ra : FReg) : exec (.smulx crv rk rd ra rb) s =
    completeCommand s (felt s.data c.p ra .pointA >>= fun u => scalarOf c s.data rk rb >>= fun k =>
      pure (writeField rd (ladder c.p a24 c.limbs k u) s.data)) := by
  change completeCommand s (curveOf crv >>= _) = _
  rw [curveOf_ok hc, exceptBind_ok, ladderConstant_ok hf, exceptBind_ok]

/-- SMULX, once `u` has passed (43_scalar.md R195). -/
theorem exec_smulx {ra : FReg} (hu : readField s.data ra < c.p) (rd : FReg) : exec (.smulx crv rk rd ra rb) s =
    completeCommand s (scalarOf c s.data rk rb >>= fun k =>
      pure (writeField rd (ladder c.p a24 c.limbs k (readField s.data ra)) s.data)) := by
  rw [exec_smulx_felt hc s rk rb hf, felt_ok _ hu, exceptBind_ok]

/-- A `u` that is no residue ends SMULX as an invalid point does (43_scalar.md R195). -/
theorem exec_smulx_error {ra : FReg} (hu : c.p ≤ readField s.data ra) (rd : FReg) :
    exec (.smulx crv rk rd ra rb) s = .next (failedWith s 2) := by
  rw [exec_smulx_felt hc s rk rb hf]
  exact completeCommand_bind_error (felt_error _ hu) s _

/-- SMULX.G on a Montgomery curve takes the base point's `u` (43_scalar.md R195). -/
theorem exec_smulxG (rd : FReg) : exec (.smulxG crv rk rd rb) s =
    completeCommand s (scalarOf c s.data rk rb >>= fun k =>
      pure (writeField rd (ladder c.p a24 c.limbs k c.gx) s.data)) := by
  change completeCommand s (curveOf crv >>= _) = _
  rw [curveOf_ok hc, exceptBind_ok, ladderConstant_ok hf, exceptBind_ok]

end UpToScalar

/-! ### The obligations -/

/-- Settles O38: the multiple of a reduced point is reduced, so it is stored as it is. -/
theorem scalarMultiply : Obligations.ScalarMultiply := by
  intro s crv c rk rd ra rb P hc hk
  refine ⟨fun hP => ?_, ?_⟩
  · rw [exec_smul hc s rk rb hP, completeCommand_scalar hk]
    exact storesPoint_finishedWith hc (mulPoint_reduced hc (reduced_of_holdsPoint hP) _) s rd
  · rw [exec_smulG hc, completeCommand_scalar hk]
    exact storesPoint_finishedWith hc (mulPoint_reduced hc (basePoint_reduced hc) _) s rd

/-- A ladder value reads back from `F[rd]`: it is below `p`, and 0 for a scalar or a `u` of 0. -/
theorem readField_writeField_ladder {crv : CrvField} {c : CurveParams} (hc : curveAt crv = some c) (a24 k u : Nat)
    (rd : FReg) (d : Data) :
    let v := readField (writeField rd (ladder c.p a24 c.limbs k u) d) rd
    v = ladder c.p a24 c.limbs k u ∧ v < c.p ∧ (k = 0 ∨ u = 0 → v = 0) := by
  have hp : 3 < c.p := (modulusOf_bounds hc false).1
  have hw : c.p < 2 ^ 576 := modulusOf_lt hc (ms := false)
  have hlt : ladder c.p a24 c.limbs k u < c.p := ladder_lt (by omega) a24 c.limbs k u
  rw [readField_writeField_of_lt (hlt.trans hw)]
  exact ⟨rfl, hlt, ladder_eq_zero (by omega) hw a24 c.limbs⟩

/-- Settles O41: both commands store the ladder's value, SMULX.G for the base point's `u`. -/
theorem xOnlyMultiply : Obligations.XOnlyMultiply := by
  intro s crv c a24 rk rd ra rb hc hf hk
  have hstored (u : Nat) := readField_writeField_ladder hc a24 (readField s.data rb) u rd s.data
  refine ⟨fun hu => ?_, ?_⟩
  · rw [exec_smulx hc s rk rb hf hu, completeCommand_scalar hk]
    obtain ⟨hv, hlt, hzero⟩ := hstored (readField s.data ra)
    exact ⟨_, rfl, completes_finishedWith s _, hv, hlt, hzero, onlyField_writeField rd _ s.data⟩
  · rw [exec_smulxG hc s rk rb hf, completeCommand_scalar hk]
    obtain ⟨hv, hlt, hzero⟩ := hstored c.gx
    exact ⟨_, rfl, completes_finishedWith s _, hv, hlt, fun h => hzero (.inl h), onlyField_writeField rd _ s.data⟩

/-- Settles O42: the operand's check comes first, then the scalar's. -/
theorem scalarErrors : Obligations.ScalarErrors := by
  refine fun s crv c rk pd pa rd ra rb hc => ⟨fun hk => ?_, fun a24 hf hu => exec_smulx_error hc s rk rb hf hu rd⟩
  have hrefused : ∀ g : Nat → Except Failure Data,
      completeCommand s (scalarOf c s.data rk rb >>= g) = .next (failedWith s 3) :=
    completeCommand_scalar_error (not_scalarAccepted hk)
  exact ⟨fun P hP => (exec_smul hc s rk rb hP pd).trans (hrefused _), (exec_smulG hc s rk rb pd).trans (hrefused _),
    fun a24 hf hu => (exec_smulx hc s rk rb hf hu rd).trans (hrefused _),
    fun a24 hf => (exec_smulxG hc s rk rb hf rd).trans (hrefused _)⟩

end Sys2Proof.Machine
end

section
/-! PROOFS. The steps of a Keccak round, lane by lane, and the rotation offsets (44_keccak.md R212 to R215). -/

namespace Sys2Proof.Machine

/-- A lane depends on its indices modulo 5 (44_keccak.md R211). -/
theorem lane_congr (A : List Lane) {x x' y y' : Nat} (hx : x % 5 = x' % 5) (hy : y % 5 = y' % 5) :
    lane A x y = lane A x' y' := by rw [lane, lane, hx, hy]

theorem rhoOffset_congr {x x' : Nat} (hx : x % 5 = x' % 5) (y : Nat) : rhoOffset x y = rhoOffset x' y := by
  rw [rhoOffset, rhoOffset, hx]

/-- Rho and pi move lane `(x, y)`, rotated, to `(y, 2x + 3y)` (44_keccak.md R213). -/
theorem lane_rhoPi (A : List Lane) (x : Nat) {y : Nat} (hy : y < 5) :
    lane (rhoPi A) y ((2 * x + 3 * y) % 5) = (lane A x y).rotateLeft (rhoOffset x y) := by
  have hsource : (y + 3 * ((2 * x + 3 * y) % 5)) % 5 = x % 5 := by omega
  rw [rhoPi, lane_lanesOf _ hy (Nat.mod_lt _ (by omega)), lane_congr A hsource rfl, rhoOffset_congr hsource]

section
variable {x y : Nat} (hx : x < 5) (hy : y < 5)
include hx hy

/-- Theta adds two column parities to a lane (44_keccak.md R212). -/
theorem lane_theta (A : List Lane) {C : Nat → Lane}
    (hC : ∀ x, C x = lane A x 0 ^^^ lane A x 1 ^^^ lane A x 2 ^^^ lane A x 3 ^^^ lane A x 4) :
    lane (theta A) x y = lane A x y ^^^ (C ((x + 4) % 5) ^^^ (C ((x + 1) % 5)).rotateLeft 1) := by
  have hmod (k z : Nat) : lane A (k % 5) z = lane A k z := lane_congr A (Nat.mod_mod k 5) rfl
  simp only [theta, lane_lanesOf _ hx hy, hC, hmod]

/-- Chi combines three lanes of a row (44_keccak.md R214). -/
theorem lane_chi (B : List Lane) :
    lane (chi B) x y = lane B x y ^^^ (~~~lane B ((x + 1) % 5) y &&& lane B ((x + 2) % 5) y) := by
  have hmod (k : Nat) : lane B (k % 5) y = lane B k y := lane_congr B (Nat.mod_mod k 5) rfl
  rw [chi, lane_lanesOf _ hx hy, hmod, hmod]

/-- Iota changes lane `(0, 0)` only (44_keccak.md R215). -/
theorem lane_iota (A : List Lane) (ir : Nat) :
    lane (iota A ir) x y = if x = 0 ∧ y = 0 then lane A 0 0 ^^^ roundConstant ir else lane A x y :=
  lane_lanesOf _ hx hy

end

/-- Step `t` of the walk from `(1, 0)` meets the lane whose offset is triangular number `t` (44_keccak.md R213). -/
theorem rhoOffset_walk : ∀ t, t < 24 →
    let q := (fun z : Nat × Nat => (z.2, (2 * z.1 + 3 * z.2) % 5))^[t] (1, 0)
    rhoOffset q.1 q.2 = (t + 1) * (t + 2) / 2 % 64 := by decide

/-- Settles O44: each step read at a lane, and the 24 steps of the walk. -/
theorem keccakSteps : Obligations.KeccakSteps := by
  refine ⟨fun A C hC x y hx hy => lane_theta hx hy A hC, fun A x y _ hy => lane_rhoPi A x hy,
    ⟨rfl, fun t ht q hq => hq ▸ rhoOffset_walk t ht⟩, by decide, fun B x y hx hy => lane_chi hx hy B⟩

end Sys2Proof.Machine
end

section
/-! PROOFS. Lanes and bytes, the permutation by its rounds, and KECCAKP (44_keccak.md R211, R215 to R217). -/

namespace Sys2Proof.Machine

/-! ### Lanes and bytes -/

/-- Bit `z` of lane `(x, y)` of a byte string (44_keccak.md R211). -/
theorem lane_lanesOfBytes_getLsbD (bs : List Byte) {x y z : Nat} (hx : x < 5) (hy : y < 5) (hz : z < 64) :
    (lane (lanesOfBytes bs) x y).getLsbD z = (bs.getD (8 * (5 * y + x) + z / 8) 0).getLsbD (z % 8) := by
  rw [lanesOfBytes, lane_lanesOf _ hx hy, leWordAt_getLsbD _ _ hz hz]

/-- Lane `i` of a state starts at byte `8 i` of its string. -/
theorem drop_bytesOfLanes (A : List Lane) (i : Nat) : (bytesOfLanes A).drop (8 * i) = bytesOfLanes (A.drop i) := by
  induction i generalizing A with
  | zero => rfl
  | succ i ih =>
    cases A with
    | nil => simp [bytesOfLanes]
    | cons v A =>
      have hskip : (bytesOfLanes (v :: A)).drop 8 = bytesOfLanes A := List.drop_left' (leBytes_length v.toNat 8)
      rw [List.drop_succ_cons, ← ih A, ← hskip, List.drop_drop]
      congr 1
      omega

/-- Lane `i` is read back from the bytes of a state. -/
theorem leWordAt_bytesOfLanes (A : List Lane) {i : Nat} (h : i < A.length) :
    leWordAt 64 (bytesOfLanes A) (8 * i) 8 = A[i] := by
  have hfirst : (bytesOfLanes (A.drop i)).take 8 = leBytes A[i].toNat 8 := by
    rw [List.drop_eq_getElem_cons h]
    exact List.take_left' (leBytes_length _ 8)
  have hself : (leBytes A[i].toNat 8).take 8 = leBytes A[i].toNat 8 := List.take_of_length_le (by simp)
  have hword := leWordAt_leBytes (k := 8) A[i] rfl
  rw [leWordAt, List.drop_zero, hself] at hword
  rw [leWordAt, drop_bytesOfLanes, hfirst, hword]

/-- Reading the lanes back from the bytes they were written as (44_keccak.md R211). -/
theorem lanesOfBytes_bytesOfLanes {A : List Lane} (h : A.length = 25) : lanesOfBytes (bytesOfLanes A) = A := by
  refine List.ext_getElem ((lanesOf_length _).trans h.symm) fun i _ hi => ?_
  have hplace : 8 * (5 * (i / 5) + i % 5) = 8 * i := by omega
  simp only [lanesOfBytes, lanesOf, List.getElem_map, List.getElem_range, hplace, leWordAt_bytesOfLanes A hi]

/-! ### The permutation -/

/-- All 24 rounds (44_keccak.md R217). -/
theorem keccakP_24 (bs : List Byte) :
    keccakP bs 24 = bytesOfLanes ((List.range 24).foldl keccakRound (lanesOfBytes bs)) := by
  rw [keccakP, List.range_eq_range']

/-- Rounds 12 to 23 (44_keccak.md R217). -/
theorem keccakP_12 (bs : List Byte) :
    keccakP bs 12 = bytesOfLanes (((List.range 24).drop 12).foldl keccakRound (lanesOfBytes bs)) := by
  rw [keccakP, show (List.range 24).drop 12 = List.range' (24 - 12) 12 from rfl]

/-! ### The command -/

/-- KECCAKP with an allowed round count completes with `DAT[0..199]` permuted (44_keccak.md R216). -/
theorem exec_keccakp {mode : BitVec 8} (h : mode = 12 ∨ mode = 24) (s : State) : exec (.keccakp mode) s =
    .next (finishedWith s (writeDat 0 (keccakP (readDat s.data 0 200) mode.toNat) s.data)) := by
  change completeCommand s (require _ _ >>= _) = _
  rw [require_true _ h]
  rfl

/-- A byte string of length `n` written to the front of `DAT` reads back. -/
theorem readDat_writeDat_front {d : Data} (h : Memory.wf d.mem = true) {bs : List Byte} {n : Nat}
    (hl : bs.length = n) (hn : n ≤ 256) : readDat (writeDat 0 bs d) 0 n = bs :=
  hl ▸ readDat_writeDat_same h (by omega)

/-- Settles O43: the permuted string has 200 bytes, so it reads back from `DAT`; the lanes survive the way through
bytes; the round constants are those of the table. -/
theorem keccakCommand : Obligations.KeccakCommand := by
  refine ⟨fun s mode hm hwf => ?_, fun bs => ⟨keccakP_24 bs, keccakP_12 bs⟩, fun A ir => rfl,
    fun q hq A x y hx hy => ?_, fun bs x y z hx hy hz => lane_lanesOfBytes_getLsbD bs hx hy hz,
    fun A hA => ⟨by rw [bytesOfLanes_length, hA], lanesOfBytes_bytesOfLanes hA⟩⟩
  · have hl : (keccakP (readDat s.data 0 200) mode.toNat).length = 200 := keccakP_length _ _
    have hframe := onlyBytes_writeDat 0 (keccakP (readDat s.data 0 200) mode.toNat) s.data
    rw [hl] at hframe
    exact ⟨_, exec_keccakp hm s, completes_finishedWith s _, readDat_writeDat_front hwf hl (by omega), hframe⟩
  · have hconstant : roundConstant q.1 = q.2 := by
      revert q
      decide
    rw [lane_iota hx hy, hconstant]

end Sys2Proof.Machine
end

section
/-! PROOFS. The byte actions of the sponge: absorb, finish, squeeze (44_keccak.md R218). -/

namespace Sys2Proof.Machine

/-- Byte strings of one length that agree byte by byte. -/
theorem eq_of_getD_eq {xs ys : List Byte} {n : Nat} (hx : xs.length = n) (hy : ys.length = n)
    (h : ∀ i, i < n → xs.getD i 0 = ys.getD i 0) : xs = ys := by
  refine List.ext_getElem (hx.trans hy.symm) fun i hxi hyi => ?_
  rw [← List.getD_eq_getElem xs 0 hxi, ← List.getD_eq_getElem ys 0 hyi]
  exact h i (hx ▸ hxi)

/-- `absorb_byte(b)` with its exclusive-or given byte by byte (44_keccak.md R218). -/
theorem absorbByte_eq {v : Sponge} {b : Byte} {sa : List Byte} (hv : v.sa.length = 200) (hpos : v.pos < 200)
    (hl : sa.length = 200)
    (h : ∀ i, i < 200 → sa.getD i 0 = v.sa.getD i 0 ^^^ (if i = v.pos then b else 0)) :
    absorbByte v b = if v.pos + 1 = v.rate then { v with sa := keccakP sa v.nr, pos := 0 }
      else { v with sa := sa, pos := v.pos + 1 } := by
  have hsa : sa = xorByteAt v.sa v.pos b := eq_of_getD_eq hl ((xorByteAt_length ..).trans hv) fun i hi => by
    rw [h i hi, getD_xorByteAt b i (hv ▸ hpos)]
  rw [hsa]
  rfl

/-- `finish()` with its two exclusive-ors given byte by byte (44_keccak.md R218). -/
theorem finishSponge_eq {v : Sponge} {sa : List Byte} (hv : v.sa.length = 200) (hpos : v.pos < v.rate)
    (hrate : v.rate ≤ 200) (hl : sa.length = 200)
    (h : ∀ i, i < 200 → sa.getD i 0 =
      v.sa.getD i 0 ^^^ (if i = v.pos then v.dsuf else 0) ^^^ (if i = v.rate - 1 then 0x80 else 0)) :
    finishSponge v = { v with sa := keccakP sa v.nr, pos := 0 } := by
  have hmid : (xorByteAt v.sa v.pos v.dsuf).length = 200 := (xorByteAt_length ..).trans hv
  have hsa : sa = xorByteAt (xorByteAt v.sa v.pos v.dsuf) (v.rate - 1) 0x80 :=
    eq_of_getD_eq hl ((xorByteAt_length ..).trans hmid) fun i hi => by
      rw [h i hi, getD_xorByteAt _ i (by omega), getD_xorByteAt _ i (by omega)]
  rw [hsa]
  rfl

/-- Squeezing `m + n` bytes is squeezing `m` and then `n` (44_keccak.md R230). -/
theorem squeezeBytes_add (m n : Nat) (v : Sponge) : squeezeBytes (m + n) v =
    ((squeezeBytes m v).1 ++ (squeezeBytes n (squeezeBytes m v).2).1, (squeezeBytes n (squeezeBytes m v).2).2) := by
  induction m generalizing v with
  | zero => rw [Nat.zero_add]; rfl
  | succ m ih => rw [Nat.succ_add, squeezeBytes, ih]; rfl

/-! ### What a sponge action keeps -/

theorem Sponge.sa_length_of_sameConfig {v w : Sponge} (h : v.sameConfig w) (hv : v.sa.length = 200) :
    w.sa.length = 200 := by
  obtain ⟨-, -, -, -, hsa⟩ := h
  exact hsa hv

/-- `w` is a sponge that commands can make of the context in `d`: same configuration, `POS` at most the rate. -/
def Sponge.ComesFrom (w : Sponge) (d : Data) : Prop :=
  (readSponge d).sameConfig w ∧ w.pos ≤ (readSponge d).rate

theorem comesFrom_readSponge {d : Data} (h : (readSponge d).pos ≤ (readSponge d).rate) :
    (readSponge d).ComesFrom d := ⟨Sponge.sameConfig_refl _, h⟩

theorem Sponge.ComesFrom.sa_length {w : Sponge} {d : Data} (h : w.ComesFrom d) : w.sa.length = 200 :=
  sa_length_of_sameConfig h.1 (readSponge_sa_length d)

theorem comesFrom_absorb (bs : List Byte) {d : Data} (h : (readSponge d).pos < (readSponge d).rate) :
    (bs.foldl absorbByte (readSponge d)).ComesFrom d :=
  ⟨(absorbBytes_keeps bs _).1, ((absorbBytes_keeps bs _).2 h).le⟩

theorem comesFrom_finish (d : Data) : (finishSponge (readSponge d)).ComesFrom d :=
  ⟨(finishSponge_keeps _).1, (finishSponge_keeps _).2 ▸ Nat.zero_le _⟩

theorem Sponge.ComesFrom.squeeze {w : Sponge} {d : Data} (h : w.ComesFrom d) (hrate : 0 < (readSponge d).rate)
    (n : Nat) : (squeezeBytes n w).2.ComesFrom d := by
  obtain ⟨hsame, hpos⟩ := h
  obtain ⟨hsame', hpos'⟩ := squeezeBytes_keeps n w
  rw [hsame.1] at hpos'
  exact ⟨sameConfig_trans hsame hsame', hpos' hrate hpos⟩

end Sys2Proof.Machine
end

section
/-! PROOFS. The sponge context in `CTX`: what a write-back and the other writes leave there, and when the context is
still accepted (10_state.md R34, 44_keccak.md R219). -/

namespace Sys2Proof.Machine

/-! ### Bytes of the two buffers -/

/-- `CTX` is determined by its bytes. -/
theorem readCtx_ext {d e : Data} {n : Nat} (h : ∀ i, i < n → ctxByte e i = ctxByte d i) :
    readCtx e 0 n = readCtx d 0 n :=
  List.map_congr_left fun i hi => h i (List.mem_range.1 hi)

/-- A write-back leaves every byte of `CTX` but `SA` and `POS` alone. -/
theorem ctxByte_writeSponge_other {w : Sponge} (hl : w.sa.length = 200) (d : Data) {i : Nat} (h : 200 ≤ i)
    (h203 : i ≠ 203) : ctxByte (writeSponge w d) i = ctxByte d i := by
  rw [writeSponge, ctxByte_writeCtx_other _ _ _ _ (by rw [List.length_singleton]; omega),
    ctxByte_writeCtx_other _ _ _ _ (by omega)]

/-- A write-back leaves `SA` and `POS` that depend on the sponge only. -/
theorem ctxByte_writeSponge_congr {d e : Data} (hd : Memory.wf d.mem = true) (he : Memory.wf e.mem = true) {w : Sponge}
    (hl : w.sa.length = 200) {i : Nat} (hi : i < 200 ∨ i = 203) :
    ctxByte (writeSponge w e) i = ctxByte (writeSponge w d) i := by
  have hfit : 0 + w.sa.length ≤ 256 := by omega
  rcases hi with hi | rfl
  · have hsa {g : Data} (hg : Memory.wf g.mem = true) : ctxByte (writeSponge w g) i = w.sa[i] := by
      rw [writeSponge, ctxByte_writeCtx_other _ _ _ _ (by omega)]
      have hbyte := ctxByte_writeCtx_same hg hfit (i := i) (by omega)
      rwa [Nat.zero_add] at hbyte
    rw [hsa he, hsa hd]
  · have hpos {g : Data} (hg : Memory.wf g.mem = true) : ctxByte (writeSponge w g) 203 = BitVec.ofNat 8 w.pos :=
      ctxByte_writeCtx_same (wf_writeCtx hg hfit) (off := 203) (bs := [BitVec.ofNat 8 w.pos]) (by simp) (i := 0)
        (by simp)
    rw [hpos he, hpos hd]

/-- Two write-backs of one sponge leave the same `CTX` when the bytes beside `SA` and `POS` agree. -/
theorem readCtx_writeSponge_congr {d e : Data} (hd : Memory.wf d.mem = true) (he : Memory.wf e.mem = true) {w : Sponge}
    (hl : w.sa.length = 200) {n : Nat} (h : ∀ i, i < n → 200 ≤ i → i ≠ 203 → ctxByte e i = ctxByte d i) :
    readCtx (writeSponge w e) 0 n = readCtx (writeSponge w d) 0 n := by
  refine readCtx_ext fun i hi => ?_
  by_cases hother : 200 ≤ i ∧ i ≠ 203
  · obtain ⟨h200, h203⟩ := hother
    rw [ctxByte_writeSponge_other hl _ h200 h203, ctxByte_writeSponge_other hl _ h200 h203, h i hi h200 h203]
  · exact ctxByte_writeSponge_congr hd he hl (by omega)

theorem readDat_writeSponge {w : Sponge} (hl : w.sa.length = 200) (d : Data) (i n : Nat) :
    readDat (writeSponge w d) i n = readDat d i n := by
  rw [writeSponge, readDat_writeCtx _ _ _ _ _ (by simp), readDat_writeCtx _ _ _ _ _ (by omega)]

theorem readDat_writePhase (b : Byte) (d : Data) (i n : Nat) : readDat (writePhase b d) i n = readDat d i n :=
  readDat_writeCtx d 255 [b] i n (by simp)

/-- All of `DAT` after a write to its front. -/
theorem readDat_writeDat_all {d : Data} (h : Memory.wf d.mem = true) {bs : List Byte} (hl : bs.length ≤ 256) :
    readDat (writeDat 0 bs d) 0 256 = bs ++ readDat d bs.length (256 - bs.length) := by
  have hsplit := readBytes_append (writeDat 0 bs d).mem datBase bs.length (256 - bs.length)
  rw [Nat.add_sub_of_le hl] at hsplit
  refine hsplit.trans (congrArg₂ _ (readDat_writeDat_same h (by omega)) ?_)
  exact readBytes_writeBytes_other bs d.mem _ _ _ (.inr (by omega))

/-! ### The context -/

theorem readSponge_writeDat (bs : List Byte) (d : Data) : readSponge (writeDat 0 bs d) = readSponge d := by
  have hbyte (i : Nat) (hi : i < 256) : ctxByte (writeDat 0 bs d) i = ctxByte d i := ctxByte_writeDat d 0 bs i hi
  simp only [readSponge, readCtx_writeDat d 0 bs 0 200 (by omega), hbyte 200 (by omega), hbyte 201 (by omega),
    hbyte 202 (by omega), hbyte 203 (by omega), hbyte 204 (by omega)]

theorem readSponge_writePhase (b : Byte) (d : Data) : readSponge (writePhase b d) = readSponge d := by
  have hbyte (i : Nat) (hi : i < 255) : ctxByte (writePhase b d) i = ctxByte d i :=
    ctxByte_writeCtx_other d 255 [b] i (.inl hi)
  have hsa : readCtx (writePhase b d) 0 200 = readCtx d 0 200 := readCtx_writeCtx_other d 255 [b] 0 200 (by omega)
  simp only [readSponge, hsa, hbyte 200 (by omega), hbyte 201 (by omega), hbyte 202 (by omega), hbyte 203 (by omega),
    hbyte 204 (by omega)]

theorem ctxPhase_writePhase {d : Data} (h : Memory.wf d.mem = true) (b : Byte) :
    ctxPhase (writePhase b d) = b.toNat :=
  congrArg BitVec.toNat (ctxByte_writeCtx_same h (off := 255) (bs := [b]) (by simp) (i := 0) (by simp))

theorem ctxKind_writePhase (b : Byte) (d : Data) : ctxKind (writePhase b d) = ctxKind d :=
  congrArg BitVec.toNat (ctxByte_writeCtx_other d 255 [b] 254 (by omega))

theorem ctxKindPhase_writeDat (bs : List Byte) (d : Data) :
    ctxKind (writeDat 0 bs d) = ctxKind d ∧ ctxPhase (writeDat 0 bs d) = ctxPhase d :=
  ⟨congrArg BitVec.toNat (ctxByte_writeDat d 0 bs 254 (by omega)),
    congrArg BitVec.toNat (ctxByte_writeDat d 0 bs 255 (by omega))⟩

/-- The header checks in terms of the context that was read (44_keccak.md R219). -/
theorem spongeHeader_iff (need : Nat) (d : Data) : spongeHeader need d ↔
    (readSponge d).rate % 8 = 0 ∧ 8 ≤ (readSponge d).rate ∧ (readSponge d).rate ≤ 192 ∧
    1 ≤ (readSponge d).dsuf.toNat ∧ (readSponge d).dsuf.toNat ≤ 0x7F ∧
    ((readSponge d).nr = 12 ∨ (readSponge d).nr = 24) ∧ (readSponge d).dlen ≤ 64 ∧
    (need = 1 → (readSponge d).pos < (readSponge d).rate) ∧ (need = 2 → (readSponge d).pos ≤ (readSponge d).rate) :=
  Iff.rfl

section
variable {need : Nat} {d : Data} (hr : spongeReady need d)
include hr

/-- The rate of an accepted context is positive and leaves room for `POS` in its byte (44_keccak.md R219). -/
theorem rate_bounds_of_spongeReady : 0 < (readSponge d).rate ∧ (readSponge d).rate < 256 := by
  obtain ⟨-, -, -, hlow, hhigh, -⟩ := hr
  exact ⟨Nat.lt_of_lt_of_le (by omega) hlow, Nat.lt_of_le_of_lt hhigh (by omega)⟩

/-- A digest fits in `DAT` (44_keccak.md R219). -/
theorem dlen_le_of_spongeReady : (readSponge d).dlen ≤ 256 := by
  obtain ⟨-, -, -, -, -, -, -, -, hdlen, -⟩ := hr
  exact Nat.le_trans hdlen (by omega)

/-- A write-back reads back as it is. -/
theorem readSponge_writeSponge_self (hwf : Memory.wf d.mem = true) {w : Sponge} (hw : w.ComesFrom d) :
    readSponge (writeSponge w d) = w := by
  have hlt := (rate_bounds_of_spongeReady hr).2
  have hl := hw.sa_length
  obtain ⟨⟨hrate, hdsuf, hnr, hdlen, -⟩, hpos⟩ := hw
  rw [readSponge_writeSponge hwf hl (by omega)]
  simp only [← hrate, ← hdsuf, ← hnr, ← hdlen]

/-- A context with the configuration of an accepted one and `POS` in range is accepted. -/
theorem spongeReady_of_comesFrom {need' : Nat} {e : Data} (hw : (readSponge e).ComesFrom d) (hk : ctxKind e = 1)
    (hp : ctxPhase e = need') (hpos : need' = 1 → (readSponge e).pos < (readSponge e).rate) :
    spongeReady need' e := by
  obtain ⟨-, -, hheader⟩ := hr
  obtain ⟨⟨hrate, hdsuf, hnr, hdlen, -⟩, hle⟩ := hw
  obtain ⟨h8, hlow, hhigh, hds, hds', hn, hdl, -⟩ := (spongeHeader_iff need d).1 hheader
  refine ⟨hk, hp, (spongeHeader_iff need' e).2 ?_⟩
  rw [hrate] at hpos ⊢
  rw [hdsuf, hnr, hdlen]
  exact ⟨h8, hlow, hhigh, hds, hds', hn, hdl, hpos, fun _ => hle⟩

/-- A write to `DAT` leaves an accepted context accepted. -/
theorem spongeReady_writeDat (bs : List Byte) : spongeReady need (writeDat 0 bs d) := by
  obtain ⟨hkind, hphase⟩ := ctxKindPhase_writeDat bs d
  obtain ⟨hk, hp, hheader⟩ := hr
  refine ⟨hkind.trans hk, hphase.trans hp, (spongeHeader_iff need _).2 ?_⟩
  rw [readSponge_writeDat]
  exact (spongeHeader_iff need d).1 hheader

end

theorem pos_lt_of_spongeReady {d : Data} (hr : spongeReady 1 d) : (readSponge d).pos < (readSponge d).rate := by
  obtain ⟨-, -, -, -, -, -, -, -, -, hpos, -⟩ := hr
  exact hpos rfl

theorem pos_le_of_spongeReady {d : Data} (hr : spongeReady 2 d) : (readSponge d).pos ≤ (readSponge d).rate := by
  obtain ⟨-, -, -, -, -, -, -, -, -, -, hpos⟩ := hr
  exact hpos rfl

end Sys2Proof.Machine
end

section
/-! PROOFS. SPINIT: the configuration its word names and the context it creates (44_keccak.md R221 to R223). -/

namespace Sys2Proof.Machine

/-- What SPINIT writes is a fresh context of the configuration (44_keccak.md R221). -/
theorem freshSponge_createSponge (cfg : SpongeConfig) {d : Data} (h : Memory.wf d.mem = true) :
    freshSponge (createSponge cfg d) cfg.rate.toNat cfg.dsuf.toNat cfg.nr.toNat cfg.dlen.toNat := by
  have hclear := wf_clearCtx h
  have hheader : ∀ i (hi : i < 5), ctxByte (createSponge cfg d) (200 + i) =
      [cfg.rate, cfg.dsuf, cfg.nr, 0, cfg.dlen][i] := fun i hi => by
    rw [createSponge, writeKindPhase, ctxByte_writeCtx_other _ _ _ _ (by omega)]
    exact ctxByte_writeCtx_same hclear (by simp) hi
  have hzero : ∀ i, i < 256 → i ∉ [200, 201, 202, 203, 204, 254, 255] → ctxByte (createSponge cfg d) i = 0 := by
    intro i hi hne
    simp only [List.mem_cons, List.not_mem_nil, or_false] at hne
    have hkp : i < 254 ∨ 254 + [(1 : Byte), 1].length ≤ i := by simp only [List.length_cons, List.length_nil]; omega
    have hhd : i < 200 ∨ 200 + [cfg.rate, cfg.dsuf, cfg.nr, 0, cfg.dlen].length ≤ i := by
      simp only [List.length_cons, List.length_nil]
      omega
    rw [createSponge, writeKindPhase, ctxByte_writeCtx_other _ _ _ _ hkp,
      ctxByte_writeCtx_other _ _ _ _ hhd, ctxByte_clearCtx h hi]
  obtain ⟨hkind, hphase⟩ := ctxKindPhase_writeKindPhase (wf_writeCtx hclear (off := 200)
    (bs := [cfg.rate, cfg.dsuf, cfg.nr, 0, cfg.dlen]) (by simp)) 1 1
  exact ⟨congrArg BitVec.toNat (hheader 0 (by omega)), congrArg BitVec.toNat (hheader 1 (by omega)),
    congrArg BitVec.toNat (hheader 2 (by omega)), congrArg BitVec.toNat (hheader 3 (by omega)),
    congrArg BitVec.toNat (hheader 4 (by omega)), hkind, hphase, hzero⟩

/-- Creating a context changes `CTX` only. -/
theorem onlyCtx_createSponge (cfg : SpongeConfig) (d : Data) : onlyBytes [(ctxBase, 256)] d (createSponge cfg d) := by
  have hclear : onlyBytes [(ctxBase, 256)] d (clearCtx d) :=
    onlyCtx_writeCtx (by rw [Nat.zero_add, List.length_replicate]) d
  have hheader := onlyBytes_trans_same hclear
    (onlyCtx_writeCtx (off := 200) (bs := [cfg.rate, cfg.dsuf, cfg.nr, 0, cfg.dlen]) (by simp) _)
  exact onlyBytes_trans_same hheader (onlyCtx_writeCtx (off := 254) (bs := [1, 1]) (by simp) _)

/-- SPINIT completes with a fresh context when its word names a configuration (44_keccak.md R221). -/
theorem exec_spinit {mode : BitVec 8} {len : BitVec 16} {cfg : SpongeConfig} (h : spinitConfig mode len = .ok cfg)
    (s : State) : exec (.spinit mode len) s = .next (finishedWith s (createSponge cfg s.data)) := by
  change completeCommand s (spinitConfig mode len >>= _) = _
  rw [h]
  rfl

/-- SPINIT with a named configuration creates its context and changes nothing else. -/
theorem exec_spinit_fresh {mode : BitVec 8} {len : BitVec 16} {cfg : SpongeConfig} (h : spinitConfig mode len = .ok cfg)
    {s : State} (hwf : Memory.wf s.data.mem = true) : ∃ t, exec (.spinit mode len) s = .next t ∧ completes s t ∧
      freshSponge t.data cfg.rate.toNat cfg.dsuf.toNat cfg.nr.toNat cfg.dlen.toNat ∧
      onlyBytes [(ctxBase, 256)] s.data t.data :=
  ⟨_, exec_spinit h s, completes_finishedWith s _, freshSponge_createSponge cfg hwf, onlyCtx_createSponge cfg s.data⟩

/-- A row of the table of presets: mode, rate, suffix byte, digest length (44_keccak.md R223). -/
abbrev PresetRow := BitVec 8 × Nat × Nat × Nat

/-- The configuration that a row of the table names; every preset runs 24 rounds. -/
def PresetRow.config (x : PresetRow) : SpongeConfig :=
  ⟨BitVec.ofNat 8 x.2.1, BitVec.ofNat 8 x.2.2.1, 24, BitVec.ofNat 8 x.2.2.2⟩

/-- The RAW word packs rate, suffix byte and the choice of rounds (44_keccak.md R222). -/
theorem rawConfig_packed {rate dsuf : Nat} (twelve : Bool) (h8 : rate % 8 = 0) (hlow : 8 ≤ rate) (hhigh : rate ≤ 192)
    (hd : 1 ≤ dsuf) (hd' : dsuf ≤ 0x7F) :
    rawConfig (BitVec.ofNat 16 (rate + 256 * dsuf + if twelve then 0x8000 else 0)) =
      .ok ⟨BitVec.ofNat 8 rate, BitVec.ofNat 8 dsuf, if twelve then 12 else 24, 0⟩ := by
  generalize hlen : BitVec.ofNat 16 (rate + 256 * dsuf + if twelve then 0x8000 else 0) = len
  have hflag : (if twelve then 0x8000 else 0) = 0x8000 * twelve.toNat := by cases twelve <;> rfl
  have hone := twelve.toNat_le
  have hval : len.toNat = rate + 256 * dsuf + 0x8000 * twelve.toNat := by
    rw [← hlen, hflag, BitVec.toNat_ofNat, Nat.mod_eq_of_lt (by omega)]
  have hrate : len.extractLsb' 0 8 = BitVec.ofNat 8 rate := by
    apply BitVec.eq_of_toNat_eq
    rw [BitVec.extractLsb'_toNat, Nat.shiftRight_zero, hval, BitVec.toNat_ofNat]
    omega
  have hdsuf : (0#1 ++ len.extractLsb' 8 7 : Byte) = BitVec.ofNat 8 dsuf := by
    apply BitVec.eq_of_toNat_eq
    simp only [BitVec.toNat_append, BitVec.toNat_ofNat, BitVec.extractLsb'_toNat, hval, Nat.zero_mod,
      Nat.zero_shiftLeft, Nat.zero_or, Nat.shiftRight_eq_div_pow]
    omega
  have hbit : len.getLsbD 15 = twelve := by
    have htop : (rate + 256 * dsuf + 0x8000 * twelve.toNat) / 2 ^ 15 % 2 = twelve.toNat := by omega
    rw [← BitVec.testBit_toNat, hval, Nat.testBit_eq_decide_div_mod_eq, htop]
    cases twelve <;> rfl
  have hrange : (BitVec.ofNat 8 rate).toNat % 8 = 0 ∧ 8 ≤ (BitVec.ofNat 8 rate).toNat ∧
      (BitVec.ofNat 8 rate).toNat ≤ 192 := by
    rw [BitVec.toNat_ofNat]
    omega
  have hne : BitVec.ofNat 8 dsuf ≠ 0 := fun h => by
    have hzero : dsuf % 2 ^ 8 = 0 := congrArg BitVec.toNat h
    omega
  simp only [rawConfig, hrate, hdsuf, hbit, require_true _ hrange, require_true _ hne, exceptBind_ok, exceptPure]

/-- Settles O45: the word names a configuration, from the table or packed in `LEN`, and SPINIT creates its context. -/
theorem spongeCreate : Obligations.SpongeCreate := by
  refine fun s hwf => ⟨fun x hx => ?_, fun rate dsuf twelve h8 hlow hhigh hd hd' => ?_⟩
  · obtain ⟨hcfg, hrate, hdsuf, hdlen⟩ : spinitConfig x.1 0 = .ok (PresetRow.config x) ∧
        (PresetRow.config x).rate.toNat = x.2.1 ∧ (PresetRow.config x).dsuf.toNat = x.2.2.1 ∧
        (PresetRow.config x).dlen.toNat = x.2.2.2 := by
      revert x
      decide
    have hfresh := exec_spinit_fresh hcfg hwf
    rwa [hrate, hdsuf, hdlen] at hfresh
  · have hfresh := exec_spinit_fresh (mode := 10) (rawConfig_packed twelve h8 hlow hhigh hd hd') hwf
    have hnr : (if twelve then 12 else 24 : Byte).toNat = if twelve then 12 else 24 := by cases twelve <;> rfl
    simp only [hnr, BitVec.toNat_ofNat] at hfresh
    rwa [Nat.mod_eq_of_lt (by omega), Nat.mod_eq_of_lt (by omega)] at hfresh

end Sys2Proof.Machine
end

section
/-! PROOFS. SPABS, SPFIN, SPSQZ, SPDIG: the data state each leaves on an accepted context, and which check of a refused
one answers (44_keccak.md R219, R225 to R228). -/

namespace Sys2Proof.Machine

/-! ### The data states the commands leave -/

/-- The data state after absorbing the first `n` bytes of `DAT` (44_keccak.md R225). -/
def absorbData (n : Nat) (d : Data) : Data := writeSponge ((readDat d 0 n).foldl absorbByte (readSponge d)) d

/-- The data state after padding and opening the squeezing phase (44_keccak.md R226). -/
def finishData (d : Data) : Data := writePhase 2 (writeSponge (finishSponge (readSponge d)) d)

/-- The data state after `n` bytes squeezed from the sponge `v` were delivered (44_keccak.md R227). -/
def deliverData (n : Nat) (v : Sponge) (d : Data) : Data :=
  writeDat 0 (squeezeBytes n v).1 (writeSponge (squeezeBytes n v).2 d)

/-- The data state after the digest was delivered and the context closed (44_keccak.md R228). -/
def digestData (d : Data) : Data := writePhase 3 (deliverData (readSponge d).dlen (finishSponge (readSponge d)) d)

/-! ### The commands -/

/-- A sponge command on an accepted context runs its rule on the context read (44_keccak.md R219). -/
theorem completeCommand_spctx {need : Nat} {s : State} (h : spongeReady need s.data)
    (g : Sponge → Except Failure Data) :
    completeCommand s (spctx need s.data >>= g) = completeCommand s (g (readSponge s.data)) := by
  rw [spctx_ok h, exceptBind_ok]

/-- The four commands make the checks of the context first, each for its phase (44_keccak.md R219). -/
theorem exec_eq_spctx_bind (s : State) (len : BitVec 16) {x : Instr × Nat}
    (hx : x ∈ [(Instr.spabs len, 1), (.spfin, 1), (.spdig, 1), (.spsqz len, 2)]) :
    ∃ g, exec x.1 s = completeCommand s (spctx x.2 s.data >>= g) := by
  simp only [List.mem_cons, List.not_mem_nil, or_false] at hx
  rcases hx with rfl | rfl | rfl | rfl <;> exact ⟨_, rfl⟩

section
variable {s : State} {len : BitVec 16}

theorem exec_spabs_eq (h : spongeReady 1 s.data) : exec (.spabs len) s =
    completeCommand s (require (len.toNat ≤ 256) .badLength >>= fun _ => .ok (absorbData len.toNat s.data)) :=
  completeCommand_spctx h fun v => require (len.toNat ≤ 256) .badLength >>= fun _ =>
    .ok (writeSponge ((readDat s.data 0 len.toNat).foldl absorbByte v) s.data)

theorem exec_spfin (h : spongeReady 1 s.data) : exec .spfin s = .next (finishedWith s (finishData s.data)) :=
  completeCommand_spctx h fun v => .ok (writePhase 2 (writeSponge (finishSponge v) s.data))

theorem exec_spsqz_eq (h : spongeReady 2 s.data) : exec (.spsqz len) s =
    completeCommand s (require (len ≠ 0) .zeroLength >>= fun _ => require (len.toNat ≤ 256) .badLength >>= fun _ =>
      .ok (deliverData len.toNat (readSponge s.data) s.data)) :=
  completeCommand_spctx h fun v => require (len ≠ 0) .zeroLength >>= fun _ =>
    require (len.toNat ≤ 256) .badLength >>= fun _ => .ok (deliverData len.toNat v s.data)

theorem exec_spdig_eq (h : spongeReady 1 s.data) : exec .spdig s =
    completeCommand s (require ((readSponge s.data).dlen ≠ 0) .zeroLength >>= fun _ => .ok (digestData s.data)) :=
  completeCommand_spctx h fun v => require (v.dlen ≠ 0) .zeroLength >>= fun _ =>
    .ok (writePhase 3 (deliverData v.dlen (finishSponge v) s.data))

theorem exec_spabs (h : spongeReady 1 s.data) (hlen : len.toNat ≤ 256) :
    exec (.spabs len) s = .next (finishedWith s (absorbData len.toNat s.data)) := by
  rw [exec_spabs_eq h, require_true _ hlen, exceptBind_ok, completeCommand_ok]

theorem exec_spsqz (h : spongeReady 2 s.data) (hne : len ≠ 0) (hlen : len.toNat ≤ 256) :
    exec (.spsqz len) s = .next (finishedWith s (deliverData len.toNat (readSponge s.data) s.data)) := by
  rw [exec_spsqz_eq h, require_true _ hne, exceptBind_ok, require_true _ hlen, exceptBind_ok, completeCommand_ok]

theorem exec_spdig (h : spongeReady 1 s.data) (hne : (readSponge s.data).dlen ≠ 0) :
    exec .spdig s = .next (finishedWith s (digestData s.data)) := by
  rw [exec_spdig_eq h, require_true _ hne, exceptBind_ok, completeCommand_ok]

end

/-- Settles O51: the context's two checks come first in every command, then each command's own. -/
theorem spongeErrors : Obligations.SpongeErrors := by
  refine fun s len => ⟨fun x hx => ?_, fun hr hlen => ?_, fun hr hzero => ?_, fun hr => ?_, fun hr hlen => ?_⟩
  · obtain ⟨g, hg⟩ := exec_eq_spctx_bind s len hx
    rw [hg]
    exact ⟨fun hs => completeCommand_bind_error (spctx_wrongState (not_and_or.2 hs)) s g,
      fun hk hp hh => completeCommand_bind_error (spctx_badHeader ⟨hk, hp⟩ hh) s g⟩
  · exact (exec_spabs_eq hr).trans (completeCommand_bind_error (require_false _ (by omega)) s _)
  · have hdlen : (readSponge s.data).dlen = 0 := congrArg BitVec.toNat hzero
    exact (exec_spdig_eq hr).trans (completeCommand_bind_error (require_false _ (not_not.2 hdlen)) s _)
  · exact (exec_spsqz_eq hr).trans (completeCommand_bind_error (require_false _ (not_not.2 rfl)) s _)
  · have hne : len ≠ 0 := fun h => absurd (h ▸ hlen) (by decide)
    rw [exec_spsqz_eq hr, require_true _ hne, exceptBind_ok]
    exact completeCommand_bind_error (require_false _ (by omega)) s _

end Sys2Proof.Machine
end

section
/-! PROOFS. What the data states that the sponge commands leave hold: the context read back, the bytes delivered, the
frame (44_keccak.md R225 to R228). -/

namespace Sys2Proof.Machine

/-! ### A delivery -/

theorem onlyBytes_deliverData (n : Nat) {v : Sponge} {d : Data} (hv : (squeezeBytes n v).2.ComesFrom d) :
    onlyBytes [(ctxBase, 200), (ctxBase + 203, 1), (datBase, n)] d (deliverData n v d) := by
  have hdat := onlyBytes_writeDat 0 (squeezeBytes n v).1 (writeSponge (squeezeBytes n v).2 d)
  rw [squeezeBytes_length] at hdat
  exact onlyBytes_trans (onlyBytes_writeSponge hv.sa_length d) hdat

theorem wf_deliverData {n : Nat} (hn : n ≤ 256) {v : Sponge} {d : Data} (hwf : Memory.wf d.mem = true)
    (hv : (squeezeBytes n v).2.ComesFrom d) : Memory.wf (deliverData n v d).mem = true :=
  wf_writeDat (wf_writeSponge hwf hv.sa_length) (by rw [squeezeBytes_length]; omega)

theorem readDat_deliverData {n : Nat} (hn : n ≤ 256) {v : Sponge} {d : Data} (hwf : Memory.wf d.mem = true)
    (hv : (squeezeBytes n v).2.ComesFrom d) : readDat (deliverData n v d) 0 n = (squeezeBytes n v).1 :=
  readDat_writeDat_front (wf_writeSponge hwf hv.sa_length) (squeezeBytes_length n v) hn

theorem ctxKindPhase_deliverData (n : Nat) {v : Sponge} {d : Data} (hv : (squeezeBytes n v).2.ComesFrom d) :
    ctxKind (deliverData n v d) = ctxKind d ∧ ctxPhase (deliverData n v d) = ctxPhase d := by
  obtain ⟨hkind, hphase⟩ := ctxKindPhase_writeDat (squeezeBytes n v).1 (writeSponge (squeezeBytes n v).2 d)
  obtain ⟨hkind', hphase'⟩ := ctxKindPhase_writeSponge hv.sa_length d
  exact ⟨hkind.trans hkind', hphase.trans hphase'⟩

theorem readSponge_deliverData {need n : Nat} {v : Sponge} {d : Data} (hr : spongeReady need d)
    (hwf : Memory.wf d.mem = true) (hv : (squeezeBytes n v).2.ComesFrom d) :
    readSponge (deliverData n v d) = (squeezeBytes n v).2 :=
  (readSponge_writeDat _ _).trans (readSponge_writeSponge_self hr hwf hv)

/-- All of `DAT` after a delivery. -/
theorem readDat_deliverData_all {n : Nat} (hn : n ≤ 256) {v : Sponge} {d : Data} (hwf : Memory.wf d.mem = true)
    (hv : (squeezeBytes n v).2.ComesFrom d) :
    readDat (deliverData n v d) 0 256 = (squeezeBytes n v).1 ++ readDat d n (256 - n) := by
  have hall := readDat_writeDat_all (wf_writeSponge hwf hv.sa_length) (bs := (squeezeBytes n v).1)
    (by rwa [squeezeBytes_length])
  rwa [squeezeBytes_length, readDat_writeSponge hv.sa_length] at hall

/-- A delivery leaves the `CTX` of its write-back. -/
theorem readCtx_deliverData (n : Nat) (v : Sponge) (d : Data) {k : Nat} (hk : k ≤ 256) :
    readCtx (deliverData n v d) 0 k = readCtx (writeSponge (squeezeBytes n v).2 d) 0 k :=
  readCtx_writeDat _ 0 _ 0 k (by omega)

/-- A delivery leaves every byte of `CTX` but `SA` and `POS` alone. -/
theorem ctxByte_deliverData_other {n : Nat} {v : Sponge} {d : Data} (hv : (squeezeBytes n v).2.ComesFrom d) {i : Nat}
    (hi : i < 256) (h200 : 200 ≤ i) (h203 : i ≠ 203) : ctxByte (deliverData n v d) i = ctxByte d i :=
  (ctxByte_writeDat _ 0 _ i hi).trans (ctxByte_writeSponge_other hv.sa_length d h200 h203)

/-! ### Absorbing and the digest -/

section
variable {d : Data} (hr : spongeReady 1 d) (hwf : Memory.wf d.mem = true)
include hr

theorem onlyBytes_absorbData (n : Nat) : onlyBytes [(ctxBase, 200), (ctxBase + 203, 1)] d (absorbData n d) :=
  onlyBytes_writeSponge (comesFrom_absorb _ (pos_lt_of_spongeReady hr)).sa_length d

theorem comesFrom_digest (n : Nat) : (squeezeBytes n (finishSponge (readSponge d))).2.ComesFrom d :=
  (comesFrom_finish d).squeeze (rate_bounds_of_spongeReady hr).1 n

theorem onlyBytes_digestData : onlyBytes
    [(ctxBase, 200), (ctxBase + 203, 1), (ctxBase + 255, 1), (datBase, (readSponge d).dlen)] d (digestData d) := by
  refine onlyBytes_mono (onlyBytes_trans (onlyBytes_deliverData _ (comesFrom_digest hr _))
    (onlyBytes_writeCtx 255 [3] _)) fun a ha r hmem => ha r ?_
  simp only [List.cons_append, List.nil_append, List.mem_cons, List.not_mem_nil, or_false] at hmem ⊢
  tauto

include hwf

theorem wf_absorbData (n : Nat) : Memory.wf (absorbData n d).mem = true :=
  wf_writeSponge hwf (comesFrom_absorb _ (pos_lt_of_spongeReady hr)).sa_length

theorem readSponge_absorbData (n : Nat) :
    readSponge (absorbData n d) = (readDat d 0 n).foldl absorbByte (readSponge d) :=
  readSponge_writeSponge_self hr hwf (comesFrom_absorb _ (pos_lt_of_spongeReady hr))

/-- Absorbing leaves `POS` below the rate, as the permutation runs as soon as a block is full (44_keccak.md R218). -/
theorem pos_lt_rate_absorbData (n : Nat) :
    (readSponge (absorbData n d)).pos < (readSponge (absorbData n d)).rate := by
  obtain ⟨⟨hrate, -⟩, hpos⟩ := absorbBytes_keeps (readDat d 0 n) (readSponge d)
  rw [readSponge_absorbData hr hwf, hrate]
  exact hpos (pos_lt_of_spongeReady hr)

/-- An absorbing context still absorbs after SPABS. -/
theorem spongeReady_absorbData (n : Nat) : spongeReady 1 (absorbData n d) := by
  have hfrom := comesFrom_absorb (readDat d 0 n) (pos_lt_of_spongeReady hr)
  obtain ⟨hkind, hphase⟩ := ctxKindPhase_writeSponge hfrom.sa_length d
  have ⟨hk, hp, _⟩ := hr
  refine spongeReady_of_comesFrom hr ?_ (hkind.trans hk) (hphase.trans hp) fun _ => pos_lt_rate_absorbData hr hwf n
  rwa [readSponge_absorbData hr hwf]

end

/-! ### Finishing -/

section
variable {d : Data} (hr : spongeReady 1 d) (hwf : Memory.wf d.mem = true)
include hwf

theorem wf_finishData : Memory.wf (finishData d).mem = true :=
  wf_writePhase (wf_writeSponge hwf (comesFrom_finish d).sa_length) 2

theorem ctxPhase_finishData : ctxPhase (finishData d) = 2 :=
  ctxPhase_writePhase (wf_writeSponge hwf (comesFrom_finish d).sa_length) 2

include hr

theorem readSponge_finishData : readSponge (finishData d) = finishSponge (readSponge d) :=
  (readSponge_writePhase 2 _).trans (readSponge_writeSponge_self hr hwf (comesFrom_finish d))

/-- SPFIN opens the squeezing phase. -/
theorem spongeReady_finishData : spongeReady 2 (finishData d) := by
  obtain ⟨hkind, -⟩ := ctxKindPhase_writeSponge (comesFrom_finish d).sa_length d
  have hk := (ctxKind_writePhase 2 _).trans (hkind.trans hr.1)
  refine spongeReady_of_comesFrom hr ?_ hk (ctxPhase_finishData hwf) nofun
  rw [readSponge_finishData hr hwf]
  exact comesFrom_finish d

end

theorem onlyBytes_finishData (d : Data) :
    onlyBytes [(ctxBase, 200), (ctxBase + 203, 1), (ctxBase + 255, 1)] d (finishData d) :=
  onlyBytes_trans (onlyBytes_writeSponge (comesFrom_finish d).sa_length d) (onlyBytes_writeCtx 255 [2] _)

/-! ### The obligations -/

/-- Settles O46: the byte actions by their exclusive-ors, then both commands by the sponge they write back. -/
theorem spongeAbsorb : Obligations.SpongeAbsorb := by
  refine ⟨fun v b sa hv hpos hrate hl => ⟨absorbByte_eq hv (by omega) hl, finishSponge_eq hv hpos hrate hl⟩,
    fun s hwf hr => ⟨fun len hlen => ?_, ?_⟩⟩
  · exact ⟨_, exec_spabs hr hlen, completes_finishedWith s _, readSponge_absorbData hr hwf _,
      pos_lt_rate_absorbData hr hwf _, onlyBytes_absorbData hr _⟩
  · have hsponge := readSponge_finishData hr hwf
    have hzero : (readSponge (finishData s.data)).pos = 0 := hsponge ▸ (finishSponge_keeps _).2
    exact ⟨_, exec_spfin hr, completes_finishedWith s _, hsponge, hzero, ctxPhase_finishData hwf,
      onlyBytes_finishData s.data⟩

/-- Settles O47: the byte action, its repetition at the end, then both commands by the bytes they deliver. -/
theorem spongeSqueeze : Obligations.SpongeSqueeze := by
  refine ⟨fun v w hw => hw ▸ rfl, fun v n => ⟨rfl, squeezeBytes_add n 1 v⟩, fun s hwf => ⟨?_, ?_⟩⟩
  · intro len hr hne hlen
    have hfrom := (comesFrom_readSponge (pos_le_of_spongeReady hr)).squeeze (rate_bounds_of_spongeReady hr).1 len.toNat
    have hsponge := readSponge_deliverData hr hwf hfrom
    refine ⟨_, exec_spsqz hr hne hlen, completes_finishedWith s _, readDat_deliverData hlen hwf hfrom, hsponge, ?_,
      onlyBytes_deliverData _ hfrom⟩
    obtain ⟨⟨hrate, -⟩, hpos⟩ := hfrom
    rwa [finishedWith_data, hsponge, hrate]
  · rintro n hr rfl hne
    have hfrom := comesFrom_digest hr (readSponge s.data).dlen
    have hn := dlen_le_of_spongeReady hr
    have hphase := ctxPhase_writePhase (wf_deliverData hn hwf hfrom) 3
    refine ⟨_, exec_spdig hr hne, completes_finishedWith s _, ?_, ?_, hphase, onlyBytes_digestData hr⟩
    · exact (readDat_writePhase 3 _ 0 _).trans (readDat_deliverData hn hwf hfrom)
    · exact (readSponge_writePhase 3 _).trans (readSponge_deliverData hr hwf hfrom)

end Sys2Proof.Machine
end

section
/-! PROOFS. How the sponge commands compose: absorbing in pieces, squeezing in pieces, and the digest as a squeeze
(44_keccak.md R225, R228, R230). -/

namespace Sys2Proof.Machine

/-- A sum of two lengths that stays in the buffers does not wrap in `LEN`. -/
theorem toNat_add_of_le {a b : BitVec 16} (h : a.toNat + b.toNat ≤ 256) : (a + b).toNat = a.toNat + b.toNat := by
  rw [BitVec.toNat_add, Nat.mod_eq_of_lt (by omega)]

/-- `DAT` read in two pieces. -/
theorem readDat_add (d : Data) (m n : Nat) : readDat d 0 (m + n) = readDat d 0 m ++ readDat d m n :=
  readBytes_append d.mem datBase m n

/-- Absorbing `n` more bytes from the front of `DAT` leaves the `CTX` of absorbing all at once (44_keccak.md R225). -/
theorem readCtx_absorbData_add {d : Data} (hr : spongeReady 1 d) (hwf : Memory.wf d.mem = true) {m n : Nat}
    (h : m + n ≤ 256) : readCtx (absorbData n (writeDat 0 (readDat d m n) (absorbData m d))) 0 256 =
      readCtx (absorbData (m + n) d) 0 256 := by
  have hwf' := wf_absorbData hr hwf m
  have hfit : 0 + (readDat d m n).length ≤ 256 := by rw [readDat_length]; omega
  have hm := comesFrom_absorb (readDat d 0 m) (pos_lt_of_spongeReady hr)
  have hmn := comesFrom_absorb (readDat d 0 (m + n)) (pos_lt_of_spongeReady hr)
  have hsponge : (readDat (writeDat 0 (readDat d m n) (absorbData m d)) 0 n).foldl absorbByte
      (readSponge (writeDat 0 (readDat d m n) (absorbData m d))) =
      (readDat d 0 (m + n)).foldl absorbByte (readSponge d) := by
    rw [readDat_writeDat_front hwf' (readDat_length ..) (by omega), readSponge_writeDat,
      readSponge_absorbData hr hwf, ← List.foldl_append, ← readDat_add]
  rw [absorbData, hsponge]
  refine readCtx_writeSponge_congr hwf (wf_writeDat hwf' hfit) hmn.sa_length fun i hi h200 h203 => ?_
  rw [ctxByte_writeDat _ _ _ _ hi]
  exact ctxByte_writeSponge_other hm.sa_length d h200 h203

/-- Settles O48: the second SPABS finds an absorbing context and goes on where the first stopped. -/
theorem absorbSplit : Obligations.AbsorbSplit := by
  intro s a b hwf hr hlen
  have hab := toNat_add_of_le hlen
  have hready := spongeReady_writeDat (spongeReady_absorbData hr hwf a.toNat) (readDat s.data a.toNat b.toNat)
  refine ⟨_, _, _, exec_spabs hr (by omega), exec_spabs hready (by omega), exec_spabs hr (by omega), ?_⟩
  rw [hab]
  exact readCtx_absorbData_add hr hwf hlen

section
variable {d : Data} (hr : spongeReady 2 d) (hwf : Memory.wf d.mem = true)
include hr

theorem comesFrom_squeeze (n : Nat) : (squeezeBytes n (readSponge d)).2.ComesFrom d :=
  (comesFrom_readSponge (pos_le_of_spongeReady hr)).squeeze (rate_bounds_of_spongeReady hr).1 n

include hwf

/-- A squeezing context still squeezes after SPSQZ. -/
theorem spongeReady_deliverData (n : Nat) : spongeReady 2 (deliverData n (readSponge d) d) := by
  have hfrom := comesFrom_squeeze hr n
  obtain ⟨hkind, hphase⟩ := ctxKindPhase_deliverData n hfrom
  have ⟨hk, hp, _⟩ := hr
  refine spongeReady_of_comesFrom hr ?_ (hkind.trans hk) (hphase.trans hp) nofun
  rwa [readSponge_deliverData hr hwf hfrom]

/-- Squeezing `n` more bytes leaves the `CTX` of squeezing all at once (44_keccak.md R230). -/
theorem readCtx_deliverData_add {m : Nat} (hm : m ≤ 256) (n : Nat) :
    readCtx (deliverData n (readSponge (deliverData m (readSponge d) d)) (deliverData m (readSponge d) d)) 0 256 =
      readCtx (deliverData (m + n) (readSponge d) d) 0 256 := by
  have hfrom := comesFrom_squeeze hr m
  have hsponge : (squeezeBytes n (readSponge (deliverData m (readSponge d) d))).2 =
      (squeezeBytes (m + n) (readSponge d)).2 := by
    rw [readSponge_deliverData hr hwf hfrom, squeezeBytes_add]
  rw [readCtx_deliverData _ _ _ (le_refl 256), readCtx_deliverData _ _ _ (le_refl 256), hsponge]
  exact readCtx_writeSponge_congr hwf (wf_deliverData hm hwf hfrom) (comesFrom_squeeze hr _).sa_length
    fun i hi h200 h203 => ctxByte_deliverData_other hfrom hi h200 h203

/-- Two squeezes deliver the bytes of one (44_keccak.md R230). -/
theorem readDat_deliverData_add {m n : Nat} (h : m + n ≤ 256) :
    readDat (deliverData (m + n) (readSponge d) d) 0 (m + n) = readDat (deliverData m (readSponge d) d) 0 m ++
      readDat (deliverData n (readSponge (deliverData m (readSponge d) d)) (deliverData m (readSponge d) d)) 0 n := by
  have hfrom := comesFrom_squeeze hr m
  have hready := spongeReady_deliverData hr hwf m
  rw [readDat_deliverData h hwf (comesFrom_squeeze hr _), readDat_deliverData (by omega) hwf hfrom,
    readDat_deliverData (by omega) (wf_deliverData (by omega) hwf hfrom) (comesFrom_squeeze hready n),
    readSponge_deliverData hr hwf hfrom, squeezeBytes_add]

end

/-- Settles O49: the second SPSQZ goes on with the context that the first one left. -/
theorem squeezeStream : Obligations.SqueezeStream := by
  intro s a b hwf hr ha hb hlen
  have hab := toNat_add_of_le hlen
  have hne : a + b ≠ 0 := fun h => ha (BitVec.eq_of_toNat_eq (by
    have hzero : (a + b).toNat = 0 := congrArg BitVec.toNat h
    change a.toNat = 0
    omega))
  refine ⟨_, _, _, exec_spsqz hr ha (by omega),
    exec_spsqz (spongeReady_deliverData hr hwf a.toNat) hb (by omega), exec_spsqz hr hne (by omega), ?_⟩
  rw [hab]
  exact ⟨readDat_deliverData_add hr hwf hlen, readCtx_deliverData_add hr hwf (by omega) b.toNat⟩

section
variable {d : Data} (hr : spongeReady 1 d) (hwf : Memory.wf d.mem = true)
include hr hwf

/-- What is squeezed after padding can be written back to the context that SPFIN leaves. -/
theorem comesFrom_finishData (n : Nat) :
    (squeezeBytes n (finishSponge (readSponge d))).2.ComesFrom (finishData d) := by
  have hfrom := comesFrom_squeeze (spongeReady_finishData hr hwf) n
  rwa [readSponge_finishData hr hwf] at hfrom

/-- SPDIG delivers what SPSQZ of the digest length delivers after SPFIN (44_keccak.md R228). -/
theorem readDat_digestData : readDat (digestData d) 0 256 =
    readDat (deliverData (readSponge d).dlen (finishSponge (readSponge d)) (finishData d)) 0 256 := by
  have hn := dlen_le_of_spongeReady hr
  have hdat (i n : Nat) : readDat (finishData d) i n = readDat d i n :=
    (readDat_writePhase 2 _ i n).trans (readDat_writeSponge (comesFrom_finish d).sa_length d i n)
  rw [digestData, readDat_writePhase, readDat_deliverData_all hn hwf (comesFrom_digest hr _),
    readDat_deliverData_all hn (wf_finishData hwf) (comesFrom_finishData hr hwf _), hdat]

/-- SPDIG leaves the `CTX`, but for the phase, that SPSQZ leaves after SPFIN (44_keccak.md R228). -/
theorem readCtx_digestData : readCtx (digestData d) 0 255 =
    readCtx (deliverData (readSponge d).dlen (finishSponge (readSponge d)) (finishData d)) 0 255 := by
  rw [digestData, writePhase, readCtx_writeCtx_other _ _ _ _ _ (by omega), readCtx_deliverData _ _ _ (by omega),
    readCtx_deliverData _ _ _ (by omega)]
  refine (readCtx_writeSponge_congr hwf (wf_finishData hwf) (comesFrom_digest hr _).sa_length
    fun i hi h200 h203 => ?_).symm
  exact (ctxByte_writeCtx_other _ 255 [2] i (.inl hi)).trans
    (ctxByte_writeSponge_other (comesFrom_finish d).sa_length d h200 h203)

end

/-- Settles O50: SPFIN leaves the padded sponge, from which SPSQZ squeezes the bytes that SPDIG delivers. -/
theorem digestIsSqueeze : Obligations.DigestIsSqueeze := by
  intro s hwf hr hdlen
  have hready := spongeReady_finishData hr hwf
  have hlen : ((ctxByte s.data 204).setWidth 16).toNat = (readSponge s.data).dlen := by
    rw [BitVec.toNat_setWidth, Nat.mod_eq_of_lt (by omega)]
    rfl
  have hne : (readSponge s.data).dlen ≠ 0 := fun h => hdlen (BitVec.eq_of_toNat_eq h)
  have hne' : (ctxByte s.data 204).setWidth 16 ≠ 0 := fun h => hne (hlen.symm.trans (congrArg BitVec.toNat h))
  have hn := dlen_le_of_spongeReady hr
  refine ⟨_, _, _, exec_spdig hr hne, exec_spfin hr, exec_spsqz hready hne' (by omega), ?_⟩
  simp only [finishedWith_data, hlen, readSponge_finishData hr hwf]
  obtain ⟨-, hphase⟩ := ctxKindPhase_deliverData (readSponge s.data).dlen (comesFrom_finishData hr hwf _)
  exact ⟨readDat_digestData hr hwf, readCtx_digestData hr hwf,
    ctxPhase_writePhase (wf_deliverData hn hwf (comesFrom_digest hr _)) 3, hphase.trans (ctxPhase_finishData hwf)⟩

end Sys2Proof.Machine
end

section
/-! PROOFS. The BLAKE2 compression function: words of the working vector, the mixing function, the rounds
(45_blake2.md R252 to R254). -/

namespace Sys2Proof.Machine

/-! ### Words of a list -/

theorem wordAt_of_lt {w : Nat} {v : List (BitVec w)} {i : Nat} (h : i < v.length) : wordAt v i = v[i] :=
  List.getD_eq_getElem v 0 h

theorem wordAt_set_self {w : Nat} {v : List (BitVec w)} {i : Nat} (h : i < v.length) (x : BitVec w) :
    wordAt (v.set i x) i = x := by
  rw [wordAt_of_lt (by rwa [List.length_set]), List.getElem_set_self]

theorem wordAt_set_other {w : Nat} (v : List (BitVec w)) {i j : Nat} (h : j ≠ i) (x : BitVec w) :
    wordAt (v.set i x) j = wordAt v j := by
  rw [wordAt, wordAt, List.getD_eq_getElem?_getD, List.getD_eq_getElem?_getD, List.getElem?_set_ne h.symm]

theorem wordAt_append_left {w : Nat} {u : List (BitVec w)} (v : List (BitVec w)) {i : Nat} (h : i < u.length) :
    wordAt (u ++ v) i = wordAt u i := List.getD_append u v 0 i h

/-- The words of the second of two lists follow those of the first. -/
theorem wordAt_append_right {w : Nat} (u v : List (BitVec w)) (i : Nat) :
    wordAt (u ++ v) (u.length + i) = wordAt v i := by
  rw [wordAt, List.getD_append_right u v 0 _ (Nat.le_add_right ..), Nat.add_sub_cancel_left, wordAt]

theorem wordAt_map_range {w n i : Nat} (f : Nat → BitVec w) (h : i < n) : wordAt ((List.range n).map f) i = f i := by
  rw [wordAt_of_lt (by simpa using h), List.getElem_map, List.getElem_range]

/-! ### The mixing function -/

/-- Settles O54: `G` writes its four words one after the other, each at its own index. -/
theorem blake2Mix : Obligations.Blake2Mix := by
  intro w B v a b c d x y hv ha hb hc hd hab hac had hbc hbd hcd a1 d1 c1 b1 a2 d2 c2 b2 ea1 ed1 ec1 eb1 ea2 ed2 ec2 eb2
  have hG : blake2G B a b c d x y v = (((v.set a a2).set b b2).set c c2).set d d2 := by
    subst eb2 ec2 ed2 ea2 eb1 ec1 ed1 ea1
    rfl
  rw [hG]
  refine ⟨?_, ?_, ?_, ?_, fun i _ hia hib hic hid => ?_⟩
  · rw [wordAt_set_other _ had, wordAt_set_other _ hac, wordAt_set_other _ hab, wordAt_set_self (by omega)]
  · rw [wordAt_set_other _ hbd, wordAt_set_other _ hbc, wordAt_set_self (by rw [List.length_set]; omega)]
  · rw [wordAt_set_other _ hcd, wordAt_set_self (by rw [List.length_set, List.length_set]; omega)]
  · rw [wordAt_set_self (by rw [List.length_set, List.length_set, List.length_set]; omega)]
  · rw [wordAt_set_other _ hid, wordAt_set_other _ hic, wordAt_set_other _ hib, wordAt_set_other _ hia]

/-! ### The compression function -/

section Start
variable {w : Nat} (B : Blake2 w) {h : List (BitVec w)} (t : Nat) (final : Bool)

/-- The first half of the working vector is the chaining value. -/
theorem wordAt_blake2Start_low {i : Nat} (hi : i < h.length) : wordAt (blake2Start B h t final) i = wordAt h i :=
  wordAt_append_left _ hi

/-- The second half of the working vector is `IV` with the counter and the flag mixed in. -/
theorem wordAt_blake2Start_high (hl : h.length = 8) (i : Nat) : wordAt (blake2Start B h t final) (8 + i) =
    wordAt [wordAt B.iv 0, wordAt B.iv 1, wordAt B.iv 2, wordAt B.iv 3, wordAt B.iv 4 ^^^ BitVec.ofNat w t,
      wordAt B.iv 5 ^^^ BitVec.ofNat w (t / 2 ^ w),
      if final then wordAt B.iv 6 ^^^ BitVec.allOnes w else wordAt B.iv 6, wordAt B.iv 7] i := by
  rw [← hl]
  exact wordAt_append_right h _ i

/-- The words of `IV` that neither the counter nor the flag touches. -/
theorem wordAt_blake2Start_iv (hl : h.length = 8) {i : Nat} (hi : i < 8) (hother : i ∉ [4, 5, 6]) :
    wordAt (blake2Start B h t final) (8 + i) = wordAt B.iv i := by
  rw [wordAt_blake2Start_high B t final hl]
  have hcases : i = 0 ∨ i = 1 ∨ i = 2 ∨ i = 3 ∨ i = 7 := by
    simp only [List.mem_cons, List.not_mem_nil, or_false, not_or] at hother
    omega
  rcases hcases with rfl | rfl | rfl | rfl | rfl <;> rfl

/-- The low half of the counter (45_blake2.md R254). -/
theorem wordAt_blake2Start_counter (hl : h.length = 8) :
    wordAt (blake2Start B h t final) 12 = wordAt B.iv 4 ^^^ BitVec.ofNat w (t % 2 ^ w) := by
  have hcount : BitVec.ofNat w t = BitVec.ofNat w (t % 2 ^ w) := BitVec.eq_of_toNat_eq (by simp)
  rw [← hcount]
  exact wordAt_blake2Start_high B t final hl 4

/-- The finalisation flag (45_blake2.md R254). -/
theorem wordAt_blake2Start_flag (hl : h.length = 8) : wordAt (blake2Start B h t final) 14 =
    if final then wordAt B.iv 6 ^^^ BitVec.ofNat w (2 ^ w - 1) else wordAt B.iv 6 := by
  have hones : BitVec.allOnes w = BitVec.ofNat w (2 ^ w - 1) := BitVec.eq_of_toNat_eq (by simp)
  rw [← hones]
  exact wordAt_blake2Start_high B t final hl 6

end Start

/-- A round with row `row` of the schedule: the eight calls of `G` in the order written (45_blake2.md R254). -/
theorem blake2Round_eq_foldl {w : Nat} (B : Blake2 w) {m : List (BitVec w)} (v : List (BitVec w)) {r : Nat}
    {row : List Nat} {word : Nat → BitVec w} (hrow : sigmaTable.getD (r % 10) [] = row)
    (hword : ∀ i, word i = wordAt m (row.getD i 0)) :
    blake2Round B m v r =
      ([(0, 4, 8, 12, 0), (1, 5, 9, 13, 2), (2, 6, 10, 14, 4), (3, 7, 11, 15, 6), (0, 5, 10, 15, 8), (1, 6, 11, 12, 10),
        (2, 7, 8, 13, 12), (3, 4, 9, 14, 14)] : List (Nat × Nat × Nat × Nat × Nat)).foldl
        (fun v q => blake2G B q.1 q.2.1 q.2.2.1 q.2.2.2.1 (word q.2.2.2.2) (word (q.2.2.2.2 + 1)) v) v := by
  simp only [blake2Round, hrow, ← hword, List.foldl_cons, List.foldl_nil, Nat.reduceAdd]

/-- The chaining value takes up both halves of the working vector (45_blake2.md R254). -/
theorem wordAt_blake2F {w : Nat} (B : Blake2 w) (h : List (BitVec w)) (block : List Byte) (t : Nat) (final : Bool)
    {m v : List (BitVec w)} (hm : m = (List.range 16).map fun i => leWordAt w block (B.wb * i) B.wb)
    (hv : v = (List.range B.rounds).foldl (blake2Round B m) (blake2Start B h t final)) {i : Nat} (hi : i < 8) :
    wordAt (blake2F B h block t final) i = wordAt h i ^^^ wordAt v i ^^^ wordAt v (i + 8) := by
  subst hm hv
  exact wordAt_map_range _ hi

end Sys2Proof.Machine
end

section
/-! PROOFS. The BLAKE2 context in `CTX`, and B2INIT (10_state.md R35, 45_blake2.md R250, R251, R255, R256). -/

namespace Sys2Proof.Machine

/-- The sizes of a variant fit together: a word is `wb` bytes, at most 8, and eight words are the longest digest
(45_blake2.md R250). -/
structure Blake2.Sized {w : Nat} (B : Blake2 w) : Prop where
  width : w = 8 * B.wb
  wb_le : B.wb ≤ 8
  dmax_eq : B.dmax = 8 * B.wb

theorem sized_blake2b : blake2b.Sized := ⟨rfl, le_refl 8, rfl⟩

theorem sized_blake2s : blake2s.Sized := ⟨rfl, by decide, rfl⟩

theorem Blake2.Sized.pow_eq {w : Nat} {B : Blake2 w} (hB : B.Sized) : 2 ^ w = 256 ^ B.wb :=
  calc 2 ^ w = 2 ^ (8 * B.wb) := congrArg (2 ^ ·) hB.width
    _ = 256 ^ B.wb := pow_mul 2 8 B.wb

/-- The chaining value ends where the counter starts, at `CTX[64]`, or below. -/
theorem Blake2.Sized.words_le {w : Nat} {B : Blake2 w} (hB : B.Sized) : 8 * B.wb ≤ 64 :=
  Nat.mul_le_mul_left 8 hB.wb_le

/-! ### The chaining value -/

/-- Word `i` of the chaining value in `CTX` (10_state.md R35). -/
def chainWord {w : Nat} (B : Blake2 w) (d : Data) (i : Nat) : BitVec w :=
  leWordAt w (readCtx d (B.wb * i) B.wb) 0 B.wb

section
variable {w : Nat} {B : Blake2 w} {d : Data} {h : List (BitVec w)}

/-- The bytes of a chaining value around its word `i`. -/
theorem blake2Bytes_split (B : Blake2 w) {i : Nat} (hi : i < h.length) : blake2Bytes B h =
    blake2Bytes B (h.take i) ++ leBytes (wordAt h i).toNat B.wb ++ blake2Bytes B (h.drop (i + 1)) := by
  conv_lhs => rw [← List.take_append_drop i h, List.drop_eq_getElem_cons hi, ← wordAt_of_lt hi]
  simp only [blake2Bytes, List.flatMap_append, List.flatMap_cons, List.append_assoc]

/-- The eight words of a sized variant fill `CTX[0 .. 8 wb - 1]`. -/
theorem mul_add_le_words (wb : Nat) {i : Nat} (hi : i < 8) : wb * i + wb ≤ 8 * wb := by
  have hle : wb * (i + 1) ≤ wb * 8 := Nat.mul_le_mul_left wb hi
  rw [Nat.mul_succ] at hle
  omega

theorem blake2Bytes_fit (hB : B.Sized) (hl : h.length = 8) : 0 + (blake2Bytes B h).length ≤ 256 := by
  have hle := hB.words_le
  rw [blake2Bytes_length, hl]
  omega

/-- A write of the chaining value keeps the canonical form. -/
theorem wf_writeWords (hB : B.Sized) (hwf : Memory.wf d.mem = true) (hl : h.length = 8) :
    Memory.wf (writeCtx 0 (blake2Bytes B h) d).mem = true := wf_writeCtx hwf (blake2Bytes_fit hB hl)

/-- A chaining value that was written reads back word by word (10_state.md R35). -/
theorem chainWord_writeWords (hB : B.Sized) (hwf : Memory.wf d.mem = true) (hl : h.length = 8) {i : Nat} (hi : i < 8) :
    chainWord B (writeCtx 0 (blake2Bytes B h) d) i = wordAt h i := by
  have hsplit := blake2Bytes_split B (hi.trans_eq hl.symm)
  have hread := readCtx_writeCtx_infix hwf _ _ _ (hsplit ▸ blake2Bytes_fit hB hl)
  rw [← hsplit, blake2Bytes_length, List.length_take_of_le (by omega), leBytes_length, Nat.zero_add] at hread
  rw [chainWord, hread, leWordAt_leBytes _ hB.pow_eq]

/-- A write above the chaining value keeps it. -/
theorem chainWord_writeCtx (B : Blake2 w) {off : Nat} (hoff : 8 * B.wb ≤ off) (bs : List Byte) (d : Data) {i : Nat}
    (hi : i < 8) : chainWord B (writeCtx off bs d) i = chainWord B d i := by
  have hle := mul_add_le_words B.wb hi
  rw [chainWord, chainWord, readCtx_writeCtx_other _ _ _ _ _ (.inl (hle.trans hoff))]

end

/-! ### The fresh context -/

/-- A word inside a byte string read from `DAT` is a word of `DAT`. -/
theorem leWordAt_readDat (w : Nat) (d : Data) {off k n : Nat} (h : off + k ≤ n) :
    leWordAt w (readDat d 0 n) off k = leWordAt w (readDat d off k) 0 k := by
  obtain ⟨rest, rfl⟩ := Nat.exists_eq_add_of_le h
  have hsplit : readDat d 0 (off + k + rest) = readDat d 0 off ++ (readDat d off k ++ readDat d (off + k) rest) := by
    simp only [readDat, Nat.add_zero, readBytes_append, Nat.add_assoc]
  rw [leWordAt, leWordAt, hsplit, List.drop_left' (readDat_length ..), List.take_left' (readDat_length ..),
    List.drop_zero, List.take_of_length_le (readDat_length ..).le]

/-- The chaining value that a parameter block in `DAT` starts (45_blake2.md R256). -/
def parameterWords {w : Nat} (B : Blake2 w) (d : Data) : List (BitVec w) :=
  (List.range 8).map fun i => wordAt B.iv i ^^^ leWordAt w (readDat d 0 B.dmax) (B.wb * i) B.wb

/-- The data state with a fresh BLAKE2 context of variant `var` (45_blake2.md R256). -/
def createBlake2 {w : Nat} (B : Blake2 w) (var : Byte) (d : Data) : Data :=
  writeKindPhase 2 1 (writeCtx 80 [var, datByte d 0] (writeCtx 0 (blake2Bytes B (parameterWords B d)) (clearCtx d)))

section
variable {w : Nat} {B : Blake2 w} {d : Data}

@[simp] theorem parameterWords_length : (parameterWords B d).length = 8 := by simp [parameterWords]

theorem wordAt_parameterWords (hB : B.Sized) {i : Nat} (hi : i < 8) : wordAt (parameterWords B d) i =
    wordAt B.iv i ^^^ leWordAt w (readDat d (B.wb * i) B.wb) 0 B.wb := by
  rw [parameterWords, wordAt_map_range _ hi, leWordAt_readDat _ _ (hB.dmax_eq ▸ mul_add_le_words B.wb hi)]

section Fresh
variable (hB : B.Sized) (hwf : Memory.wf d.mem = true) (var : Byte)
include hB hwf

theorem wf_createBlake2_words :
    Memory.wf (writeCtx 0 (blake2Bytes B (parameterWords B d)) (clearCtx d)).mem = true :=
  wf_writeWords hB (wf_clearCtx hwf) parameterWords_length

theorem chainWord_createBlake2 {i : Nat} (hi : i < 8) : chainWord B (createBlake2 B var d) i =
    wordAt B.iv i ^^^ leWordAt w (readDat d (B.wb * i) B.wb) 0 B.wb := by
  have hle := hB.words_le
  rw [createBlake2, writeKindPhase, chainWord_writeCtx B (by omega) _ _ hi, chainWord_writeCtx B (by omega) _ _ hi,
    chainWord_writeWords hB (wf_clearCtx hwf) parameterWords_length hi, wordAt_parameterWords hB hi]

/-- `VAR` and `DLEN` of a fresh context. -/
theorem ctxByte_createBlake2_header :
    ctxByte (createBlake2 B var d) 80 = var ∧ ctxByte (createBlake2 B var d) 81 = datByte d 0 := by
  have hheader (i : Nat) (hi : i < 2) : ctxByte (createBlake2 B var d) (80 + i) = [var, datByte d 0][i] := by
    rw [createBlake2, writeKindPhase, ctxByte_writeCtx_other _ _ _ _ (by omega),
      ctxByte_writeCtx_same (wf_createBlake2_words hB hwf) (by simp) hi]
  exact ⟨hheader 0 (by omega), hheader 1 (by omega)⟩

theorem ctxKindPhase_createBlake2 :
    ctxKind (createBlake2 B var d) = 2 ∧ ctxPhase (createBlake2 B var d) = 1 :=
  ctxKindPhase_writeKindPhase (wf_writeCtx (wf_createBlake2_words hB hwf) (by simp)) 2 1

omit hB in
/-- The counter and the unused bytes of a fresh context are 0. -/
theorem ctxByte_createBlake2_zero {i : Nat} (hlow : 8 * B.wb ≤ i) (hhigh : i < 254) (h80 : i ≠ 80) (h81 : i ≠ 81) :
    ctxByte (createBlake2 B var d) i = 0 := by
  rw [createBlake2, writeKindPhase, ctxByte_writeCtx_other _ _ _ _ (by omega),
    ctxByte_writeCtx_other _ _ _ _ (by simp only [List.length_cons, List.length_nil]; omega),
    ctxByte_writeCtx_other _ _ _ _ (by rw [blake2Bytes_length, parameterWords_length]; omega),
    ctxByte_clearCtx hwf (by omega)]

omit hwf in
/-- Creating a context changes `CTX` only. -/
theorem onlyCtx_createBlake2 : onlyBytes [(ctxBase, 256)] d (createBlake2 B var d) := by
  have hclear : onlyBytes [(ctxBase, 256)] d (clearCtx d) :=
    onlyCtx_writeCtx (by rw [Nat.zero_add, List.length_replicate]) d
  have hl : (parameterWords B d).length = 8 := parameterWords_length
  have hwords := onlyBytes_trans_same hclear (onlyCtx_writeCtx (blake2Bytes_fit hB hl) _)
  have hheader := onlyBytes_trans_same hwords (onlyCtx_writeCtx (off := 80) (bs := [var, datByte d 0]) (by simp) _)
  exact onlyBytes_trans_same hheader (onlyCtx_writeCtx (off := 254) (bs := [2, 1]) (by simp) _)

end Fresh
end

/-! ### The command -/

section
variable {w : Nat} {B : Blake2 w} {d : Data} (var : Byte)

/-- A parameter block in range creates a context (45_blake2.md R255, R256). -/
theorem blake2Init_ok (hlow : 1 ≤ (datByte d 0).toNat) (hdigest : (datByte d 0).toNat ≤ B.dmax)
    (hkey : (datByte d 1).toNat ≤ B.dmax) : blake2Init B var d = .ok (createBlake2 B var d) := by
  rw [blake2Init, require_true _ ⟨hlow, hdigest⟩, exceptBind_ok, require_true _ hkey]
  rfl

/-- A parameter block whose digest or key length is out of range is refused (45_blake2.md R255, R256). -/
theorem blake2Init_badHeader (h : ¬(1 ≤ (datByte d 0).toNat ∧ (datByte d 0).toNat ≤ B.dmax) ∨
    ¬(datByte d 1).toNat ≤ B.dmax) : blake2Init B var d = .error .badHeader := by
  by_cases hdigest : 1 ≤ (datByte d 0).toNat ∧ (datByte d 0).toNat ≤ B.dmax
  · rw [blake2Init, require_true _ hdigest, exceptBind_ok, require_false _ (h.resolve_left (not_not.2 hdigest)),
      exceptBind_error]
  · rw [blake2Init, require_false _ hdigest, exceptBind_error]

end

/-- A parameter block in range: the command of either variant completes with a fresh context (45_blake2.md R256). -/
theorem completeCommand_blake2Init {w : Nat} {B : Blake2 w} (hB : B.Sized) (var : Byte) {s : State}
    (hwf : Memory.wf s.data.mem = true) (hlow : 1 ≤ (datByte s.data 0).toNat)
    (hdigest : (datByte s.data 0).toNat ≤ B.dmax) (hkey : (datByte s.data 1).toNat ≤ B.dmax) :
    ∃ t, completeCommand s (blake2Init B var s.data) = .next t ∧ completes s t ∧
      (∀ i, i < 8 → chainWord B t.data i = wordAt B.iv i ^^^ leWordAt w (readDat s.data (B.wb * i) B.wb) 0 B.wb) ∧
      ctxByte t.data 80 = var ∧ ctxByte t.data 81 = datByte s.data 0 ∧ ctxKind t.data = 2 ∧ ctxPhase t.data = 1 ∧
      (∀ i, 8 * B.wb ≤ i → i < 254 → i ≠ 80 → i ≠ 81 → ctxByte t.data i = 0) ∧
      onlyBytes [(ctxBase, 256)] s.data t.data := by
  obtain ⟨hvar, hdlen⟩ := ctxByte_createBlake2_header hB hwf var
  obtain ⟨hkind, hphase⟩ := ctxKindPhase_createBlake2 hB hwf var
  rw [blake2Init_ok var hlow hdigest hkey]
  exact ⟨_, rfl, completes_finishedWith s _, fun i hi => chainWord_createBlake2 hB hwf var hi, hvar, hdlen, hkind,
    hphase, fun i hi h254 h80 h81 => ctxByte_createBlake2_zero hwf var hi h254 h80 h81, onlyCtx_createBlake2 hB var⟩

theorem exec_b2init_b (s : State) : exec (.b2init 0) s = completeCommand s (blake2Init blake2b 0 s.data) := rfl

theorem exec_b2init_s (s : State) : exec (.b2init 1) s = completeCommand s (blake2Init blake2s 1 s.data) := rfl

/-- Settles O52: the constants are the model's; either variant completes with its fresh context, in which BLAKE2b's
variant byte is 0 like its neighbours. -/
theorem blake2Create : Obligations.Blake2Create := by
  refine ⟨⟨rfl, rfl, rfl, rfl, rfl, rfl, rfl, rfl, rfl⟩, ⟨rfl, rfl, rfl, rfl, rfl, rfl, rfl, rfl, rfl⟩,
    fun s hwf hlow => ⟨fun hdigest hkey => ?_, fun hdigest hkey => ?_⟩⟩
  · rw [exec_b2init_b]
    obtain ⟨t, ht, hdone, hwords, hvar, hdlen, hkind, hphase, hzero, honly⟩ :=
      completeCommand_blake2Init sized_blake2b 0 hwf hlow hdigest hkey
    refine ⟨t, ht, hdone, hwords, hvar, hdlen, hkind, hphase, fun i h64 h254 h81 => ?_, honly⟩
    by_cases h80 : i = 80
    · exact h80 ▸ hvar
    · exact hzero i h64 h254 h80 h81
  · rw [exec_b2init_s]
    exact completeCommand_blake2Init sized_blake2s 1 hwf hlow hdigest hkey

end Sys2Proof.Machine
end

section
/-! PROOFS. B2COMP: the context it leaves, and which check of a refused one answers (10_state.md R35, 45_blake2.md
R254, R257). -/

namespace Sys2Proof.Machine

/-! ### The context written back -/

/-- The chaining value in `CTX` (10_state.md R35). -/
def chaining {w : Nat} (B : Blake2 w) (d : Data) : List (BitVec w) := (List.range 8).map (chainWord B d)

/-- The data state with chaining value `h` and counter `t` (10_state.md R35). -/
def storeChaining {w : Nat} (B : Blake2 w) (h : List (BitVec w)) (t : Nat) (d : Data) : Data :=
  writeCtx 64 (leBytes t (2 * B.wb)) (writeCtx 0 (blake2Bytes B h) d)

section
variable {w : Nat} {B : Blake2 w} {d : Data} {h : List (BitVec w)} (hB : B.Sized) (hl : h.length = 8) (t : Nat)
include hB hl

section Readable
variable (hwf : Memory.wf d.mem = true)
include hwf

theorem wf_storeChaining : Memory.wf (storeChaining B h t d).mem = true := by
  have hle := hB.words_le
  exact wf_writeCtx (wf_writeWords hB hwf hl) (by rw [leBytes_length]; omega)

/-- The chaining value reads back. -/
theorem chaining_storeChaining : chaining B (storeChaining B h t d) = h := by
  have hle := hB.words_le
  refine List.ext_getElem (by simp [chaining, hl]) fun i _ hi => ?_
  have hi8 : i < 8 := hi.trans_eq hl
  simp only [chaining, List.getElem_map, List.getElem_range]
  rw [storeChaining, chainWord_writeCtx B hle _ _ hi8, chainWord_writeWords hB hwf hl hi8, wordAt_of_lt hi]

/-- The counter reads back. -/
theorem counter_storeChaining (ht : t < 2 ^ (2 * w)) :
    leNat (readCtx (storeChaining B h t d) 64 (2 * B.wb)) = t := by
  have hle := hB.words_le
  have hread := readCtx_writeCtx_same (wf_writeWords hB hwf hl) (off := 64) (bs := leBytes t (2 * B.wb))
    (by rw [leBytes_length]; omega)
  have hpow : 256 ^ (2 * B.wb) = 2 ^ (2 * w) := by rw [pow_mul', pow_mul', hB.pow_eq]
  rw [leBytes_length] at hread
  rw [storeChaining, hread, leNat_leBytes, hpow, Nat.mod_eq_of_lt ht]

end Readable

omit hB in
/-- Writing back changes the chaining value and the counter only. -/
theorem onlyBytes_storeChaining (d : Data) :
    onlyBytes [(ctxBase, 8 * B.wb), (ctxBase + 64, 2 * B.wb)] d (storeChaining B h t d) := by
  have hframe := onlyBytes_trans (onlyBytes_writeCtx 0 (blake2Bytes B h) d)
    (onlyBytes_writeCtx 64 (leBytes t (2 * B.wb)) _)
  rwa [blake2Bytes_length, leBytes_length, hl, mul_comm B.wb] at hframe

theorem ctxPhase_storeChaining (d : Data) : ctxPhase (storeChaining B h t d) = ctxPhase d := by
  have hle := hB.words_le
  rw [ctxPhase, storeChaining, ctxByte_writeCtx_other _ _ _ _ (by rw [leBytes_length]; omega),
    ctxByte_writeCtx_other _ _ _ _ (by rw [blake2Bytes_length, hl]; omega), ctxPhase]

end

/-! ### Closing -/

/-- A final block closes the context (45_blake2.md R257). -/
def closeIf (final : Bool) (d : Data) : Data := if final then writePhase 3 d else d

section
variable (final : Bool) (d : Data)

/-- Closing keeps the bytes of `CTX` below the phase. -/
theorem readCtx_closeIf {i n : Nat} (h : i + n ≤ 255) : readCtx (closeIf final d) i n = readCtx d i n := by
  cases final
  · rfl
  · exact readCtx_writeCtx_other d 255 [3] i n (.inl h)

theorem onlyBytes_closeIf : onlyBytes [(ctxBase + 255, if final then 1 else 0)] d (closeIf final d) := by
  cases final
  · exact ⟨rfl, rfl, fun _ _ => rfl⟩
  · exact onlyBytes_writeCtx 255 [3] d

end

theorem ctxPhase_closeIf (final : Bool) {d : Data} (hwf : Memory.wf d.mem = true) (h : ctxPhase d = 1) :
    ctxPhase (closeIf final d) = if final then 3 else 1 := by
  cases final
  · exact h
  · exact ctxPhase_writePhase hwf 3

theorem chaining_closeIf {w : Nat} {B : Blake2 w} (hB : B.Sized) (final : Bool) (d : Data) :
    chaining B (closeIf final d) = chaining B d := by
  have hle := hB.words_le
  refine List.map_congr_left fun i hi => ?_
  have hword := mul_add_le_words B.wb (List.mem_range.1 hi)
  rw [chainWord, chainWord, readCtx_closeIf final d (by omega)]

/-! ### The command on an accepted context -/

/-- The block: `n` bytes of `DAT` padded with zeros (45_blake2.md R257). -/
def paddedBlock {w : Nat} (B : Blake2 w) (n : Nat) (d : Data) : List Byte :=
  readDat d 0 n ++ List.replicate (B.bs - n) 0

/-- The counter after `n` more bytes (45_blake2.md R257). -/
def advancedCounter {w : Nat} (B : Blake2 w) (n : Nat) (d : Data) : Nat :=
  (leNat (readCtx d 64 (2 * B.wb)) + n) % 2 ^ (2 * w)

/-- The data state after a block of `n` bytes was compressed (45_blake2.md R257). -/
def compressData {w : Nat} (B : Blake2 w) (final : Bool) (n : Nat) (d : Data) : Data :=
  closeIf final (storeChaining B (blake2F B (chaining B d) (paddedBlock B n d) (advancedCounter B n d) final)
    (advancedCounter B n d) d)

section
variable {w : Nat} {B : Blake2 w} (final : Bool) {d : Data}

/-- What B2COMP leaves: the advanced counter, the compressed chaining value, the phase, and every other byte. -/
theorem compressData_spec (hB : B.Sized) (n : Nat) (hwf : Memory.wf d.mem = true) (hphase : ctxPhase d = 1) :
    leNat (readCtx (compressData B final n d) 64 (2 * B.wb)) = advancedCounter B n d ∧
    chaining B (compressData B final n d) =
      blake2F B (chaining B d) (paddedBlock B n d) (advancedCounter B n d) final ∧
    ctxPhase (compressData B final n d) = (if final then 3 else 1) ∧
    onlyBytes [(ctxBase, 8 * B.wb), (ctxBase + 64, 2 * B.wb), (ctxBase + 255, if final then 1 else 0)] d
      (compressData B final n d) := by
  have hle := hB.words_le
  have hl := blake2F_length B (chaining B d) (paddedBlock B n d) (advancedCounter B n d) final
  refine ⟨?_, ?_, ctxPhase_closeIf final (wf_storeChaining hB hl _ hwf) ?_,
    onlyBytes_trans (onlyBytes_storeChaining hl _ d) (onlyBytes_closeIf final _)⟩
  · rw [compressData, readCtx_closeIf final _ (by omega)]
    exact counter_storeChaining hB hl _ hwf (Nat.mod_lt _ (Nat.two_pow_pos _))
  · rw [compressData, chaining_closeIf hB, chaining_storeChaining hB hl _ hwf]
  · rw [ctxPhase_storeChaining hB hl, hphase]

variable {len : BitVec 16}

theorem blake2Compress_badHeader (h : ¬(1 ≤ (ctxByte d 81).toNat ∧ (ctxByte d 81).toNat ≤ B.dmax)) :
    blake2Compress B final len d = .error .badHeader := by
  rw [blake2Compress, require_false _ h, exceptBind_error]

section Header
variable (h : 1 ≤ (ctxByte d 81).toNat ∧ (ctxByte d 81).toNat ≤ B.dmax)
include h

theorem blake2Compress_badLength (hlen : B.bs < len.toNat) : blake2Compress B final len d = .error .badLength := by
  rw [blake2Compress, require_true _ h, exceptBind_ok, require_false _ (by omega), exceptBind_error]

theorem blake2Compress_ok (hlen : len.toNat ≤ B.bs) :
    blake2Compress B final len d = .ok (compressData B final len.toNat d) := by
  rw [blake2Compress, require_true _ h, exceptBind_ok, require_true _ hlen]
  rfl

end Header
end

/-- A block that fits: the rule of either variant completes with the data state above (45_blake2.md R257). -/
theorem completeCommand_blake2Compress {w : Nat} {B : Blake2 w} (final : Bool) {len : BitVec 16} {s : State} {t0 : Nat}
    (hB : B.Sized) (hwf : Memory.wf s.data.mem = true) (hphase : ctxPhase s.data = 1)
    (hdlen : 1 ≤ (ctxByte s.data 81).toNat ∧ (ctxByte s.data 81).toNat ≤ B.dmax) (hlen : len.toNat ≤ B.bs)
    (ht : t0 = advancedCounter B len.toNat s.data) :
    ∃ t, completeCommand s (blake2Compress B final len s.data) = .next t ∧ completes s t ∧
      leNat (readCtx t.data 64 (2 * B.wb)) = t0 ∧
      chaining B t.data = blake2F B (chaining B s.data) (paddedBlock B len.toNat s.data) t0 final ∧
      ctxPhase t.data = (if final then 3 else 1) ∧
      onlyBytes [(ctxBase, 8 * B.wb), (ctxBase + 64, 2 * B.wb), (ctxBase + 255, if final then 1 else 0)]
        s.data t.data := by
  subst ht
  rw [blake2Compress_ok final hdlen hlen]
  exact ⟨_, rfl, completes_finishedWith s _, compressData_spec final hB len.toNat hwf hphase⟩

section
variable {s : State} (final : Bool) (len : BitVec 16)

/-- A BLAKE2 context of a known variant goes to the rule of that variant (45_blake2.md R257). -/
theorem exec_b2comp_variant (hopen : ctxKind s.data = 2 ∧ ctxPhase s.data = 1) (hvar : (ctxByte s.data 80).toNat ≤ 1) :
    exec (.b2comp final len) s = completeCommand s
      (if ctxByte s.data 80 = 0 then blake2Compress blake2b final len s.data
      else blake2Compress blake2s final len s.data) := by
  change completeCommand s (require _ _ >>= fun _ => require _ _ >>= fun _ => _) = _
  rw [require_true _ hopen, exceptBind_ok, require_true _ hvar, exceptBind_ok]

theorem exec_b2comp_b (hopen : ctxKind s.data = 2 ∧ ctxPhase s.data = 1) (hvar : ctxByte s.data 80 = 0) :
    exec (.b2comp final len) s = completeCommand s (blake2Compress blake2b final len s.data) := by
  rw [exec_b2comp_variant final len hopen (by rw [hvar]; decide), if_pos hvar]

theorem exec_b2comp_s (hopen : ctxKind s.data = 2 ∧ ctxPhase s.data = 1) (hvar : ctxByte s.data 80 = 1) :
    exec (.b2comp final len) s = completeCommand s (blake2Compress blake2s final len s.data) := by
  rw [exec_b2comp_variant final len hopen (by rw [hvar]; decide), if_neg (by rw [hvar]; decide)]

end

/-- Settles O53: `B2F` part by part, then either variant through the data state it leaves. (The plain name
`blake2Compress` is the model's function.) -/
theorem blake2Compress_holds : Obligations.Blake2Compress := by
  refine ⟨?_, ?_, ?_, ?_⟩
  · rintro w B h _ t final hl rfl
    exact ⟨by simp [blake2Start, hl], fun i hi => wordAt_blake2Start_low B t final (hi.trans_eq hl.symm),
      fun i hi hother => wordAt_blake2Start_iv B t final hl hi hother, wordAt_blake2Start_counter B t final hl,
      wordAt_blake2Start_high B t final hl 5, wordAt_blake2Start_flag B t final hl⟩
  · intro x hx
    have hrow : sigmaTable.getD x.1 [] = x.2 := by
      revert x
      decide
    exact fun w B m v r word hr hword => blake2Round_eq_foldl B v (hr ▸ hrow) hword
  · exact fun w B h m v block t final hm hv =>
      ⟨blake2F_length B h block t final, fun i hi => wordAt_blake2F B h block t final hm hv hi⟩
  · rintro s final len _ t0 hwf ⟨hkind, hphase, -, hlow, hhigh⟩ rfl
    refine ⟨fun hvar hlen ht => ?_, fun hvar hlen ht => ?_⟩ <;> rw [hvar] at hhigh
    · rw [exec_b2comp_b final len ⟨hkind, hphase⟩ hvar]
      exact completeCommand_blake2Compress final sized_blake2b hwf hphase ⟨hlow, hhigh⟩ hlen ht
    · rw [exec_b2comp_s final len ⟨hkind, hphase⟩ hvar]
      exact completeCommand_blake2Compress final sized_blake2s hwf hphase ⟨hlow, hhigh⟩ hlen ht

end Sys2Proof.Machine
end

section
/-! PROOFS. Which check of a refused B2INIT, B2COMP, GHMUL, SIPBLK, SIPFIN answers (45_blake2.md R256, R257;
46_ghash.md R273; 47_siphash.md R289, R290; 60_exceptions.md R318). -/

namespace Sys2Proof.Machine

/-! ### BLAKE2 -/

/-- A byte that is at most 1. -/
theorem byte_eq_zero_or_one {b : Byte} (h : b.toNat ≤ 1) : b = 0 ∨ b = 1 :=
  (Nat.le_one_iff_eq_zero_or_eq_one.1 h).imp (fun h0 => BitVec.eq_of_toNat_eq h0) fun h1 => BitVec.eq_of_toNat_eq h1

section
variable {s : State} {final : Bool} {len : BitVec 16}

/-- B2INIT of either variant with a parameter block out of range (45_blake2.md R255, R256). -/
theorem exec_b2init_error {x : BitVec 8 × Nat} (hx : x ∈ ([(0, 64), (1, 32)] : List (BitVec 8 × Nat)))
    (h : ¬(1 ≤ (datByte s.data 0).toNat ∧ (datByte s.data 0).toNat ≤ x.2) ∨ ¬(datByte s.data 1).toNat ≤ x.2) :
    exec (.b2init x.1) s = .next (failedWith s 5) := by
  simp only [List.mem_cons, List.not_mem_nil, or_false] at hx
  rcases hx with rfl | rfl
  · exact (exec_b2init_b s).trans (congrArg (completeCommand s) (blake2Init_badHeader 0 h))
  · exact (exec_b2init_s s).trans (congrArg (completeCommand s) (blake2Init_badHeader 1 h))

/-- The first check of B2COMP is kind and phase (45_blake2.md R257). -/
theorem exec_b2comp_wrongState (h : ¬(ctxKind s.data = 2 ∧ ctxPhase s.data = 1)) :
    exec (.b2comp final len) s = .next (failedWith s 7) := by
  change completeCommand s (require _ _ >>= _) = _
  exact completeCommand_bind_error (require_false _ h) s _

variable (hopen : ctxKind s.data = 2 ∧ ctxPhase s.data = 1)
include hopen

/-- The second check of B2COMP is the header: the variant, then the digest length (45_blake2.md R257). -/
theorem exec_b2comp_badHeader (h : ¬blake2Header s.data) : exec (.b2comp final len) s = .next (failedWith s 5) := by
  by_cases hvar : (ctxByte s.data 80).toNat ≤ 1
  · have hdlen : ¬(1 ≤ (ctxByte s.data 81).toNat ∧
        (ctxByte s.data 81).toNat ≤ blake2Longest (ctxByte s.data 80).toNat) := fun hd => h ⟨hvar, hd⟩
    rcases byte_eq_zero_or_one hvar with hv | hv <;> rw [hv] at hdlen
    · rw [exec_b2comp_b final len hopen hv, blake2Compress_badHeader final hdlen]
      rfl
    · rw [exec_b2comp_s final len hopen hv, blake2Compress_badHeader final hdlen]
      rfl
  · change completeCommand s (require _ _ >>= fun _ => require _ _ >>= _) = _
    rw [require_true _ hopen, exceptBind_ok]
    exact completeCommand_bind_error (require_false _ hvar) s _

/-- The third check of B2COMP is the length (45_blake2.md R257). -/
theorem exec_b2comp_badLength (h : blake2Header s.data) (hlen : blake2Block (ctxByte s.data 80).toNat < len.toNat) :
    exec (.b2comp final len) s = .next (failedWith s 1) := by
  obtain ⟨hvar, hdlen⟩ := h
  rcases byte_eq_zero_or_one hvar with hv | hv <;> rw [hv] at hdlen hlen
  · rw [exec_b2comp_b final len hopen hv, blake2Compress_badLength final hdlen hlen]
    rfl
  · rw [exec_b2comp_s final len hopen hv, blake2Compress_badLength final hdlen hlen]
    rfl

end

/-! ### GHASH and SipHash -/

section
variable {s : State} {len : BitVec 16}

theorem exec_ghmul_badLength (h : 16 < len.toNat) : exec (.ghmul len) s = .next (failedWith s 1) := by
  change completeCommand s (require _ _ >>= _) = _
  exact completeCommand_bind_error (require_false _ (by omega)) s _

/-- SIPBLK and SIPFIN check the context first (47_siphash.md R289, R290). -/
theorem exec_eq_sipContext_bind (s : State) {i : Instr} (hi : i ∈ [Instr.sipblk len, .sipfin len]) :
    ∃ g, exec i s = completeCommand s (sipContext s.data >>= g) := by
  simp only [List.mem_cons, List.not_mem_nil, or_false] at hi
  rcases hi with rfl | rfl <;> exact ⟨_, rfl⟩

theorem exec_sipblk_badLength (hr : sipReady s.data) (h : ¬(len.toNat ≤ 256 ∧ len.toNat % 8 = 0)) :
    exec (.sipblk len) s = .next (failedWith s 1) := by
  change completeCommand s (sipContext s.data >>= fun _ => require _ _ >>= _) = _
  rw [sipContext_ok hr, exceptBind_ok]
  exact completeCommand_bind_error (require_false _ h) s _

theorem exec_sipfin_badLength (hr : sipReady s.data) (h : ¬len.toNat ≤ 7) :
    exec (.sipfin len) s = .next (failedWith s 1) := by
  change completeCommand s (sipContext s.data >>= fun _ => require _ _ >>= _) = _
  rw [sipContext_ok hr, exceptBind_ok]
  exact completeCommand_bind_error (require_false _ h) s _

end

/-- Settles O59: kind and phase come first, then the header, then the length. -/
theorem hashErrors : Obligations.HashErrors := by
  refine fun s final len => ⟨fun x hx h => exec_b2init_error hx ?_, fun h => exec_b2comp_wrongState (not_and_or.2 h),
    fun hk hp hh => exec_b2comp_badHeader ⟨hk, hp⟩ hh, ?_, exec_ghmul_badLength, fun i hi => ?_,
    fun hr h => exec_sipblk_badLength hr (by omega), fun hr h => exec_sipfin_badLength hr (by omega)⟩
  · rcases h with h0 | hdigest | hkey
    · exact .inl (by rw [h0]; simp)
    · exact .inl (by omega)
    · exact .inr (by omega)
  · rintro ⟨hk, hp, hh⟩ hlen
    exact exec_b2comp_badLength ⟨hk, hp⟩ hh hlen
  · obtain ⟨g, hg⟩ := exec_eq_sipContext_bind s hi
    rw [hg]
    exact ⟨fun h => completeCommand_bind_error (sipContext_wrongState (not_and_or.2 h)) s g,
      fun hk hp hvar => completeCommand_bind_error (sipContext_badHeader ⟨hk, hp⟩ (by omega)) s g⟩

end Sys2Proof.Machine
end

section
/-! PROOFS. The product of GF(2^128): the product by `x`, the maps that are linear over it, and the laws of the field
(46_ghash.md R270, R271). -/

namespace Sys2Proof.Machine

/-! ### Bits of a block -/

/-- The coefficient of `x^i` in a block of bytes (46_ghash.md R270). -/
theorem blockOfBytes_getLsbD {bs : List Byte} {i : Nat} (hl : bs.length = 16) (hi : i < 128) :
    (blockOfBytes bs).getLsbD (127 - i) = (bs.getD (i / 8) 0).getLsbD (7 - i % 8) := by
  have hbyte : (127 - i) / 8 = 15 - i / 8 := by omega
  have hbit : (127 - i) % 8 = 7 - i % 8 := by omega
  have hrev : bs.reverse.getD (15 - i / 8) 0 = bs.getD (i / 8) 0 := by
    rw [List.getD_eq_getElem?_getD, List.getElem?_reverse (by omega), ← List.getD_eq_getElem?_getD, hl]
    congr 1
    omega
  rw [blockOfBytes, BitVec.getLsbD_ofNat, decide_eq_true (by omega), Bool.true_and, beNat, leNat_testBit, hbyte, hbit,
    hrev]

/-! ### The product by `x` -/

/-- The product by the polynomial `x`: what the loop of `gfmul` does to `V` in each pass (46_ghash.md R271). -/
def mulX (v : BitVec 128) : BitVec 128 := if v.getLsbD 0 then (v >>> 1) ^^^ gfReduction else v >>> 1

theorem gfLoop_succ (x : BitVec 128) (n : Nat) (z v : BitVec 128) :
    gfLoop x (n + 1) z v = gfLoop x n (if x.getLsbD n then z ^^^ v else z) (mulX v) := rfl

/-- The product by `x` is additive: two reductions cancel. -/
theorem mulX_xor (u v : BitVec 128) : mulX (u ^^^ v) = mulX u ^^^ mulX v := by
  simp only [mulX, BitVec.getLsbD_xor, BitVec.ushiftRight_xor_distrib]
  cases u.getLsbD 0 <;> cases v.getLsbD 0
  · rfl
  · exact BitVec.xor_assoc ..
  · change u >>> 1 ^^^ v >>> 1 ^^^ gfReduction = u >>> 1 ^^^ gfReduction ^^^ v >>> 1
    ac_rfl
  · change u >>> 1 ^^^ v >>> 1 = (u >>> 1 ^^^ gfReduction) ^^^ (v >>> 1 ^^^ gfReduction)
    rw [BitVec.xor_assoc, BitVec.xor_comm gfReduction, BitVec.xor_assoc (v >>> 1), BitVec.xor_self, BitVec.xor_zero]

/-- A power of `x` below the degree of the field polynomial is shifted without reduction (46_ghash.md R270). -/
theorem mulX_twoPow {n : Nat} (h : n + 1 < 128) : mulX (BitVec.twoPow 128 (n + 1)) = BitVec.twoPow 128 n := by
  have hbit : (BitVec.twoPow 128 (n + 1)).getLsbD 0 = false := by simp
  rw [mulX, hbit, if_neg Bool.false_ne_true]
  ext i hi
  simp [BitVec.getElem_twoPow, Nat.add_comm 1, h, eq_comm]

/-! ### Linear maps -/

/-- A map of blocks that is linear over the polynomials in `x`. -/
structure XLinear (f : BitVec 128 → BitVec 128) : Prop where
  map_xor (u v : BitVec 128) : f (u ^^^ v) = f u ^^^ f v
  map_mulX (v : BitVec 128) : f (mulX v) = mulX (f v)

theorem xLinear_mulX : XLinear mulX := ⟨mulX_xor, fun _ => rfl⟩

section
variable {f : BitVec 128 → BitVec 128} (hf : XLinear f)
include hf

theorem XLinear.map_zero : f 0 = 0 := by
  have h := hf.map_xor 0 0
  rwa [BitVec.xor_self, BitVec.xor_self] at h

theorem XLinear.map_gfLoop (x : BitVec 128) (n : Nat) (z v : BitVec 128) :
    f (gfLoop x n z v) = gfLoop x n (f z) (f v) := by
  induction n generalizing z v with
  | zero => rfl
  | succ n ih => rw [gfLoop_succ, gfLoop_succ, ih, hf.map_mulX, apply_ite f, hf.map_xor]

theorem XLinear.map_gfMul (x y : BitVec 128) : f (gfMul x y) = gfMul x (f y) := by
  rw [gfMul, hf.map_gfLoop, hf.map_zero, gfMul]

end

theorem gfLoop_xor (x : BitVec 128) (n : Nat) (y z u v : BitVec 128) :
    gfLoop x n (y ^^^ z) (u ^^^ v) = gfLoop x n y u ^^^ gfLoop x n z v := by
  induction n generalizing y z u v with
  | zero => rfl
  | succ n ih =>
    have hswap : y ^^^ z ^^^ (u ^^^ v) = (y ^^^ u) ^^^ (z ^^^ v) := by ac_rfl
    rw [gfLoop_succ, gfLoop_succ, gfLoop_succ, ← ih, mulX_xor, hswap]
    cases x.getLsbD n <;> rfl

/-- The product by a fixed block is linear: the loop is additive, and it commutes with the product by `x`. -/
theorem xLinear_gfMul (x : BitVec 128) : XLinear (gfMul x) where
  map_xor := gfLoop_xor x 128 0 0
  map_mulX v := (xLinear_mulX.map_gfMul x v).symm

/-- The products by two fixed blocks commute. -/
theorem gfMul_left_comm (x y z : BitVec 128) : gfMul x (gfMul y z) = gfMul y (gfMul x z) :=
  (xLinear_gfMul x).map_gfMul y z

/-! ### The identity -/

/-- What a pass of the loop adds to the result while `V` is the power of `x` at bit `k`: that bit of the factor. -/
theorem ite_xor_twoPow_getLsbD (x z : BitVec 128) {k i : Nat} (hi : i < 128) :
    (if x.getLsbD k then z ^^^ BitVec.twoPow 128 k else z).getLsbD i =
      (z.getLsbD i ^^ (decide (i = k) && x.getLsbD i)) := by
  by_cases hk : i = k
  · subst hk
    cases hx : x.getLsbD i <;> simp [hi]
  · cases hx : x.getLsbD k <;> simp [hk, BitVec.getLsbD_twoPow, Ne.symm hk]

/-- With `V` the power of `x` at bit `n`, the passes that are left add bits `n` to 0 of the factor. -/
theorem gfLoop_twoPow_getLsbD (x : BitVec 128) {n i : Nat} (h : n < 128) (hi : i < 128) (z : BitVec 128) :
    (gfLoop x (n + 1) z (BitVec.twoPow 128 n)).getLsbD i = (z.getLsbD i ^^ (decide (i ≤ n) && x.getLsbD i)) := by
  induction n generalizing z with
  | zero =>
    rw [gfLoop_succ, gfLoop, ite_xor_twoPow_getLsbD x z hi]
    simp only [Nat.le_zero]
  | succ n ih =>
    have hle : decide (i ≤ n + 1) = (decide (i = n + 1) ^^ decide (i ≤ n)) := by
      by_cases hn : i = n + 1
      · simp [hn]
      · have hlast : i ≤ n + 1 ↔ i ≤ n := by omega
        simp [hn, hlast]
    rw [gfLoop_succ, mulX_twoPow h, ih (by omega), ite_xor_twoPow_getLsbD x z hi, hle, Bool.and_xor_distrib_right,
      Bool.xor_assoc]

/-- The block `80 00 .. 00` is a right identity (46_ghash.md R270). -/
theorem gfMul_identity (x : BitVec 128) : gfMul x (BitVec.twoPow 128 127) = x := by
  refine BitVec.eq_of_getLsbD_eq fun i hi => ?_
  rw [gfMul, gfLoop_twoPow_getLsbD x (by omega) hi, decide_eq_true (by omega), Bool.true_and]
  simp

theorem gfMul_comm (x y : BitVec 128) : gfMul x y = gfMul y x := by
  calc gfMul x y = gfMul x (gfMul y (BitVec.twoPow 128 127)) := by rw [gfMul_identity]
    _ = gfMul y (gfMul x (BitVec.twoPow 128 127)) := gfMul_left_comm ..
    _ = gfMul y x := by rw [gfMul_identity]

theorem gfMul_assoc (x y z : BitVec 128) : gfMul (gfMul x y) z = gfMul x (gfMul y z) := by
  rw [gfMul_comm, gfMul_left_comm, gfMul_comm z]

/-- Settles O56: the products by fixed blocks are linear and so commute, and the identity turns that into the laws. -/
theorem ghashAlgebra : Obligations.GhashAlgebra := by
  have hone : blockOfBytes (0x80 :: List.replicate 15 0) = BitVec.twoPow 128 127 := by decide
  have hx : blockOfBytes (0x40 :: List.replicate 15 0) = mulX (BitVec.twoPow 128 127) := by decide
  refine ⟨gfMul_comm, gfMul_assoc, fun x => (xLinear_gfMul x).map_xor, fun x => (xLinear_gfMul x).map_zero,
    fun y => ?_, fun y => ?_, fun _ _ => blockOfBytes_getLsbD⟩
  · rw [hone, gfMul_comm, gfMul_identity]
  · rw [hx, gfMul_comm, (xLinear_gfMul y).map_mulX, gfMul_identity]
    rfl

end Sys2Proof.Machine
end

section
/-! PROOFS. GHMUL: the fold over blocks, the `CTX` it leaves, and how it composes (46_ghash.md R273, R275). -/

namespace Sys2Proof.Machine

/-! ### The fold -/

theorem ghashFold_eq_foldl (h : BitVec 128) (d : Data) (n i : Nat) (y : BitVec 128) : ghashFold h d n i y =
    (List.range' i n).foldl (fun y j => gfMul (y ^^^ blockOfBytes (readDat d (16 * j) 16)) h) y := by
  induction n generalizing i y with
  | zero => rfl
  | succ n ih => rw [ghashFold, ih, List.range'_succ, List.foldl_cons]

/-- The fold over `m + n` blocks goes on after `m` of them (46_ghash.md R275). -/
theorem ghashFold_add (h : BitVec 128) (d : Data) (m n i : Nat) (y : BitVec 128) :
    ghashFold h d (m + n) i y = ghashFold h d n (i + m) (ghashFold h d m i y) := by
  rw [ghashFold_eq_foldl, ghashFold_eq_foldl, ghashFold_eq_foldl, ← List.foldl_append, List.range'_append_1]

/-- The fold depends on the blocks it reads only. -/
theorem ghashFold_congr {d e : Data} {n i j : Nat}
    (hblock : ∀ k, k < n → readDat e (16 * (j + k)) 16 = readDat d (16 * (i + k)) 16) (h y : BitVec 128) :
    ghashFold h e n j y = ghashFold h d n i y := by
  induction n generalizing i j y with
  | zero => rfl
  | succ n ih =>
    rw [ghashFold, ghashFold, show readDat e (16 * j) 16 = readDat d (16 * i) 16 from hblock 0 (by omega)]
    exact ih (fun k hk => by simpa only [Nat.add_assoc, Nat.add_comm 1] using hblock (k + 1) (by omega)) _

/-! ### The data state the command leaves -/

/-- The accumulator `Y` (10_state.md R36). -/
def ghashY (d : Data) : BitVec 128 := blockOfBytes (readCtx d 0 16)

/-- The key `H` (10_state.md R36). -/
def ghashH (d : Data) : BitVec 128 := blockOfBytes (readCtx d 16 16)

/-- The data state after GHMUL of `n` blocks (46_ghash.md R273). -/
def ghashData (n : Nat) (d : Data) : Data :=
  writeCtx 0 (beBytes (ghashFold (ghashH d) d n 0 (ghashY d)).toNat 16) d

theorem exec_ghmul {len : BitVec 16} (h : len.toNat ≤ 16) (s : State) :
    exec (.ghmul len) s = .next (finishedWith s (ghashData len.toNat s.data)) := by
  change completeCommand s (require _ _ >>= _) = _
  rw [require_true _ h]
  rfl

/-- A block written as bytes and read back (46_ghash.md R270). -/
theorem blockOfBytes_beBytes (v : BitVec 128) : blockOfBytes (beBytes v.toNat 16) = v := by
  have hlt : v.toNat < 256 ^ 16 := v.isLt
  rw [blockOfBytes, beNat_beBytes, Nat.mod_eq_of_lt hlt, BitVec.ofNat_toNat, BitVec.setWidth_eq]

theorem ghashY_writeDat (off : Nat) (bs : List Byte) (d : Data) : ghashY (writeDat off bs d) = ghashY d :=
  congrArg blockOfBytes (readCtx_writeDat d off bs 0 16 (by omega))

theorem ghashH_writeDat (off : Nat) (bs : List Byte) (d : Data) : ghashH (writeDat off bs d) = ghashH d :=
  congrArg blockOfBytes (readCtx_writeDat d off bs 16 16 (by omega))

theorem onlyBytes_ghashData (n : Nat) (d : Data) : onlyBytes [(ctxBase, 16)] d (ghashData n d) := by
  have hframe := onlyBytes_writeCtx 0 (beBytes (ghashFold (ghashH d) d n 0 (ghashY d)).toNat 16) d
  rwa [beBytes_length] at hframe

theorem readCtx_ghashData_rest (n : Nat) (d : Data) {i k : Nat} (h : 16 ≤ i) :
    readCtx (ghashData n d) i k = readCtx d i k :=
  readCtx_writeCtx_other _ _ _ _ _ (.inr (by rwa [beBytes_length]))

theorem ghashH_ghashData (n : Nat) (d : Data) : ghashH (ghashData n d) = ghashH d :=
  congrArg blockOfBytes (readCtx_ghashData_rest n d (le_refl 16))

section
variable {d : Data} (hwf : Memory.wf d.mem = true)
include hwf

theorem wf_ghashData (n : Nat) : Memory.wf (ghashData n d).mem = true := wf_writeCtx hwf (by simp)

theorem readCtx_ghashData_acc (n : Nat) :
    readCtx (ghashData n d) 0 16 = beBytes (ghashFold (ghashH d) d n 0 (ghashY d)).toNat 16 := by
  have hread := readCtx_writeCtx_same hwf (off := 0)
    (bs := beBytes (ghashFold (ghashH d) d n 0 (ghashY d)).toNat 16) (by simp)
  rwa [beBytes_length] at hread

theorem ghashY_ghashData (n : Nat) : ghashY (ghashData n d) = ghashFold (ghashH d) d n 0 (ghashY d) := by
  rw [ghashY, readCtx_ghashData_acc hwf, blockOfBytes_beBytes]

/-- `CTX` after GHMUL: the accumulator, then the bytes that were there. -/
theorem readCtx_ghashData (n : Nat) : readCtx (ghashData n d) 0 256 =
    beBytes (ghashFold (ghashH d) d n 0 (ghashY d)).toNat 16 ++ readCtx d 16 240 := by
  rw [← readCtx_ghashData_acc hwf, ← readCtx_ghashData_rest n d (le_refl 16)]
  exact readBytes_append _ ctxBase 16 240

end

/-! ### Two commands in a row -/

/-- A piece of a byte string of `DAT` that was written to the front of `DAT`. -/
theorem readDat_writeDat_moved {d e : Data} (he : Memory.wf e.mem = true) {off n i k : Nat} (hn : n ≤ 256)
    (h : i + k ≤ n) : readDat (writeDat 0 (readDat d off n) e) i k = readDat d (off + i) k := by
  refine List.map_congr_left fun j hj => ?_
  have hjk : j < k := List.mem_range.1 hj
  have hread := datByte_writeDat_same he (off := 0) (bs := readDat d off n) (i := i + j)
    (by rw [readDat_length]; omega) (by rw [readDat_length]; omega)
  have hbyte := readBytes_getElem d.mem (datBase + off) n (i + j) (by omega)
  calc Memory.read (writeDat 0 (readDat d off n) e).mem (datBase + i + j)
      = datByte (writeDat 0 (readDat d off n) e) (0 + (i + j)) := by rw [datByte, Nat.zero_add, Nat.add_assoc]
    _ = Memory.read d.mem (datBase + off + (i + j)) := hread.trans hbyte
    _ = Memory.read d.mem (datBase + (off + i) + j) := by simp only [Nat.add_assoc]

/-- GHMUL of the blocks after the first `m`, moved to the front of `DAT`, leaves the `CTX` of GHMUL of all of them
(46_ghash.md R275). -/
theorem readCtx_ghashData_add {d : Data} (hwf : Memory.wf d.mem = true) {m n : Nat} (h : m + n ≤ 16) :
    readCtx (ghashData n (writeDat 0 (readDat d (16 * m) (16 * n)) (ghashData m d))) 0 256 =
      readCtx (ghashData (m + n) d) 0 256 := by
  have hwfm := wf_ghashData hwf m
  have hfit : 0 + (readDat d (16 * m) (16 * n)).length ≤ 256 := by rw [readDat_length]; omega
  have hblock (k : Nat) (hk : k < n) :
      readDat (writeDat 0 (readDat d (16 * m) (16 * n)) (ghashData m d)) (16 * (0 + k)) 16 =
        readDat d (16 * (0 + m + k)) 16 := by
    rw [readDat_writeDat_moved hwfm (by omega) (by omega), ← Nat.mul_add, Nat.zero_add, Nat.zero_add]
  rw [readCtx_ghashData (wf_writeDat hwfm hfit), readCtx_ghashData hwf, ghashY_writeDat, ghashH_writeDat,
    ghashH_ghashData, ghashY_ghashData hwf, ghashFold_congr hblock, ← ghashFold_add,
    readCtx_writeDat _ _ _ _ _ (by omega), readCtx_ghashData_rest m d (le_refl 16)]

/-- Settles O55: GHMUL writes the folded accumulator to `CTX[0..15]`, and a second GHMUL goes on from it. (The plain
name `ghashFold` is the model's function.) -/
theorem ghashFold_holds : Obligations.GhashFold := by
  refine fun s hwf => ⟨fun len hlen => ?_, fun a b hab => ?_⟩
  · refine ⟨_, exec_ghmul hlen s, completes_finishedWith s _, ?_, onlyBytes_ghashData len.toNat s.data⟩
    rw [List.range_eq_range', ← ghashFold_eq_foldl]
    exact ghashY_ghashData hwf len.toNat
  · have hadd := toNat_add_of_le (hab.trans (by omega))
    refine ⟨_, _, _, exec_ghmul (by omega) s, exec_ghmul (by omega) _, exec_ghmul (by omega) s, ?_⟩
    simp only [finishedWith_data, hadd]
    exact readCtx_ghashData_add hwf hab

end Sys2Proof.Machine
end

section
/-! PROOFS. SIPBLK and SIPFIN: the words they compress, the data state each leaves on an accepted context, and what that
state holds (10_state.md R37, 47_siphash.md R289, R290). -/

namespace Sys2Proof.Machine

/-! ### The words that are compressed -/

theorem sipAbsorb_eq_foldl (d : Data) (n i : Nat) (v : Sip) : sipAbsorb d n i v =
    (List.range' i n).foldl (fun v j => sipCompress v (leWordAt 64 (readDat d (8 * j) 8) 0 8)) v := by
  induction n generalizing i v with
  | zero => rfl
  | succ n ih => rw [sipAbsorb, ih, List.range'_succ, List.foldl_cons]

/-- The length byte counts modulo 256 (47_siphash.md R289). -/
theorem sipLength_toNat (d : Data) (len : BitVec 16) :
    (sipLength d len).toNat = ((ctxByte d 32).toNat + len.toNat) % 256 := BitVec.toNat_ofNat ..

/-- The length byte moved to the top of the last word. -/
theorem ofNat_shiftLeft_56 (m : Nat) : BitVec.ofNat 64 m <<< 56 = BitVec.ofNat 64 (m * 2 ^ 56) := by
  apply BitVec.eq_of_toNat_eq
  simp [Nat.shiftLeft_eq]

/-- A tail of at most 7 bytes stays below the length byte, so the last word is their sum (47_siphash.md R290). -/
theorem sipLastWord_eq {d : Data} {len : BitVec 16} (h : len.toNat ≤ 7) : sipLastWord d len =
    BitVec.ofNat 64 (((ctxByte d 32).toNat + len.toNat) % 256 * 2 ^ 56 + leNat (readDat d 0 len.toNat)) := by
  have htail : leNat (readDat d 0 len.toNat) < 2 ^ 56 :=
    calc leNat (readDat d 0 len.toNat) < 256 ^ (readDat d 0 len.toNat).length := leNat_lt _
      _ ≤ 256 ^ 7 := Nat.pow_le_pow_right (by omega) (by rwa [readDat_length])
      _ = 2 ^ 56 := rfl
  have hsum := Nat.shiftLeft_add_eq_or_of_lt htail (sipLength d len).toNat
  rw [Nat.shiftLeft_eq] at hsum
  rw [sipLastWord, ofNat_shiftLeft_56, ← BitVec.ofNat_or, ← hsum, sipLength_toNat]

/-! ### The data state of SIPBLK -/

/-- The data state after SIPBLK (47_siphash.md R289). -/
def absorbSipData (len : BitVec 16) (d : Data) : Data :=
  writeSip (sipAbsorb d (len.toNat / 8) 0 (readSip d)) (sipLength d len) d

theorem exec_sipblk {s : State} {len : BitVec 16} (hr : sipReady s.data) (hlen : len.toNat ≤ 256 ∧ len.toNat % 8 = 0) :
    exec (.sipblk len) s = .next (finishedWith s (absorbSipData len s.data)) := by
  change completeCommand s (sipContext s.data >>= fun _ => require _ _ >>= _) = _
  rw [sipContext_ok hr, exceptBind_ok, require_true _ hlen]
  rfl

/-! ### The data state of SIPFIN -/

/-- The data state with the output and the words of a finalisation `r`, and the context closed (47_siphash.md R290). -/
def closeSip (r : List Byte × Sip) (mlen : Byte) (d : Data) : Data :=
  writePhase 3 (writeDat 0 r.1 (writeSip r.2 mlen d))

theorem exec_sipfin {s : State} {len : BitVec 16} {wide : Bool} (hr : sipReady s.data) (hlen : len.toNat ≤ 7)
    (hvar : ctxByte s.data 33 = if wide then 1 else 0) :
    exec (.sipfin len) s = .next (finishedWith s (closeSip
      (sipFinish wide (sipCompress (readSip s.data) (sipLastWord s.data len))) (sipLength s.data len) s.data)) := by
  have hwide : decide (ctxByte s.data 33 = 1) = wide := by
    rw [hvar]
    cases wide <;> rfl
  subst hwide
  change completeCommand s (sipContext s.data >>= fun _ => require _ _ >>= _) = _
  rw [sipContext_ok hr, exceptBind_ok, require_true _ hlen]
  rfl

theorem readSip_writeDat (bs : List Byte) (d : Data) : readSip (writeDat 0 bs d) = readSip d := by
  have hread (i : Nat) (hi : i + 8 ≤ 256) : readCtx (writeDat 0 bs d) i 8 = readCtx d i 8 :=
    readCtx_writeDat d 0 bs i 8 hi
  simp only [readSip, hread 0 (by omega), hread 8 (by omega), hread 16 (by omega), hread 24 (by omega)]

theorem onlyBytes_closeSip {r : List Byte × Sip} {n : Nat} (hl : r.1.length = n) (mlen : Byte) (d : Data) :
    onlyBytes [(ctxBase, 33), (ctxBase + 255, 1), (datBase, n)] d (closeSip r mlen d) := by
  have hdat := onlyBytes_trans (onlyBytes_writeSip r.2 mlen d) (onlyBytes_writeDat 0 r.1 _)
  refine onlyBytes_mono (onlyBytes_trans hdat (onlyBytes_writeCtx 255 [3] _)) fun a ha x hx => ha x ?_
  simp only [hl, List.cons_append, List.nil_append, List.mem_cons, List.not_mem_nil, or_false, Nat.add_zero,
    List.length_singleton] at hx ⊢
  tauto

section
variable {d : Data} (hwf : Memory.wf d.mem = true) (r : List Byte × Sip) (mlen : Byte)
include hwf

theorem readSip_closeSip : readSip (closeSip r mlen d) = r.2 := by
  rw [closeSip, writePhase, readSip_writeCtx (by omega), readSip_writeDat, readSip_writeSip hwf]

theorem ctxByte_closeSip_mlen : ctxByte (closeSip r mlen d) 32 = mlen := by
  rw [closeSip, writePhase, ctxByte_writeCtx_other _ _ _ _ (by omega), ctxByte_writeDat _ _ _ _ (by omega),
    ctxByte_writeSip_mlen hwf]

variable {r} {n : Nat} (hl : r.1.length = n) (hn : n ≤ 256)
include hl hn

theorem readDat_closeSip : readDat (closeSip r mlen d) 0 n = r.1 := by
  rw [closeSip, readDat_writePhase, readDat_writeDat_front (wf_writeSip hwf r.2 mlen) hl hn]

theorem ctxPhase_closeSip : ctxPhase (closeSip r mlen d) = 3 :=
  ctxPhase_writePhase (wf_writeDat (wf_writeSip hwf r.2 mlen) (by omega)) 3

end

/-- Settles O58: the round, the compression and the finalisation are their assignments; each command leaves the data
state above, from which words, length byte, phase and output read back. -/
theorem sipAbsorbFinish : Obligations.SipAbsorbFinish := by
  refine ⟨?_, ?_, ?_, ?_, ?_⟩
  · rintro v0 v1 v2 v3 _ _ _ _ _ _ _ _ rfl rfl rfl rfl rfl rfl rfl rfl
    rfl
  · rintro v _ m rfl
    rfl
  · rintro v _ rfl
    rfl
  · rintro v _ _ rfl rfl
    rfl
  · rintro s len _ hwf hr rfl
    refine ⟨fun hle hmod => ?_, ?_⟩
    · refine ⟨_, exec_sipblk hr ⟨hle, hmod⟩, completes_finishedWith s _, ?_, ?_, onlyBytes_writeSip _ _ s.data⟩
      · rw [List.range_eq_range', ← sipAbsorb_eq_foldl]
        exact readSip_writeSip hwf _ _
      · rw [← sipLength_toNat]
        exact congrArg BitVec.toNat (ctxByte_writeSip_mlen hwf _ _)
    · rintro wide _ _ hlen hvar rfl rfl
      rw [← sipLastWord_eq hlen, ← sipLength_toNat]
      have hl := sipFinish_length wide (sipCompress (readSip s.data) (sipLastWord s.data len))
      have hn : (if wide then 16 else 8) ≤ 256 := by cases wide <;> decide
      exact ⟨_, exec_sipfin hr hlen hvar, completes_finishedWith s _, readDat_closeSip hwf _ hl hn,
        readSip_closeSip hwf _ _, congrArg BitVec.toNat (ctxByte_closeSip_mlen hwf _ _),
        ctxPhase_closeSip hwf _ hl hn, onlyBytes_closeSip hl _ s.data⟩

end Sys2Proof.Machine
end

section
/-! PROOFS. Which checks each command makes, so with which errors it can end (60_exceptions.md R312, R318). -/

namespace Sys2Proof.Machine

/-! ### The checks of a rule -/

/-- When the rule `x` fails, it is at one of the checks `fs`. -/
def FailsAmong {α : Type} (fs : List Failure) (x : Except Failure α) : Prop := ∀ f, x = .error f → f ∈ fs

theorem failsAmong_ok {α : Type} {fs : List Failure} {a : α} : FailsAmong fs (.ok a : Except Failure α) :=
  fun _ h => nomatch h

theorem failsAmong_error {α : Type} {fs : List Failure} {f : Failure} (h : f ∈ fs) :
    FailsAmong fs (.error f : Except Failure α) := by
  rintro _ ⟨⟩
  exact h

theorem failsAmong_require {p : Prop} [Decidable p] {f : Failure} : FailsAmong [f] (require p f) := by
  unfold require
  split
  · exact failsAmong_ok
  · exact failsAmong_error (by simp)

theorem FailsAmong.bind {α β : Type} {fs gs : List Failure} {x : Except Failure α} {g : α → Except Failure β}
    (hx : FailsAmong fs x) (hg : ∀ a, FailsAmong gs (g a)) : FailsAmong (fs ++ gs) (x >>= g) := by
  cases x with
  | ok a => exact fun f h => List.mem_append_right fs (hg a f h)
  | error e =>
    rintro _ ⟨⟩
    exact List.mem_append_left gs (hx e rfl)

theorem FailsAmong.ite {α : Type} {fs : List Failure} {c : Prop} [Decidable c] {x y : Except Failure α}
    (hx : FailsAmong fs x) (hy : FailsAmong fs y) : FailsAmong fs (if c then x else y) := by
  split
  · exact hx
  · exact hy

/-! ### The checks of the shared operations -/

theorem failsAmong_curveOf {crv : CrvField} : FailsAmong [.reservedValue] (curveOf crv) := by
  cases hc : curveAt crv with
  | none => exact curveOf_reserved ((curveAt_eq_none_iff crv).1 hc) ▸ failsAmong_error (by simp)
  | some c => exact curveOf_ok hc ▸ failsAmong_ok

theorem failsAmong_felt {d : Data} {m : Nat} {r : FReg} {f : Failure} : FailsAmong [f] (felt d m r f) := by
  by_cases h : readField d r < m
  · exact felt_ok f h ▸ failsAmong_ok
  · exact felt_error f (Nat.le_of_not_lt h) ▸ failsAmong_error (by simp)

theorem failsAmong_pt {c : CurveParams} {d : Data} {j : PReg} {f : Failure} : FailsAmong [f] (pt c d j f) := by
  by_cases h : ∃ P, holdsPoint c d j P
  · obtain ⟨P, hP⟩ := h
    exact (pt_ok_iff c d j f P).2 hP ▸ failsAmong_ok
  · exact pt_error f (not_exists.1 h) ▸ failsAmong_error (by simp)

theorem failsAmong_scalarOf {c : CurveParams} {d : Data} {rk : Bool} {rb : FReg} :
    FailsAmong [.scalarWidth, .scalarRange] (scalarOf c d rk rb) :=
  failsAmong_require.bind fun _ => failsAmong_require.bind fun _ => failsAmong_ok

theorem failsAmong_ladderConstant {c : CurveParams} : FailsAmong [.reservedValue] (ladderConstant c) := by
  by_cases h : ∃ a24, c.fam = .montgomery a24
  · obtain ⟨a24, hf⟩ := h
    exact ladderConstant_ok hf ▸ failsAmong_ok
  · exact ladderConstant_error (not_exists.1 h) ▸ failsAmong_error (by simp)

/-- The context of a sponge command: kind and phase, then the header (44_keccak.md R219). -/
theorem failsAmong_spctx {need : Nat} {d : Data} : FailsAmong [.wrongState, .badHeader] (spctx need d) := by
  by_cases hs : ctxKind d = 1 ∧ ctxPhase d = need
  · by_cases hh : spongeHeader need d
    · exact spctx_ok ⟨hs.1, hs.2, hh⟩ ▸ failsAmong_ok
    · exact spctx_badHeader hs hh ▸ failsAmong_error (by simp)
  · exact spctx_wrongState hs ▸ failsAmong_error (by simp)

theorem failsAmong_sipContext {d : Data} : FailsAmong [.wrongState, .badHeader] (sipContext d) :=
  failsAmong_require.bind fun _ => failsAmong_require

theorem failsAmong_blake2Init {w : Nat} {B : Blake2 w} {var : Byte} {d : Data} :
    FailsAmong [.badHeader, .badHeader] (blake2Init B var d) :=
  failsAmong_require.bind fun _ => failsAmong_require.bind fun _ => failsAmong_ok

theorem failsAmong_blake2Compress {w : Nat} {B : Blake2 w} {final : Bool} {len : BitVec 16} {d : Data} :
    FailsAmong [.badHeader, .badLength] (blake2Compress B final len d) :=
  failsAmong_require.bind fun _ => failsAmong_require.bind fun _ => failsAmong_ok

/-- A RAW configuration is checked for its rate, then for its suffix (44_keccak.md R222). -/
theorem failsAmong_rawConfig {len : BitVec 16} : FailsAmong [.reservedValue, .reservedValue] (rawConfig len) :=
  failsAmong_require.bind fun _ => failsAmong_require.bind fun _ => failsAmong_ok

/-- Only the modes 0 to 9 are presets (44_keccak.md R223). -/
theorem le_nine_of_spongePreset {mode : BitVec 8} {cfg : SpongeConfig} (h : spongePreset mode = some cfg) :
    mode.toNat ≤ 9 := by
  unfold spongePreset at h
  split at h
  case h_11 => cases h
  all_goals omega

/-- A preset of a well-formed SPINIT has length 0, so the check of the length is never the one that fails
(30_encoding.md R85). -/
theorem failsAmong_spinitConfig {mode : BitVec 8} {len : BitVec 16} (hi : (Instr.spinit mode len).wellFormed = true) :
    FailsAmong [.reservedValue, .reservedValue] (spinitConfig mode len) := by
  have hlen : mode.toNat ≤ 9 → len = 0 := of_decide_eq_true hi
  unfold spinitConfig
  split
  · next cfg hcfg =>
    rw [if_pos (hlen (le_nine_of_spongePreset hcfg))]
    exact failsAmong_ok
  · exact failsAmong_rawConfig.ite (failsAmong_error (by simp))

theorem failsAmong_fieldUnary {crv rd ra : Fin 16} {s : State} {ms : Bool}
    {rule : CurveParams → Nat → Except Failure Nat} {fs : List Failure} (h : ∀ c a, FailsAmong fs (rule c a)) :
    ∃ r, fieldUnary crv rd ra s ms rule = completeCommand s r ∧ FailsAmong (.reservedValue :: .operandA :: fs) r :=
  ⟨_, rfl, failsAmong_curveOf.bind fun c => failsAmong_felt.bind fun a =>
    List.append_nil fs ▸ (h c a).bind fun _ => failsAmong_ok⟩

theorem failsAmong_fieldBinary {crv rd ra rb : Fin 16} {s : State} {ms : Bool}
    {rule : CurveParams → Nat → Nat → Nat} :
    ∃ r, fieldBinary crv rd ra rb s ms rule = completeCommand s r ∧
      FailsAmong [.reservedValue, .operandA, .operandB] r :=
  ⟨_, rfl, failsAmong_curveOf.bind fun _ => failsAmong_felt.bind fun _ => failsAmong_felt.bind fun _ =>
    failsAmong_ok⟩

/-! ### The checks of every command -/

/-- The checks that a well-formed command makes (60_exceptions.md R318). -/
def commandChecks : Instr → List Failure
  | .nop | .zeroize | .fmov .. => []
  | .fadd .. | .fsub .. | .fmul .. | .montmul .. => [.reservedValue, .operandA, .operandB]
  | .fneg .. | .fsqr .. | .tomont .. | .frommont .. | .fpow .. => [.reservedValue, .operandA]
  | .finv .. => [.reservedValue, .operandA, .inverseOfZero]
  | .fred .. | .keccakp .. | .sipinit .. => [.reservedValue]
  | .fldc .. | .pldc .. | .spinit .. => [.reservedValue, .reservedValue]
  | .pchk .. | .pdbl .. => [.reservedValue, .pointA]
  | .padd .. => [.reservedValue, .pointA, .pointB]
  | .smul .. => [.reservedValue, .pointA, .scalarWidth, .scalarRange]
  | .smulG .. => [.reservedValue, .scalarWidth, .scalarRange]
  | .smulx .. => [.reservedValue, .reservedValue, .pointA, .scalarWidth, .scalarRange]
  | .smulxG .. => [.reservedValue, .reservedValue, .scalarWidth, .scalarRange]
  | .spabs .. | .sipblk .. | .sipfin .. => [.wrongState, .badHeader, .badLength]
  | .spfin => [.wrongState, .badHeader]
  | .spsqz .. => [.wrongState, .badHeader, .zeroLength, .badLength]
  | .spdig => [.wrongState, .badHeader, .zeroLength]
  | .b2init .. => [.reservedValue, .badHeader, .badHeader]
  | .b2comp .. => [.wrongState, .badHeader, .badHeader, .badLength]
  | .ghmul .. => [.badLength]

/-- A well-formed command fails at none but its checks. -/
theorem exec_failsAmong (i : Instr) (s : State) (hi : i.wellFormed = true) :
    ∃ r, exec i s = completeCommand s r ∧ FailsAmong (commandChecks i) r := by
  cases i with
  | nop | zeroize | fmov => exact ⟨_, rfl, failsAmong_ok⟩
  | fadd | fsub | fmul | montmul => exact failsAmong_fieldBinary
  | fneg | fsqr | tomont | frommont | fpow => exact failsAmong_fieldUnary fun _ _ => failsAmong_ok
  | finv => exact failsAmong_fieldUnary fun _ _ => failsAmong_require.bind fun _ => failsAmong_ok
  | fred => exact ⟨_, rfl, failsAmong_curveOf.bind fun _ => failsAmong_ok⟩
  | fldc crv ms rd rc =>
    refine ⟨_, rfl, failsAmong_curveOf.bind fun c => ?_⟩
    cases fieldConstant c ms rc with
    | some v => exact failsAmong_ok
    | none => exact failsAmong_error (by simp)
  | pchk | pdbl => exact ⟨_, rfl, failsAmong_curveOf.bind fun _ => failsAmong_pt.bind fun _ => failsAmong_ok⟩
  | padd =>
    exact ⟨_, rfl, failsAmong_curveOf.bind fun _ => failsAmong_pt.bind fun _ => failsAmong_pt.bind fun _ =>
      failsAmong_ok⟩
  | pldc crv rd rc =>
    refine ⟨_, rfl, failsAmong_curveOf.bind fun c => ?_⟩
    cases constantPoint c rc with
    | some P => exact failsAmong_ok
    | none => exact failsAmong_error (by simp)
  | smul =>
    exact ⟨_, rfl, failsAmong_curveOf.bind fun _ => failsAmong_pt.bind fun _ => failsAmong_scalarOf.bind fun _ =>
      failsAmong_ok⟩
  | smulG => exact ⟨_, rfl, failsAmong_curveOf.bind fun _ => failsAmong_scalarOf.bind fun _ => failsAmong_ok⟩
  | smulx =>
    exact ⟨_, rfl, failsAmong_curveOf.bind fun _ => failsAmong_ladderConstant.bind fun _ =>
      failsAmong_felt.bind fun _ => failsAmong_scalarOf.bind fun _ => failsAmong_ok⟩
  | smulxG =>
    exact ⟨_, rfl, failsAmong_curveOf.bind fun _ => failsAmong_ladderConstant.bind fun _ =>
      failsAmong_scalarOf.bind fun _ => failsAmong_ok⟩
  | keccakp | sipinit | ghmul => exact ⟨_, rfl, failsAmong_require.bind fun _ => failsAmong_ok⟩
  | spinit => exact ⟨_, rfl, (failsAmong_spinitConfig hi).bind fun _ => failsAmong_ok⟩
  | spabs | spdig => exact ⟨_, rfl, failsAmong_spctx.bind fun _ => failsAmong_require.bind fun _ => failsAmong_ok⟩
  | spfin => exact ⟨_, rfl, failsAmong_spctx.bind fun _ => failsAmong_ok⟩
  | spsqz =>
    exact ⟨_, rfl, failsAmong_spctx.bind fun _ => failsAmong_require.bind fun _ => failsAmong_require.bind fun _ =>
      failsAmong_ok⟩
  | b2init =>
    exact ⟨_, rfl, failsAmong_require.bind fun _ => failsAmong_blake2Init.ite failsAmong_blake2Init⟩
  | b2comp =>
    exact ⟨_, rfl, failsAmong_require.bind fun _ => failsAmong_require.bind fun _ =>
      failsAmong_blake2Compress.ite failsAmong_blake2Compress⟩
  | sipblk | sipfin =>
    exact ⟨_, rfl, failsAmong_sipContext.bind fun _ => failsAmong_require.bind fun _ => failsAmong_ok⟩

/-- Each check of a command reports a kind that its row allows (60_exceptions.md R312). -/
theorem errorCode_mem_possibleErrors (i : Instr) :
    ∀ f ∈ commandChecks i, errorCode (failureKind f) ∈ possibleErrors i := by
  cases i <;> simp [commandChecks, possibleErrors, errorCode, failureKind]

/-- Settles O17: a command completes with a result or fails at one of its checks, whose code is in its row. -/
theorem errorKinds : Obligations.ErrorKinds := fun i s hi => by
  obtain ⟨r, hr, hf⟩ := exec_failsAmong i s hi
  rw [hr]
  cases r with
  | ok d => exact .inl ⟨d, rfl⟩
  | error f => exact .inr ⟨_, errorCode_mem_possibleErrors i f (hf f rfl), rfl⟩

end Sys2Proof.Machine
end

section
/-! PROOFS. The interrupt line (60_exceptions.md R320). -/

namespace Sys2Proof.Machine

@[simp] theorem finishedWith_irq (s : State) (d : Data) : (finishedWith s d).irq = s.ie := Bool.and_true _

@[simp] theorem failedWith_irq (s : State) (c : BitVec 4) : (failedWith s c).irq = s.ie := Bool.and_true _

/-- The line is low while `DONE` is 0. -/
theorem irq_of_not_done {s : State} (h : s.done = false) : s.irq = false := by
  rw [State.irq, h, Bool.and_false]

/-- A decoded command raises the line when it ends, with or without error. -/
theorem exec_irq {i : Instr} {s t : State} (h : exec i s = .next t) : t.irq = s.ie := by
  rcases exec_next h with ⟨d, rfl⟩ | ⟨f, rfl⟩
  · exact finishedWith_irq s d
  · exact failedWith_irq s _

theorem completeInFlight_irq {s t : State} (h : completeInFlight s = .next t) : t.irq = s.ie := by
  rcases completeInFlight_cases h with ⟨i, he⟩ | rfl
  · exact exec_irq he
  · exact failedWith_irq s _

/-- Settles O18: both ends of a command set `DONE`; an accept and the write of 2 to `STATUS` clear it. -/
theorem interruptLine : Obligations.InterruptLine := by
  refine ⟨fun _ => rfl, fun _ _ _ => exec_irq, fun _ _ => completeInFlight_irq, fun s t hb hs h => ?_,
    fun s v hb he => ?_, fun s => ?_⟩
  · rcases hs with hs | ⟨rest, hs⟩
    · rw [step_of_no_input hs, completeOrIdle_busy hb] at h
      exact completeInFlight_irq h
    · rw [step_complete_busy hs hb] at h
      exact completeInFlight_irq (s := { s with inputs := rest }) h
  · rw [memWrite_cmd, submit_accepted hb he]
    exact irq_of_not_done rfl
  · rw [memWrite_status, writeStatus_eq]
    exact irq_of_not_done (Bool.and_false _)

end Sys2Proof.Machine
end

section
/-! PROOFS. NOP and ZEROIZE (48_system.md R300, R301). -/

namespace Sys2Proof.Machine

/-- A word decodes to a well-formed command exactly when it is its encoding. -/
theorem decode_eq_ok_iff {i : Instr} (hi : i.wellFormed = true) (w : Word) : decode w = .ok i ↔ w = encode i :=
  ⟨fun h => (encodeDecode w i h).2.symm, fun h => decode_of_encode_eq h.symm hi⟩

theorem exec_nop (s : State) : exec .nop s = .next (finishedWith s s.data) := rfl

theorem exec_zeroize (s : State) : exec .zeroize s = .next (finishedWith s Data.zero) := rfl

theorem zero_f (r : FReg) : Data.zero.f[r] = 0 := by simp [Data.zero]

/-- Settles O23: both complete without a check, and each word is the encoding of its command. -/
theorem systemCommands : Obligations.SystemCommands :=
  ⟨exec_nop, fun s => ⟨_, exec_zeroize s, completes_finishedWith s _, zero_f, rfl, fun _ => rfl⟩,
    decode_eq_ok_iff (i := .nop) rfl, decode_eq_ok_iff (i := .zeroize) rfl⟩

end Sys2Proof.Machine
end

section
/-! PROOFS. What the latency of a command reads of its word and of the data state (70_reset_and_hazards.md R362). -/

namespace Sys2Proof.Machine

/-! ### The operation code and the public part of a word -/

/-- The operation codes of the hash commands are those of the range 0x40 to 0x6F (30_encoding.md R87). -/
theorem isHashWord_encode (i : Instr) : isHashWord (encode i) = isHash i := by
  cases i with
  | nop | zeroize | fadd | fsub | fneg | fmul | fsqr | montmul | tomont | frommont | finv | fpow | fred | fmov | fldc
  | pchk | padd | pdbl | pldc | smul | smulG | smulx | smulxG =>
    rw [encode, isHashWord, opcField_formatP]
    rfl
  | keccakp | spinit | spabs | spfin | spsqz | spdig | b2init | b2comp | ghmul | sipinit | sipblk | sipfin =>
    rw [encode, isHashWord, opcField_formatH]
    rfl

theorem isHashWord_of_decode {w : Word} {i : Instr} (h : decode w = .ok i) : isHashWord w = isHash i := by
  rw [← (encodeDecode w i h).2, isHashWord_encode]

/-- Outside the hash commands the operation code, `CRV`, `MS`, `G` and `RK` are all that is public: no register number,
no selector, no data state. -/
theorem public_of_not_hash {w : Word} (h : isHashWord w = false) :
    publicWord w = registerFreeWord w ∧ ∀ d f, publicHeader w d f = [] := by
  unfold publicWord publicHeader
  cases hd : decode w with
  | error => simp [h]
  | ok i =>
    have hi : isHash i = false := (isHashWord_of_decode hd).symm.trans h
    cases i with
    | keccakp | spinit | spabs | spfin | spsqz | spdig | b2init | b2comp | ghmul | sipinit | sipblk | sipfin => cases hi
    | _ => exact ⟨rfl, fun _ _ => rfl⟩

/-- The bits that are public outside the hash commands are those above bit 16. -/
theorem registerFreeWord_eq (w : Word) : registerFreeWord w = (w >>> 17) <<< 17 := by
  unfold registerFreeWord
  ext i hi
  interval_cases i <;> simp

/-- The operation code that a fixed-time command shows is that of its instruction. -/
theorem opcodeOnlyWord_of_decode {w : Word} {i : Instr} (h : decode w = .ok i) :
    opcodeOnlyWord w = formatH (opcField (encode i)) 0 0 := by
  rw [opcodeOnlyWord, and_opcodeMask, (encodeDecode w i h).2]

theorem opcField_eq_shift (w : Word) : (opcField w).toNat = (w >>> 24).toNat := by
  rw [opcField, BitVec.extractLsb'_toNat, BitVec.toNat_ushiftRight]
  omega

/-! ### The public header -/

theorem publicHeader_of_error {w : Word} {x : Illegal} (h : decode w = .error x) (d : Data) (f : Option Failure) :
    publicHeader w d f = [] := by
  rw [publicHeader, h]

theorem variantByte_congr {off : Nat} {d e : Data} (h : ctxByte d off = ctxByte e off) (f : Option Failure) :
    variantByte off d f = variantByte off e f := by
  rw [variantByte, variantByte, h]

/-- The six header bytes of a sponge context are all that `spongeHeaderBytes` reads. -/
theorem spongeHeaderBytes_congr {d e : Data} (h : ∀ n ∈ [200, 202, 203, 204, 254, 255], ctxByte d n = ctxByte e n) :
    spongeHeaderBytes d = spongeHeaderBytes e := by
  simp only [List.forall_mem_cons] at h
  obtain ⟨h200, h202, h203, h204, h254, h255, -⟩ := h
  have hkind : ctxKind d = ctxKind e := congrArg BitVec.toNat h254
  rw [spongeHeaderBytes, spongeHeaderBytes, hkind, h200, h202, h203, h204, h254, h255]

/-- Up to the operation code of SPDIG, the last of the sponge commands, no header but the sponge's is read
(44_keccak.md R233). -/
theorem publicHeader_sponge_congr {w : Word} (hopc : (opcField w).toNat ≤ 0x45) {d e : Data}
    (h : spongeHeaderBytes d = spongeHeaderBytes e) (f : Option Failure) :
    publicHeader w d f = publicHeader w e f := by
  unfold publicHeader
  cases hd : decode w with
  | error => rfl
  | ok i =>
    cases i with
    | keccakp | spinit | spabs | spfin | spsqz | spdig => exact h
    | b2comp | sipfin =>
      rw [← (encodeDecode w _ hd).2, encode, opcField_formatH] at hopc
      exact absurd hopc (by decide)
    | _ => rfl

/-! ### Latencies -/

theorem commandLatency_congr {v w : Word} {d e : Data} {f : Option Failure} (hw : publicWord v = publicWord w)
    (hh : publicHeader v d f = publicHeader w e f) : commandLatency v d f = commandLatency w e f := by
  rw [commandLatency, commandLatency, publicInputs, publicInputs, hw, hh]

/-- Two commands that show their operation code only: the latencies agree when the codes and the headers do. -/
theorem commandLatency_opcodeOnly {v w : Word} {i j : Instr} {d e : Data} {f : Option Failure}
    (hv : decode v = .ok i) (hw : decode w = .ok j) (hpv : publicWord v = opcodeOnlyWord v)
    (hpw : publicWord w = opcodeOnlyWord w) (hij : opcField (encode i) = opcField (encode j))
    (hh : publicHeader v d f = publicHeader w e f) : commandLatency v d f = commandLatency w e f :=
  commandLatency_congr
    (by rw [hpv, hpw, opcodeOnlyWord_of_decode hv, opcodeOnlyWord_of_decode hw, hij]) hh

/-- Settles O22, family by family: the public inputs agree. -/
theorem latencyIsPublic : Obligations.LatencyIsPublic := by
  refine ⟨fun _ _ _ => Nat.succ_pos _, fun v w d e f hv hw hvw => ?_, fun w x d e f hd => ?_,
    fun w d e f _ hopc h => ?_, fun v w m n d e f => ?_, fun v w x y m n d e f => ?_, fun w n d e f hd => ?_⟩
  · obtain ⟨hpv, hhv⟩ := public_of_not_hash hv
    obtain ⟨hpw, hhw⟩ := public_of_not_hash hw
    exact commandLatency_congr (by rw [hpv, hpw, registerFreeWord_eq, registerFreeWord_eq, hvw])
      ((hhv d f).trans (hhw e f).symm)
  · exact commandLatency_congr rfl ((publicHeader_of_error hd d f).trans (publicHeader_of_error hd e f).symm)
  · rw [← opcField_eq_shift] at hopc
    exact commandLatency_congr rfl (publicHeader_sponge_congr hopc (spongeHeaderBytes_congr h) f)
  · constructor <;> intro hv hw
    all_goals
      exact commandLatency_opcodeOnly hv hw (by rw [publicWord, hv]) (by rw [publicWord, hw])
        (by rw [encode, encode, opcField_formatH, opcField_formatH]) (by rw [publicHeader, publicHeader, hv, hw])
  · constructor <;> intro hv hw hvar
    all_goals
      exact commandLatency_opcodeOnly hv hw (by rw [publicWord, hv]) (by rw [publicWord, hw])
        (by rw [encode, encode, opcField_formatH, opcField_formatH])
        (by rw [publicHeader, publicHeader, hv, hw]; exact variantByte_congr hvar f)
  · refine commandLatency_congr rfl ?_
    rcases hd with hd | hd <;> rw [publicHeader, publicHeader, hd]

end Sys2Proof.Machine
end
